-- ==== Sys2Proof/Word.lean ====
section
/-!
DEFINITION. The machine's word and byte (R6: `XLEN = 32`; R40: a byte is 8 bits).
-/

namespace Sys2Proof

/-- A word: a register's contents, a logical or physical address, an instruction word, a literal (R6, R11, R14). -/
abbrev Word := BitVec 32

/-- A byte of memory, an operand id, a timer id (R40, R101, R44). -/
abbrev Byte := BitVec 8

end Sys2Proof
end

