-- ==== Sys2Proof/Syntax.lean ====
section
/-!
DEFINITION. The syntax of LEG-32: the names of the 28 registers (R20), the operands (R102) and the 14 instructions (R110).
-/

namespace Sys2Proof

/-- The 28 registers, in the order of R20's layout. -/
inductive Reg
  | rip | rst | rff | rfa | rbt | rct | rpa | rra
  | rsa | rcmp | rlgic | rarth
  | rgp1 | rgp2 | rgp3 | rgp4 | rgp5 | rgp6 | rgp7 | rgp8
  | rae1 | rae2 | rae3 | rae4
  | rfp1 | rfp2 | rfp3 | rfp4
  deriving DecidableEq, Repr

/-- An operand of an instruction (R102, R104, R107). A register operand keeps the id byte as it stands in the instruction
word: R102 has the id validated when the instruction's rule reaches that check, not at decode time (log 19). -/
inductive Operand
  /-- kind `Reg`: a non-zero operand id -/
  | reg (id : Byte)
  /-- kind `Lit`: the literal word that follows the instruction word -/
  | lit (value : Word)
  deriving DecidableEq, Repr

/-- The 14 instructions of R110, operand 1 first. -/
inductive Instr
  /-- copy-register-to-ref, opcode 1 (R131) -/
  | cpr (op1 op2 : Operand)
  /-- copy-literal-to-ref, opcode 2 (R132) -/
  | cpl (op1 op2 : Operand)
  /-- copy-ref-to-ref, opcode 3 (R133) -/
  | cpf (op1 op2 : Operand)
  /-- copy-register-through-register-indirect, opcode 4 (R134) -/
  | cpx (op1 op2 : Operand)
  /-- compare, opcode 5 (R141) -/
  | cmp (op1 op2 : Operand)
  /-- jump, opcode 6 (R143) -/
  | jmp (op1 : Operand)
  /-- call, opcode 7 (R146) -/
  | call (op1 : Operand)
  /-- return, opcode 8 (R147) -/
  | ret
  /-- arithmetic, opcode 9 (R150) -/
  | arth (op1 op2 : Operand)
  /-- logic, opcode 10 (R180) -/
  | lgic (op1 op2 : Operand)
  /-- software interrupt, opcode 11 (R190) -/
  | intr (op1 : Operand)
  /-- reserved no-op placeholder, opcode 12 (R210) -/
  | rsv
  /-- no-op, opcode 13 (R211) -/
  | nop
  /-- load-task, opcode 14 (R212) -/
  | ltsk
  deriving DecidableEq, Repr

/-- The operands an instruction takes, operand 1 first (R103, R110). -/
def Instr.operands : Instr → List Operand
  | .cpr a b => [a, b]
  | .cpl a b => [a, b]
  | .cpf a b => [a, b]
  | .cpx a b => [a, b]
  | .cmp a b => [a, b]
  | .jmp a => [a]
  | .call a => [a]
  | .ret => []
  | .arth a b => [a, b]
  | .lgic a b => [a, b]
  | .intr a => [a]
  | .rsv => []
  | .nop => []
  | .ltsk => []

end Sys2Proof
end

