-- ==== Sys2Proof/WellFormed.lean ====
section
/-!
DEFINITION. Which terms of `Instr` an instruction word can stand for. The one condition is R102's: a register operand's id is
not zero, since a zero id marks a literal. An operand of a kind the opcode does not accept (R113), and an id that names no
register (R21), are legal encodings whose execution raises BadOperandValue or BadRegister, so they are well formed.
-/

namespace Sys2Proof

/-- An operand an instruction word can hold (R102). -/
def Operand.wellFormed : Operand → Bool
  | .reg id => id != 0
  | .lit _ => true

/-- An instruction an instruction word can hold: each of its operands is well formed (R102). -/
def Instr.wellFormed (i : Instr) : Bool := i.operands.all Operand.wellFormed

end Sys2Proof
end

