-- ==== Sys2Proof/Decode.lean ====
section
/-!
DEFINITION. Decoding and encoding of instructions (30_encoding.md), and the big-endian byte order of memory (R64).
The decoder is total on every list of bytes and refuses by name; the encoder follows it.
-/

namespace Sys2Proof

/-! ## Byte order -/

/-- The four bytes of a word, the most significant first, as they lie in memory (R64). -/
def wordBytes (v : Word) : List Byte :=
  [v.extractLsb' 24 8, v.extractLsb' 16 8, v.extractLsb' 8 8, v.extractLsb' 0 8]

/-- The word whose bytes in memory are `b3 b2 b1 b0`, lowest address first (R64). -/
def joinBytes (b3 b2 b1 b0 : Byte) : Word := b3 ++ b2 ++ b1 ++ b0

/-- The first word of a list of bytes and the bytes after it; none if there are fewer than four. -/
def takeWord : List Byte → Option (Word × List Byte)
  | b3 :: b2 :: b1 :: b0 :: rest => some (joinBytes b3 b2 b1 b0, rest)
  | _ => none

/-! ## The fields of the instruction word -/

/-- The opcode id, `IW[7:0]` (R101). -/
def opcodeField (iw : Word) : Byte := iw.extractLsb' 0 8

/-- The operand-1 id, `IW[15:8]` (R101). -/
def id1Field (iw : Word) : Byte := iw.extractLsb' 8 8

/-- The operand-2 id, `IW[23:16]` (R101). -/
def id2Field (iw : Word) : Byte := iw.extractLsb' 16 8

/-- How many operands each opcode takes; none for an opcode id outside the 14-entry table (R103, R110, R111). -/
def operandCount (opc : Byte) : Option Nat :=
  match opc.toNat with
  | 1 => some 2
  | 2 => some 2
  | 3 => some 2
  | 4 => some 2
  | 5 => some 2
  | 6 => some 1
  | 7 => some 1
  | 8 => some 0
  | 9 => some 2
  | 10 => some 2
  | 11 => some 1
  | 12 => some 0
  | 13 => some 0
  | 14 => some 0
  | _ => none

/-- Whether an operand id stands for a literal word: 1 if so, else 0 (R102, R104). -/
def literalsOfId (id : Byte) : Nat := if id = 0 then 1 else 0

/-- How many literal words follow an instruction word; none for an illegal opcode. "The decoder tells the length from the
instruction word alone" (R105). -/
def literalWords (iw : Word) : Option Nat :=
  match operandCount (opcodeField iw) with
  | some 2 => some (literalsOfId (id1Field iw) + literalsOfId (id2Field iw))
  | some 1 => some (literalsOfId (id1Field iw))
  | some _ => some 0
  | none => none

/-! ## The decoder -/

/-- Why a list of bytes is no instruction. -/
inductive DecodeError
  /-- the bytes end before the instruction does -/
  | truncated
  /-- the opcode id is not within the 14-entry table (R111) -/
  | illegalOpcode (opc : Byte)
  deriving DecidableEq, Repr

/-- One operand: its literal word, taken from the bytes, if its id is zero, else the register id (R102, R104). -/
def takeOperand (id : Byte) (rest : List Byte) : Except DecodeError (Operand × List Byte) :=
  if id = 0 then
    match takeWord rest with
    | some (v, rest') => .ok (.lit v, rest')
    | none => .error .truncated
  else .ok (.reg id, rest)

/-- A two-operand instruction: operand 1's literal comes before operand 2's (R104). -/
def takeTwo (mk : Operand → Operand → Instr) (iw : Word) (rest : List Byte) :
    Except DecodeError (Instr × List Byte) :=
  match takeOperand (id1Field iw) rest with
  | .error e => .error e
  | .ok (a, rest1) =>
    match takeOperand (id2Field iw) rest1 with
    | .error e => .error e
    | .ok (b, rest2) => .ok (mk a b, rest2)

/-- A one-operand instruction; ID2 is ignored (R103). -/
def takeOne (mk : Operand → Instr) (iw : Word) (rest : List Byte) :
    Except DecodeError (Instr × List Byte) :=
  match takeOperand (id1Field iw) rest with
  | .error e => .error e
  | .ok (a, rest1) => .ok (mk a, rest1)

/-- Dispatch on the opcode id alone (R110, R111). -/
def decodeWord (iw : Word) (rest : List Byte) : Except DecodeError (Instr × List Byte) :=
  match (opcodeField iw).toNat with
  | 1 => takeTwo .cpr iw rest
  | 2 => takeTwo .cpl iw rest
  | 3 => takeTwo .cpf iw rest
  | 4 => takeTwo .cpx iw rest
  | 5 => takeTwo .cmp iw rest
  | 6 => takeOne .jmp iw rest
  | 7 => takeOne .call iw rest
  | 8 => .ok (.ret, rest)
  | 9 => takeTwo .arth iw rest
  | 10 => takeTwo .lgic iw rest
  | 11 => takeOne .intr iw rest
  | 12 => .ok (.rsv, rest)
  | 13 => .ok (.nop, rest)
  | 14 => .ok (.ltsk, rest)
  | _ => .error (.illegalOpcode (opcodeField iw))

/-- The instruction at the head of a list of bytes and the bytes after it (R101 to R105). -/
def decode (bytes : List Byte) : Except DecodeError (Instr × List Byte) :=
  match takeWord bytes with
  | none => .error .truncated
  | some (iw, rest) => decodeWord iw rest

/-! ## The encoder -/

/-- The opcode id of each instruction (R110). -/
def opcodeOf : Instr → Byte
  | .cpr _ _ => 1
  | .cpl _ _ => 2
  | .cpf _ _ => 3
  | .cpx _ _ => 4
  | .cmp _ _ => 5
  | .jmp _ => 6
  | .call _ => 7
  | .ret => 8
  | .arth _ _ => 9
  | .lgic _ _ => 10
  | .intr _ => 11
  | .rsv => 12
  | .nop => 13
  | .ltsk => 14

/-- The id byte of an operand: zero for a literal (R102). -/
def operandId : Operand → Byte
  | .reg id => id
  | .lit _ => 0

/-- The literal words of an operand (R104). -/
def operandLiterals : Operand → List Word
  | .reg _ => []
  | .lit v => [v]

/-- The id byte of the operand at an index of the operand list; an absent operand's field is written as 0 (R103). -/
def idAt (ops : List Operand) (j : Nat) : Byte := (ops[j]?.map operandId).getD 0

/-- The instruction word `{RSV, ID2, ID1, OPC}`, with RSV written as 0 (R101). -/
def instrWord (i : Instr) : Word :=
  joinBytes 0 (idAt i.operands 1) (idAt i.operands 0) (opcodeOf i)

/-- The words of an instruction: its instruction word, then operand 1's literal, then operand 2's (R101, R104). -/
def encode (i : Instr) : List Word := instrWord i :: i.operands.flatMap operandLiterals

/-- The bytes of an instruction in memory order (R64, R118). -/
def encodeBytes (i : Instr) : List Byte := (encode i).flatMap wordBytes

/-- How many of the operands are literals. -/
def countLiterals : List Operand → Nat
  | [] => 0
  | .reg _ :: rest => countLiterals rest
  | .lit _ :: rest => countLiterals rest + 1

/-- The encoded size in bytes of an instruction with these operands: 4, 8 or 12 (R105). -/
def encodedSize (ops : List Operand) : Word := BitVec.ofNat 32 (4 * (1 + countLiterals ops))

/-- The encoded size in bytes of an instruction (R105). -/
def Instr.size (i : Instr) : Word := encodedSize i.operands

/-! ## The table's words -/

/-- The three words of an instruction whose bits are `w`, numbered as spec/opcode_table.json numbers them: the first word
is the lowest 32 bits, and every bit from `nbits` up is 0. -/
def tableWords (nbits w : Nat) : List Word :=
  let v := w % 2 ^ nbits
  [BitVec.ofNat 32 v, BitVec.ofNat 32 (v / 2 ^ 32), BitVec.ofNat 32 (v / 2 ^ 64)]

/-- The instruction the decoder reads from an instruction whose bits are `w`, its words laid out big-endian. -/
def decodeTableWord (nbits w : Nat) : Option Instr :=
  match decode ((tableWords nbits w).flatMap wordBytes) with
  | .ok (i, _) => some i
  | .error _ => none

end Sys2Proof
end

