-- ==== Sys2Proof/Config.lean ====
section
/-!
DEFINITION. What an implementation fixes: the OPEN parameters of R6, held as plain data, and the values the spec leaves open,
as constants without a body (nothing can be proved of which value they are).
-/

namespace Sys2Proof

/-- The five operators of `arth` (R35: OPER 1 to 5). -/
inductive ArithOp
  | add | sub | mul | div | mod
  deriving DecidableEq, Repr

/-- Which configuration function `FPU_DOUBLE` (R171, U7) is. -/
inductive DoubleMode
  /-- R171's default: widen both operands from binary32, operate in binary64, round to nearest even -/
  | widen
  /-- another function of the operator and the two operand values, of which nothing else is assumed (R171) -/
  | implementation
  deriving DecidableEq, Repr

/-- The OPEN parameters of R6. -/
structure Config where
  /-- `RAM`, the size of memory in bytes -/
  ram : Nat
  /-- `IVT_ZONE_SIZE`, the size of the interrupt-vector reservation zone in bytes -/
  ivtZone : Nat
  /-- `BOOT_BASE`, the address of the boot image and reset value of RIP -/
  bootBase : Nat
  /-- `BOOT_SIZE`, the size of the boot image in bytes -/
  bootSize : Nat
  /-- `TIMER_POOL`, the number of timers that can be armed at once -/
  timerPool : Nat
  /-- `NDEV`, the number of storage devices -/
  ndev : Nat
  /-- `FPU_DOUBLE` (R171) -/
  double : DoubleMode
  deriving DecidableEq, Repr

/-- The defaults of R6, "the values every example in 95_test_vectors.md uses". -/
def Config.standard : Config where
  ram := 0x10000
  ivtZone := 0x400
  bootBase := 0x400
  bootSize := 0x200
  timerPool := 2
  ndev := 4
  double := .widen

/-- "Constraints a choice of the OPEN parameters must meet" (R6). -/
abbrev Config.legal (c : Config) : Prop :=
  c.ivtZone ≤ c.bootBase ∧ c.bootBase + c.bootSize ≤ c.ram ∧ c.ram ≤ 2 ^ 32 ∧
  c.ram % 4 = 0 ∧ c.ivtZone % 4 = 0 ∧ c.bootBase % 4 = 0 ∧ c.bootSize % 4 = 0

/-! ## Free values -/

/-- The value of a byte of memory, by physical address, that nothing has written (R47, U9). Log 2. -/
opaque Config.initialByte : Nat → Byte

/-- The contents of a storage device, by device and offset, where nothing has been written (U9). Log 10. -/
opaque Config.storageByte : Nat → Nat → Byte

/-- The sign and fraction of the n-th NaN result drawn (R170, U5). Log 6. -/
opaque Config.freeNan : Nat → Word

/-- The sign and fraction of a NaN result of the default `FPU_DOUBLE`, which depends on its three arguments only
(R171, U5). Log 7. -/
opaque Config.freeNanDouble : ArithOp → Word → Word → BitVec 64

/-- Another implementation's `FPU_DOUBLE`: "assume of it only that it depends on its three arguments" (R171, U7). Log 7. -/
opaque Config.fpuDouble : ArithOp → Word → Word → BitVec 64

end Sys2Proof
end

