-- ==== Sys2Proof/Machine/State.lean ====
section
/-!
DEFINITION. The state of the machine as plain data (10_state.md), the outcomes of a step, and the state after reset (R47).
-/

namespace Sys2Proof.Machine

/-- The 13 fault kinds, in the order of R221, which is the order of their RFF bits (R28). -/
inductive FaultKind
  | machineCheck | badMemory | badRegister | badRegisterValue | badOperandValue | illegalInterrupt
  | illegalInstruction | fpuFault | aluFault | noPage | pagePermission | noPrivilege | ioFault
  deriving DecidableEq, Repr

/-- The run state RUN (R45). -/
inductive Run
  | running
  | halted
  | terminated (kind : FaultKind)
  deriving DecidableEq, Repr

/-- Memory: the bytes that hold a known value, as (physical address, byte) pairs, addresses strictly rising (R40). A byte
that is not listed has never been written and has no known value (R47, U9): reading it gives `Config.initialByte`. -/
abbrev Memory := List Host.Cell

/-- The one canonical form of a memory: addresses strictly rising. -/
abbrev Memory.wf (m : Memory) : Prop := m.Pairwise fun a b => a.1 < b.1

/-- One slot of the interrupt vector table: "(privilege-flag, handler-address)"; installed iff the handler is not 0 (R41). -/
structure IvtSlot where
  priv : Bool
  handler : Word
  deriving DecidableEq, Repr

/-- A storage device: a byte array of `size` bytes, those with a known value listed as in `Memory` (R46, R264). -/
structure Device where
  size : Nat
  cells : List Host.Cell
  deriving DecidableEq, Repr

/-- A timer that is armed and has not fired (R46, R265). -/
structure Timer where
  id : Byte
  delay : Word
  deriving DecidableEq, Repr

/-- What an external agent does to the event queues (R7, R44). -/
inductive Event
  /-- the keyboard source appends a code to KBD -/
  | key (code : Word)
  /-- the n-th of the armed timers fires: its id is appended to TMR and the timer is free again (R205); nothing if there is
  no such timer -/
  | fire (n : Nat)
  deriving DecidableEq, Repr

/-- The events of one step: those in the queues before its instruction executes, and those that arrive between the
instruction and the poll (R7, R8; log 8). -/
structure Arrivals where
  before : List Event
  beforePoll : List Event
  deriving DecidableEq, Repr

/-- The state of the machine. -/
structure State where
  /-- the OPEN parameters of R6, which no step changes (the model's own field, log 1) -/
  cfg : Config
  /-- the 28 registers, indexed in the order of R20 -/
  regs : Vector Word 28
  /-- memory (R40) -/
  mem : Memory
  /-- the interrupt vector table, slot v at index v - 1 (R41) -/
  ivt : Vector IvtSlot 127
  /-- the latch FLT_ADDR (R42) -/
  fltAddr : Word
  /-- the latch FLT_PERM (R42) -/
  fltPerm : BitVec 3
  /-- KBD, the keyboard codes pending, oldest first (R44) -/
  kbd : List Word
  /-- TMR, the timer ids pending, oldest first (R44) -/
  tmr : List Byte
  /-- RUN (R45) -/
  run : Run
  /-- the host's storage devices (R46) -/
  storage : List Device
  /-- the bytes sent to the display sink, oldest first (R46) -/
  display : List Byte
  /-- the timers armed and not yet fired (R46) -/
  armed : List Timer
  /-- how many NaN results have been drawn (the model's own field, log 6) -/
  draws : Nat
  /-- the external events still to come, one entry a step (the model's own field, log 8) -/
  arrivals : List Arrivals
  /-- the host's own answer to each storage transfer still to come, true for an error (the model's own field, log 9) -/
  storageErrors : List Bool
  /-- the host's own answer to each timer request still to come, true for a refusal (the model's own field, log 9) -/
  timerRefusals : List Bool
  deriving DecidableEq, Repr

/-- Where the machine stops without a next state. The 13 fault kinds of R221 are no such stops: they are taken. -/
inductive Fault
  /-- raised by the page walk: the page list has a cycle and no descriptor in it matches, so the step never completes
  (R76, R282, U11: `stuck`). Safe: the machine makes no further state either. Log 5. -/
  | pageWalkHang
  deriving DecidableEq, Repr

/-- Why an instruction has no meaning. -/
inductive Refusal
  /-- raised by `exec` for an instruction the model gives no meaning yet. Safe: no state follows. -/
  | notModelled (mnemonic : String)
  deriving DecidableEq, Repr

/-- What a step answers. -/
abbrev Result := Host.Outcome State Fault Refusal

/-- Why an operation stops before it completes. -/
inductive Trap
  /-- `raise Fault(kind)` (R12), with the state at that point -/
  | raise (kind : FaultKind) (s : State)
  /-- the page walk never ends (R282) -/
  | hang
  deriving DecidableEq, Repr

/-- The value of an operation, or why it stopped. -/
abbrev Check := Except Trap

/-- A storage device as reset leaves it: 0x1000 bytes of unknown contents (DESIGN CHOICE: the size is the host's, D35;
log 10). -/
def Device.fresh : Device := ⟨0x1000, []⟩

/-- Every piece of state after machine start (R47), for a choice of the OPEN parameters. The boot image is the host's, which
writes it before the first step (R271): `State.start` is this state with an image loaded. Log 3. -/
def State.resetWith (c : Config) : State where
  cfg := c
  regs := (Vector.replicate 28 0).set 0 (BitVec.ofNat 32 c.bootBase)
  mem := []
  ivt := Vector.replicate 127 ⟨false, 0⟩
  fltAddr := 0
  fltPerm := 0
  kbd := []
  tmr := []
  run := .running
  storage := List.replicate c.ndev Device.fresh
  display := []
  armed := []
  draws := 0
  arrivals := []
  storageErrors := []
  timerRefusals := []

/-- The machine right after reset (R47, R270), with the defaults of R6 and before the host's load of R271. -/
def State.reset : State := State.resetWith Config.standard

end Sys2Proof.Machine
end

