-- ==== Sys2Proof/Machine/Ops.lean ====
section
/-!
DEFINITION. The named operations over registers and memory: the accessors, the zone check, paging, the task switch, taking a
fault, entering a handler and returning from one (10_state.md, 20_memory.md, 60_exceptions.md).
-/

namespace Sys2Proof

/-- The index of a register in the layout of R20. -/
def Reg.index : Reg → Fin 28
  | .rip => 0 | .rst => 1 | .rff => 2 | .rfa => 3 | .rbt => 4 | .rct => 5 | .rpa => 6 | .rra => 7
  | .rsa => 8 | .rcmp => 9 | .rlgic => 10 | .rarth => 11
  | .rgp1 => 12 | .rgp2 => 13 | .rgp3 => 14 | .rgp4 => 15 | .rgp5 => 16 | .rgp6 => 17 | .rgp7 => 18 | .rgp8 => 19
  | .rae1 => 20 | .rae2 => 21 | .rae3 => 22 | .rae4 => 23
  | .rfp1 => 24 | .rfp2 => 25 | .rfp3 => 26 | .rfp4 => 27

/-- The byte offset of a register in the layout, which is its id (R20). -/
def Reg.offset (r : Reg) : Nat := 4 * r.index.val

/-- All 28 registers in the order of R20. -/
def Reg.all : List Reg :=
  [.rip, .rst, .rff, .rfa, .rbt, .rct, .rpa, .rra, .rsa, .rcmp, .rlgic, .rarth,
   .rgp1, .rgp2, .rgp3, .rgp4, .rgp5, .rgp6, .rgp7, .rgp8, .rae1, .rae2, .rae3, .rae4, .rfp1, .rfp2, .rfp3, .rfp4]

/-- The base set: the 9 registers that `save_base` and `load_base` copy (R14, R242). -/
def Reg.baseSet : List Reg := [.rst, .rfa, .rbt, .rpa, .rra, .rsa, .rcmp, .rlgic, .rarth]

namespace Machine

/-! ## Registers -/

/-- `x[r]` (R12). -/
def State.get (s : State) (r : Reg) : Word := s.regs.get r.index

/-- `x[r] <- v` (R12). -/
def State.set (s : State) (r : Reg) (v : Word) : State :=
  { s with regs := s.regs.set r.index.val v r.index.isLt }

/-- `RST.PL`: true at the lowered level (R27, R246). -/
def State.lowered (s : State) : Bool := (s.get .rst).getLsbD 0

/-- `RST.PG`: paging enabled (R27). -/
def State.paging (s : State) : Bool := (s.get .rst).getLsbD 1

/-- `RST.FH`: fault handling enabled (R27). -/
def State.faultHandling (s : State) : Bool := (s.get .rst).getLsbD 2

/-- `RST.TR`: task registers enabled (R27). -/
def State.taskRegs (s : State) : Bool := (s.get .rst).getLsbD 3

/-! ## Memory as data -/

/-- The known value of the byte at an address, if it has one. -/
def Memory.find : Memory → Nat → Option Byte
  | [], _ => none
  | c :: rest, a => if c.1 = a then some c.2 else Memory.find rest a

/-- Bytes at consecutive addresses. -/
def cellsFrom : Nat → List Byte → Memory
  | _, [] => []
  | a, b :: rest => (a, b) :: cellsFrom (a + 1) rest

/-- Memory after the bytes are stored at the address and up; the rest is as it was. -/
def Memory.store (m : Memory) (a : Nat) (bytes : List Byte) : Memory :=
  m.filter (fun c => decide (c.1 < a)) ++ cellsFrom a bytes ++
    m.filter (fun c => decide (a + bytes.length ≤ c.1))

/-- The byte at a physical address: the last one written, or the byte's unknown initial value (R47, R80). -/
def State.byteAt (s : State) (a : Nat) : Byte := (s.mem.find a).getD (Config.initialByte a)

/-- The word at a physical address, big-endian (R64, R66). -/
def State.wordAt (s : State) (a : Nat) : Word :=
  joinBytes (s.byteAt a) (s.byteAt (a + 1)) (s.byteAt (a + 2)) (s.byteAt (a + 3))

/-- The `n` bytes from a physical address up. -/
def State.bytesAt (s : State) (a n : Nat) : List Byte := (List.range n).map fun k => s.byteAt (a + k)

/-- The state after the bytes are stored at a physical address. -/
def State.storeBytes (s : State) (a : Nat) (bytes : List Byte) : State :=
  { s with mem := s.mem.store a bytes }

/-- The state after a word is stored at a physical address, big-endian (R64, R67). -/
def State.storeWord (s : State) (a : Nat) (v : Word) : State := s.storeBytes a (wordBytes v)

/-! ## Checks -/

/-- `raise Fault(k)` at this state (R12). -/
def raise {α : Type} (k : FaultKind) (s : State) : Check α := .error (.raise k s)

/-- A check that raises `k` if it fails. -/
def ensure (b : Bool) (k : FaultKind) (s : State) : Check Unit := if b then .ok () else raise k s

/-- `InZone(p, n)`: the access lies in the normal zone; in unbounded integers (R62). -/
def inZone (c : Config) (p n : Nat) : Bool := decide (c.ivtZone ≤ p ∧ p + n ≤ c.ram)

/-! ## Paging -/

/-- `PERM_R` (R74). -/
def permR : BitVec 3 := 1

/-- `PERM_W` (R74). -/
def permW : BitVec 3 := 2

/-- `PERM_X` (R74). -/
def permX : BitVec 3 := 4

/-- A page descriptor, without its PREV field, which the hardware never reads (R73). -/
structure PageDesc where
  laddr : Word
  paddr : Word
  size : Word
  flags : Word
  next : Word
  deriving DecidableEq, Repr

/-- The descriptor at a physical address (R73). -/
def readDesc (s : State) (d : Nat) : PageDesc where
  laddr := s.wordAt d
  paddr := s.wordAt (d + 4)
  size := s.wordAt (d + 8)
  flags := s.wordAt (d + 12)
  next := s.wordAt (d + 16)

/-- Whether a logical address is in a descriptor's range, both ends included, in unbounded integers (R73, R76). -/
def PageDesc.covers (e : PageDesc) (a : Word) : Bool :=
  decide (e.laddr.toNat ≤ a.toNat ∧ a.toNat ≤ e.laddr.toNat + e.size.toNat)

/-- The requested permission bits are a subset of the descriptor's flags (R74, R76). -/
def PageDesc.allows (e : PageDesc) (perm : BitVec 3) : Bool := perm &&& ~~~(e.flags.extractLsb' 0 3) == 0

/-- The walk of R76 from the descriptor at `d`, over at most `n` descriptors; with the bound of `translate` it is hit by a
list with a cycle only, and is reported as a hang and not as NoPage (R282). Log 5. -/
def walk (s : State) (a : Word) (perm : BitVec 3) : Nat → Word → Check Word
  | 0, _ => .error .hang
  | n + 1, d =>
    if d = 0 then raise .noPage { s with fltAddr := a }
    else if inZone s.cfg d.toNat 24 then
      let e := readDesc s d.toNat
      if e.covers a then
        if e.allows perm then .ok (e.paddr + (a - e.laddr))
        else raise .pagePermission { s with fltAddr := a, fltPerm := perm }
      else walk s a perm n e.next
    else raise .badMemory s

/-- How many descriptors a walk may visit before it must have come back to one: more than there are addresses of
descriptors in the normal zone. -/
def walkBound (c : Config) : Nat := c.ram + 1

/-- `Translate(a, perm)` (R76): the physical address of a logical one. -/
def translate (s : State) (a : Word) (perm : BitVec 3) : Check Word :=
  if s.paging then walk s a perm (walkBound s.cfg) (s.get .rpa) else .ok a

/-- The physical address of a data access of one word: translated once, then zone-checked (R68, R69, R108 check 8). -/
def dataAddr (s : State) (a : Word) (perm : BitVec 3) : Check Nat :=
  match translate s a perm with
  | .error t => .error t
  | .ok p => if inZone s.cfg p.toNat 4 then .ok p.toNat else raise .badMemory s

/-! ## The task switch -/

/-- `TaskAddr(ptr)` (R240): a task pointer that does not resolve is a MachineCheck. What the walk left in the latches
stays (log 12). -/
def taskAddr (s : State) (ptr : Word) : Check Nat :=
  match translate s ptr 0 with
  | .error (.raise _ s') => raise .machineCheck s'
  | .error .hang => .error .hang
  | .ok p => if inZone s.cfg p.toNat 112 then .ok p.toNat else raise .machineCheck s

/-- Each register's word is stored at its offset in the task structure at `p` (R240). -/
def saveRegs (rs : List Reg) (p : Nat) (s : State) : State :=
  rs.foldl (fun t r => t.storeWord (p + r.offset) (s.get r)) s

/-- Each register is loaded from its offset in the task structure at `p`; every word is read from the memory before the
load (R240, R244). -/
def loadRegs (rs : List Reg) (p : Nat) (s : State) : State :=
  rs.foldl (fun t r => t.set r (s.wordAt (p + r.offset))) s

/-- `save_current()` (R241). -/
def saveCurrent (s : State) : Check State :=
  match taskAddr s (s.get .rct) with
  | .error t => .error t
  | .ok p => .ok (saveRegs Reg.all p s)

/-- `save_base()` (R242). -/
def saveBase (s : State) : Check State :=
  match taskAddr s (s.get .rbt) with
  | .error t => .error t
  | .ok p => .ok (saveRegs Reg.baseSet p s)

/-- `load_base()` (R243): a base task at the lowered level is a MachineCheck, with the 9 registers loaded (R223). -/
def loadBase (s : State) : Check State :=
  match taskAddr s (s.get .rbt) with
  | .error t => .error t
  | .ok p =>
    let t := loadRegs Reg.baseSet p s
    if t.lowered then raise .machineCheck t else .ok t

/-- `load_current()` (R244). -/
def loadCurrent (s : State) : Check State :=
  match taskAddr s (s.get .rct) with
  | .error t => .error t
  | .ok p => .ok (loadRegs Reg.all p s)

/-- The context switch at the entry to a trap: `save_current` then `load_base` if task registers are enabled, else nothing
(R222 (a), R233, R245). -/
def trapSwitch (s : State) : Check State :=
  if s.taskRegs then
    match saveCurrent s with
    | .error t => .error t
    | .ok t => loadBase t
  else .ok s

/-- The return from a trap that switched tasks: `save_base` then `load_current` (R212, R245). -/
def trapReturn (s : State) : Check State :=
  match saveBase s with
  | .error t => .error t
  | .ok t => loadCurrent t

/-! ## Taking a fault -/

/-- The code of a fault kind, which is its bit number in RFF (R28, R221). -/
def FaultKind.code : FaultKind → Nat
  | .machineCheck => 0
  | .badMemory => 1
  | .badRegister => 2
  | .badRegisterValue => 3
  | .badOperandValue => 4
  | .illegalInterrupt => 5
  | .illegalInstruction => 6
  | .fpuFault => 7
  | .aluFault => 8
  | .noPage => 9
  | .pagePermission => 10
  | .noPrivilege => 11
  | .ioFault => 12

/-- The mask of a fault kind in RFF (R28). -/
def FaultKind.mask (k : FaultKind) : Word := BitVec.twoPow 32 k.code

/-- `RFF <- RFF or (1 << code(K))` (R222 (b)). -/
def State.flagFault (s : State) (k : FaultKind) : State := s.set .rff (s.get .rff ||| k.mask)

/-- `RUN <- Terminated(K)` (R225). -/
def State.terminate (s : State) (k : FaultKind) : State := { s with run := .terminated k }

/-- `Fault(MachineCheck)` (R223): unconditional, always terminates. -/
def machineCheck (s : State) : State := (s.flagFault .machineCheck).terminate .machineCheck

/-- Steps (c) and (d) of the fault controller: the handler, or termination (R222). -/
def redirect (k : FaultKind) (s : State) : State :=
  if s.faultHandling then s.set .rip (s.get .rfa) else s.terminate k

/-- The fault controller, `Fault(K)` (R222, R223): the one operation by which every fault is taken. -/
def takeFault (k : FaultKind) (s : State) : Result :=
  if k = .machineCheck then .next (machineCheck s)
  else
    match trapSwitch s with
    | .ok t => .next (redirect k (t.flagFault k))
    | .error (.raise _ t) => .next (machineCheck t)
    | .error .hang => .fault .pageWalkHang

/-- What an instruction answers: its next state, or the state after the fault it raised was taken (R10, R222). -/
def settle (c : Check State) : Result :=
  match c with
  | .ok s => .next s
  | .error (.raise k s) => takeFault k s
  | .error .hang => .fault .pageWalkHang

/-! ## Interrupts -/

/-- The slot of vector `v`; a number outside 1 to 127 has no slot and reads as not installed (R41). -/
def State.slot (s : State) (v : Nat) : IvtSlot :=
  if h : 1 ≤ v ∧ v ≤ 127 then s.ivt[v - 1]'(by omega) else ⟨false, 0⟩

/-- The table with a slot replaced; nothing for a number outside 1 to 127 (R41). -/
def State.setSlot (s : State) (v : Nat) (e : IvtSlot) : State :=
  if h : 1 ≤ v ∧ v ≤ 127 then { s with ivt := s.ivt.set (v - 1) e (by omega) } else s

/-- `Enter(h)` (R233). -/
def enter (h : Word) (s : State) : Check State :=
  match trapSwitch s with
  | .error t => .error t
  | .ok t => .ok (t.set .rip h)

/-- `Deliver(v, c)` (R251): the code goes to RGP1 whether or not a handler is installed. -/
def deliver (v : Nat) (c : Word) (s : State) : Check State :=
  let t := s.set .rgp1 c
  if (t.slot v).handler = 0 then .ok t else enter (t.slot v).handler t

/-- `DispatchVectored(v)`, with `next` the address after the `intr` (R230). -/
def dispatchVectored (v : Word) (next : Word) (s : State) : Check State :=
  if (s.slot v.toNat).handler = 0 then raise .illegalInterrupt s
  else if s.lowered && !(s.slot v.toNat).priv then raise .noPrivilege s
  else enter (s.slot v.toNat).handler (s.set .rip next)

end Machine

end Sys2Proof
end

