-- ==== Sys2Proof/Machine/Boot.lean ====
section
/-!
DEFINITION. The boot contract (R271): what the host writes to memory before the first step.
-/

namespace Sys2Proof.Machine

/-- The host's load: the bytes of a boot image at `BOOT_BASE` and up (R271). -/
def loadImage (image : List Byte) (s : State) : State := s.storeBytes s.cfg.bootBase image

/-- The machine as the first step finds it: after machine start (R47), with the `BOOT_SIZE` bytes of the boot image that the
host loaded at `BOOT_BASE` to `BOOT_BASE + BOOT_SIZE - 1` (R47, R271). Log 3. -/
def State.start (c : Config) (image : Vector Byte c.bootSize) : State := loadImage image.toList (State.resetWith c)

end Sys2Proof.Machine
end

