-- ==== Sys2Proof/Machine/Operands.lean ====
section
/-!
DEFINITION. Operands: register decode, the privilege gate, operand values and destinations (R21, R23, R106, R113), and the
fields of the mode registers RARTH and RLGIC (R34, R35, R151, R152, R180).
-/

namespace Sys2Proof

/-- The register at an index of R20's layout. -/
def Reg.ofIndex : Nat → Option Reg
  | 0 => some .rip | 1 => some .rst | 2 => some .rff | 3 => some .rfa
  | 4 => some .rbt | 5 => some .rct | 6 => some .rpa | 7 => some .rra
  | 8 => some .rsa | 9 => some .rcmp | 10 => some .rlgic | 11 => some .rarth
  | 12 => some .rgp1 | 13 => some .rgp2 | 14 => some .rgp3 | 15 => some .rgp4
  | 16 => some .rgp5 | 17 => some .rgp6 | 18 => some .rgp7 | 19 => some .rgp8
  | 20 => some .rae1 | 21 => some .rae2 | 22 => some .rae3 | 23 => some .rae4
  | 24 => some .rfp1 | 25 => some .rfp2 | 26 => some .rfp3 | 27 => some .rfp4
  | _ => none

/-- `is_floating(id)` of a register: true for RFP1 to RFP4; no instruction consults it (R24). -/
def Reg.isFloating : Reg → Bool
  | .rfp1 | .rfp2 | .rfp3 | .rfp4 => true
  | _ => false

namespace Machine

/-! ## Register operands -/

/-- `decode(id)` (R21): the register with that id; none if the id is misaligned or out of range. An id of 0 marks a literal
and never names RIP (R22). -/
def decodeReg (id : Byte) : Option Reg :=
  if id = 0 then none
  else if id.toNat % 4 = 0 then Reg.ofIndex (id.toNat / 4) else none

/-- `decode(id)` as a check: BadRegister (R21, R108 check 5). -/
def regOf (s : State) (id : Byte) : Check Reg :=
  match decodeReg id with
  | some r => .ok r
  | none => raise .badRegister s

/-- `can_write(level, id)` (R23): at the lowered level, only RSA and the registers after it. -/
def canWrite (lowered : Bool) (r : Reg) : Bool := !lowered || decide (Reg.offset .rsa ≤ r.offset)

/-- A destination register operand: BadRegister, then NoPrivilege (R108 checks 5 and 6). -/
def destOf (s : State) (id : Byte) : Check Reg :=
  match regOf s id with
  | .error t => .error t
  | .ok r => if canWrite s.lowered r then .ok r else raise .noPrivilege s

/-- The id of an operand that must be of kind Reg: BadOperandValue (R113). -/
def needReg (s : State) (op : Operand) : Check Byte :=
  match op with
  | .reg id => .ok id
  | .lit _ => raise .badOperandValue s

/-- The literal of an operand that must be of kind Lit: BadOperandValue (R113). -/
def needLit (s : State) (op : Operand) : Check Word :=
  match op with
  | .lit v => .ok v
  | .reg _ => raise .badOperandValue s

/-- `val(j)` (R106): the literal, or the register's value after `decode`. -/
def valueOf (s : State) (op : Operand) : Check Word :=
  match op with
  | .lit v => .ok v
  | .reg id =>
    match regOf s id with
    | .error t => .error t
    | .ok r => .ok (s.get r)

/-- `next` (R12): the address of the instruction after one with these operands. -/
def nextAddr (s : State) (ops : List Operand) : Word := s.get .rip + encodedSize ops

/-! ## The arithmetic mode register -/

/-- The operating widths of RARTH and RLGIC (R34, R35). -/
inductive Width
  | w8 | w16 | w32 | w64
  deriving DecidableEq, Repr

/-- The number of bits of a width. -/
def Width.bits : Width → Nat
  | .w8 => 8
  | .w16 => 16
  | .w32 => 32
  | .w64 => 64

/-- The WIDTH field (R34, R35). -/
def widthOf (f : BitVec 2) : Width :=
  match f.toNat with
  | 0 => .w8
  | 1 => .w16
  | 2 => .w32
  | _ => .w64

/-- The twelve types of R152. -/
inductive ArithType
  | int (w : Width) (signed : Bool)
  | slong
  | ulong
  | f32
  | f64
  deriving DecidableEq, Repr

/-- What RARTH selects (R151): the operator, the type, and the extension register's number 1 to 4, if any. -/
structure ArithMode where
  op : ArithOp
  type : ArithType
  ext : Option Nat
  deriving DecidableEq, Repr

/-- The OPER field of RARTH; none for 0, 6 and 7 (R35). -/
def operOf (m : Word) : Option ArithOp :=
  match (m.extractLsb' 0 3).toNat with
  | 1 => some .add
  | 2 => some .sub
  | 3 => some .mul
  | 4 => some .div
  | 5 => some .mod
  | _ => none

/-- The EXT field of RARTH: no bit set selects none, one bit its register; none for more than one bit (R35, R151). -/
def extOf (m : Word) : Option (Option Nat) :=
  match (m.extractLsb' 8 4).toNat with
  | 0 => some none
  | 1 => some (some 1)
  | 2 => some (some 2)
  | 4 => some (some 3)
  | 8 => some (some 4)
  | _ => none

/-- The type RARTH selects; none for FLOAT with LONG and for FLOAT with WIDTH 0 or 1 (R35, R151). -/
def typeOf (m : Word) : Option ArithType :=
  let w := widthOf (m.extractLsb' 3 2)
  let signed := m.getLsbD 5
  let long := m.getLsbD 6
  if m.getLsbD 7 then
    if long then none
    else
      match w with
      | .w32 => some .f32
      | .w64 => some .f64
      | _ => none
  else if long then some (if signed then .slong else .ulong)
  else some (.int w signed)

/-- Whether a type is floating point. -/
def ArithType.isFloat : ArithType → Bool
  | .f32 | .f64 => true
  | _ => false

/-- `ArithMode(M)` (R151); none is BadRegisterValue. Floating modulo is invalid (R173). -/
def arithMode (m : Word) : Option ArithMode :=
  match operOf m, extOf m, typeOf m with
  | some op, some ext, some type => if type.isFloat && op == .mod then none else some ⟨op, type, ext⟩
  | _, _, _ => none

/-! ## The logic mode register -/

/-- The seven operations of R181. -/
inductive LogicOp
  | xor | and | or | shl | shr | rol | ror
  deriving DecidableEq, Repr

/-- What RLGIC selects (R180): an operation, if any besides NOT, whether NOT is set, and the width. -/
structure LogicMode where
  op : Option LogicOp
  not : Bool
  width : Width
  deriving DecidableEq, Repr

/-- The operation bits 7:1 of RLGIC: none set, exactly one set, or (none) more than one (R34, R180). -/
def otherOf (g : Word) : Option (Option LogicOp) :=
  match (g.extractLsb' 1 7).toNat with
  | 0 => some none
  | 1 => some (some .xor)
  | 2 => some (some .and)
  | 4 => some (some .or)
  | 8 => some (some .shl)
  | 16 => some (some .shr)
  | 32 => some (some .rol)
  | 64 => some (some .ror)
  | _ => none

/-- The mode `lgic` reads; none is BadRegisterValue (R180). -/
def logicMode (g : Word) : Option LogicMode :=
  match otherOf g with
  | none => none
  | some op => if op.isNone && !g.getLsbD 0 then none else some ⟨op, g.getLsbD 0, widthOf (g.extractLsb' 8 2)⟩

end Machine

end Sys2Proof
end

