-- ==== Sys2Proof/Machine/Flags.lean ====
section
/-!
DEFINITION. The machine's three flags and no more (R36): RCMP.RES, RARTH.OF and RARTH.UF.
-/

namespace Sys2Proof.Machine

/-- The six relations of R142. -/
inductive Relation
  | eq | ne | lt | gt | le | ge
  deriving DecidableEq, Repr

/-- `RCMP.MODE`; none for 0 and 7 (R33). -/
def relationOf (rcmp : Word) : Option Relation :=
  match (rcmp.extractLsb' 0 3).toNat with
  | 1 => some .eq
  | 2 => some .ne
  | 3 => some .lt
  | 4 => some .gt
  | 5 => some .le
  | 6 => some .ge
  | _ => none

/-- `Rel(m, a, b)`, operand 1 on the left, unsigned (R142). -/
def Relation.holds (m : Relation) (a b : Word) : Bool :=
  match m with
  | .eq => decide (a.toNat = b.toNat)
  | .ne => decide (a.toNat ≠ b.toNat)
  | .lt => decide (a.toNat < b.toNat)
  | .gt => decide (b.toNat < a.toNat)
  | .le => decide (a.toNat ≤ b.toNat)
  | .ge => decide (b.toNat ≤ a.toNat)

/-- A word with one bit replaced and all others kept. -/
def withBit (v : Word) (i : Nat) (b : Bool) : Word :=
  if b then v ||| BitVec.twoPow 32 i else v &&& ~~~(BitVec.twoPow 32 i)

/-- `RCMP.RES` (R33). -/
def State.res (s : State) : Bool := (s.get .rcmp).getLsbD 8

/-- `RCMP.RES <- r`, all other bits unchanged (R141). -/
def State.setRes (s : State) (r : Bool) : State := s.set .rcmp (withBit (s.get .rcmp) 8 r)

/-- `RARTH.OF` (R35). -/
def State.overflow (s : State) : Bool := (s.get .rarth).getLsbD 16

/-- `RARTH.UF` (R35). -/
def State.underflow (s : State) : Bool := (s.get .rarth).getLsbD 17

/-- OF and UF written together, all other bits of RARTH unchanged (R36, R158). -/
def State.setFlags (s : State) (of uf : Bool) : State :=
  s.set .rarth (withBit (withBit (s.get .rarth) 16 of) 17 uf)

/-- The width and signedness an integer type works in; `slong` is s32 and `ulong` u32 (R152, R162). -/
structure IntShape where
  bits : Nat
  signed : Bool
  deriving DecidableEq, Repr

/-- `max(T)` (R152). -/
def IntShape.max (t : IntShape) : Int := if t.signed then 2 ^ (t.bits - 1) - 1 else 2 ^ t.bits - 1

/-- `min(T)` (R152). -/
def IntShape.min (t : IntShape) : Int := if t.signed then -(2 ^ (t.bits - 1)) else 0

/-- OF: the exact result is above the type's maximum (R158). -/
def IntShape.overflows (t : IntShape) (r : Int) : Bool := decide (t.max < r)

/-- UF: the exact result is below the type's minimum (R158). -/
def IntShape.underflows (t : IntShape) (r : Int) : Bool := decide (r < t.min)

end Sys2Proof.Machine
end

