-- ==== Sys2Proof/Machine/Alu.lean ====
section
/-!
DEFINITION. The integer ALU: operand conversion, the five operators, extension capture (R153 to R162).
-/

namespace Sys2Proof.Machine

/-- `ToT(T, v)`: a 32-bit value as an exact integer of the type (R153). A narrow type reads the low bits; a 64-bit type
widens the value, with its sign if the type is signed. -/
def IntShape.read (t : IntShape) (v : Word) : Int :=
  if t.signed then (v.signExtend t.bits).toInt else ((v.setWidth t.bits).toNat : Int)

/-- `FromT(T, r mod 2^n)`: the truncated result as a 32-bit value (R153). A narrow result is extended, with its sign if the
type is signed; of a 64-bit result the low 32 bits are kept. -/
def IntShape.write (t : IntShape) (r : Int) : Word :=
  if t.signed then (BitVec.ofInt t.bits r).signExtend 32 else (BitVec.ofInt t.bits r).setWidth 32

/-- The exact result of add, sub and mul, the destination on the left (R154 to R157). -/
def exactResult (op : ArithOp) (d a : Int) : Int :=
  match op with
  | .add => d + a
  | .sub => d - a
  | .mul => d * a
  | .div => d.tdiv a
  | .mod => d.tmod a

/-- RAE1 to RAE4 by number (R35). -/
def extReg (i : Nat) : Reg :=
  match i with
  | 1 => .rae1
  | 2 => .rae2
  | 3 => .rae3
  | _ => .rae4

/-- `AluOp` for add, sub and mul without extension capture (R154): the result, then the flags. -/
def aluPlain (op : ArithOp) (t : IntShape) (a d : Word) (rd : Reg) (s : State) : State :=
  let r := exactResult op (t.read d) (t.read a)
  (s.set rd (t.write r)).setFlags (t.overflows r) (t.underflows r)

/-- `AluOp` for add, sub and mul of `ulong` with extension register `i` (R160): the low half of the double-width result,
then the upper half, then both flags cleared. -/
def aluExtended (op : ArithOp) (i : Nat) (a d : Word) (rd : Reg) (s : State) : State :=
  let w := BitVec.ofInt 64 (exactResult op (d.toNat : Int) (a.toNat : Int))
  (((s.set rd (w.extractLsb' 0 32)).set (extReg i) (w.extractLsb' 32 32))).setFlags false false

/-- `AluOp` for div and mod (R159): a zero divisor is AluFault; the quotient truncates toward zero and the remainder has the
sign of the dividend; the flags are not changed. -/
def aluDivide (op : ArithOp) (t : IntShape) (a d : Word) (rd : Reg) (s : State) : Check State :=
  if t.read a = 0 then raise .aluFault s
  else .ok (s.set rd (t.write (exactResult op (t.read d) (t.read a))))

/-- The shape an integer type of R152 works in; the floating-point types have none. -/
def ArithType.shape : ArithType → Option IntShape
  | .int w signed => some ⟨w.bits, signed⟩
  | .slong => some ⟨32, true⟩
  | .ulong => some ⟨32, false⟩
  | .f32 => none
  | .f64 => none

/-- Which extension register captures the upper half: `ulong` only, and only for add, sub and mul (R160, R162). -/
def captureReg (m : ArithMode) : Option Nat := if m.type = .ulong then m.ext else none

/-- `AluOp` (R154, R159, R160). -/
def aluOp (m : ArithMode) (t : IntShape) (a d : Word) (rd : Reg) (s : State) : Check State :=
  match m.op with
  | .div => aluDivide .div t a d rd s
  | .mod => aluDivide .mod t a d rd s
  | op =>
    match captureReg m with
    | some i => .ok (aluExtended op i a d rd s)
    | none => .ok (aluPlain op t a d rd s)

end Sys2Proof.Machine
end

