-- ==== Sys2Proof/Machine/Fpu.lean ====
section
/-!
DEFINITION. The FPU (R170 to R173): IEEE 754 arithmetic computed exactly and rounded once, to nearest, ties to even.
-/

namespace Sys2Proof.Machine

/-- A binary interchange format: `prec` bits of significand, the hidden one included, and `expBits` of exponent. -/
structure FloatFormat where
  prec : Nat
  expBits : Nat
  deriving DecidableEq, Repr

/-- binary32: sign bit 31, exponent 30:23, fraction 22:0 (R170, G3). -/
def binary32 : FloatFormat := ⟨24, 8⟩

/-- binary64: sign bit 63, exponent 62:52, fraction 51:0 (R171, G3). -/
def binary64 : FloatFormat := ⟨53, 11⟩

/-- The exponent of the last place of the subnormal numbers: 2^minExp is the smallest positive number. -/
def FloatFormat.minExp (f : FloatFormat) : Int := 3 - 2 ^ (f.expBits - 1) - f.prec

/-- The pattern of +infinity: exponent all ones, fraction 0. -/
def FloatFormat.infinity (f : FloatFormat) : Nat := (2 ^ f.expBits - 1) * 2 ^ (f.prec - 1)

/-- The weight of the sign bit. -/
def FloatFormat.signWeight (f : FloatFormat) : Nat := 2 ^ (f.expBits + f.prec - 1)

/-- The value of a floating-point pattern. -/
inductive FloatValue
  | nan
  | infinite (neg : Bool)
  /-- the number `mant * 2^exp`, negated if `neg`; zero keeps its sign -/
  | finite (neg : Bool) (mant : Nat) (exp : Int)
  deriving DecidableEq, Repr

/-- What a format's pattern stands for (R170: subnormals are numbers, no flush to zero). -/
def FloatFormat.decode (f : FloatFormat) (bits : Nat) : FloatValue :=
  let frac := bits % 2 ^ (f.prec - 1)
  let expo := bits / 2 ^ (f.prec - 1) % 2 ^ f.expBits
  let neg := decide (bits / f.signWeight % 2 = 1)
  if expo = 2 ^ f.expBits - 1 then (if frac = 0 then .infinite neg else .nan)
  else if expo = 0 then .finite neg frac f.minExp
  else .finite neg (2 ^ (f.prec - 1) + frac) (f.minExp + (expo - 1))

/-- `2^e` as a natural number, 1 for a negative `e`. -/
def twoPowPos (e : Int) : Nat := 2 ^ e.toNat

/-- Whether `num / den >= 2^e`, for a positive `den`. -/
def atLeastTwoPow (num den : Nat) (e : Int) : Bool :=
  decide (den * twoPowPos e ≤ num * twoPowPos (-e))

/-- The exponent of the leading bit of the positive number `num / den`. -/
def leadingExp (num den : Nat) : Int :=
  let e : Int := (num.log2 : Int) - (den.log2 : Int)
  if atLeastTwoPow num den e then e else e - 1

/-- `num / den` rounded to an integer, to nearest, ties to even (R170). -/
def roundHalfEven (num den : Nat) : Nat :=
  let q := num / den
  let r := num % den
  if 2 * r < den then q
  else if den < 2 * r then q + 1
  else q + q % 2

/-- The magnitude pattern of the positive number `num / den * 2^e`, rounded to the format; a result too large for the
format is an infinity (R170). -/
def FloatFormat.roundMagnitude (f : FloatFormat) (num den : Nat) (e : Int) : Nat :=
  let last := max f.minExp (leadingExp num den + e - (f.prec - 1))
  let m := roundHalfEven (num * twoPowPos (e - last)) (den * twoPowPos (last - e))
  min f.infinity ((last - f.minExp).toNat * 2 ^ (f.prec - 1) + m)

/-- A magnitude pattern with its sign. -/
def FloatFormat.signed (f : FloatFormat) (neg : Bool) (magnitude : Nat) : Nat :=
  if neg then f.signWeight + magnitude else magnitude

/-- The pattern of `num / den * 2^e`, negated if `neg`; a zero keeps the sign it is given. -/
def FloatFormat.round (f : FloatFormat) (neg : Bool) (num den : Nat) (e : Int) : Nat :=
  f.signed neg (if num = 0 then 0 else f.roundMagnitude num den e)

/-- The opposite number. -/
def FloatValue.negate : FloatValue → FloatValue
  | .nan => .nan
  | .infinite neg => .infinite (!neg)
  | .finite neg m e => .finite (!neg) m e

/-- A signed significand as an integer. -/
def signedMant (neg : Bool) (m : Nat) : Int := if neg then -(m : Int) else m

/-- The sum's pattern; none for a NaN. An exact zero sum of opposite signs is +0. -/
def FloatFormat.add (f : FloatFormat) (x y : FloatValue) : Option Nat :=
  match x, y with
  | .nan, _ => none
  | _, .nan => none
  | .infinite a, .infinite b => if a = b then some (f.signed a f.infinity) else none
  | .infinite a, .finite _ _ _ => some (f.signed a f.infinity)
  | .finite _ _ _, .infinite b => some (f.signed b f.infinity)
  | .finite a m e, .finite b n g =>
    let low := min e g
    let sum := signedMant a m * twoPowPos (e - low) + signedMant b n * twoPowPos (g - low)
    if sum = 0 then some (f.signed (a && b) 0)
    else some (f.round (decide (sum < 0)) sum.natAbs 1 low)

/-- The product's pattern; none for a NaN. -/
def FloatFormat.mul (f : FloatFormat) (x y : FloatValue) : Option Nat :=
  match x, y with
  | .nan, _ => none
  | _, .nan => none
  | .infinite a, .infinite b => some (f.signed (a != b) f.infinity)
  | .infinite a, .finite b n _ => if n = 0 then none else some (f.signed (a != b) f.infinity)
  | .finite a m _, .infinite b => if m = 0 then none else some (f.signed (a != b) f.infinity)
  | .finite a m e, .finite b n g => some (f.round (a != b) (m * n) 1 (e + g))

/-- The quotient's pattern; none for a NaN. A zero divisor never comes here (R172); it would give what IEEE 754 gives. -/
def FloatFormat.div (f : FloatFormat) (x y : FloatValue) : Option Nat :=
  match x, y with
  | .nan, _ => none
  | _, .nan => none
  | .infinite _, .infinite _ => none
  | .infinite a, .finite b _ _ => some (f.signed (a != b) f.infinity)
  | .finite a _ _, .infinite b => some (f.signed (a != b) 0)
  | .finite a m e, .finite b n g =>
    if n = 0 then (if m = 0 then none else some (f.signed (a != b) f.infinity))
    else some (f.round (a != b) m n (e - g))

/-- `round(x OPER y)` (R170); none for a NaN, and for modulo, which the mode check has refused (R173). -/
def FloatFormat.compute (f : FloatFormat) (op : ArithOp) (x y : FloatValue) : Option Nat :=
  match op with
  | .add => f.add x y
  | .sub => f.add x y.negate
  | .mul => f.mul x y
  | .div => f.div x y
  | .mod => none

/-- A register's or literal's value read as binary32 (R170, R174). -/
def readFloat (v : Word) : FloatValue := binary32.decode v.toNat

/-- The divisor is `+0` or `-0` (R172). -/
def isFloatZero (v : Word) : Bool := v.setWidth 31 == 0

/-- A pattern of 32 bits turned into a NaN's: its sign and fraction kept, its exponent all ones, and a fraction that is not
zero. Every NaN pattern is its own. -/
def nanPattern (v : Word) : Word :=
  (v ||| 0x7F800000) ||| (if v.setWidth 23 = 0 then 1 else 0)

/-- The same for 64 bits. -/
def nanPatternDouble (v : BitVec 64) : BitVec 64 :=
  (v ||| 0x7FF0000000000000) ||| (if v.setWidth 52 = 0 then 1 else 0)

/-- `FpuOp` for f32 (R170, R172). A NaN result's sign and payload are a free value, a fresh one each time (U5, log 6). -/
def fpuSingle (op : ArithOp) (a d : Word) (rd : Reg) (s : State) : Check State :=
  if op = .div ∧ isFloatZero a then raise .fpuFault s
  else
    match binary32.compute op (readFloat d) (readFloat a) with
    | some bits => .ok (s.set rd (BitVec.ofNat 32 bits))
    | none => .ok (({ s with draws := s.draws + 1 } : State).set rd (nanPattern (Config.freeNan s.draws)))

/-- R171's default of `FPU_DOUBLE`: both operands widened exactly from binary32, one operation in binary64. -/
def widenedDouble (op : ArithOp) (a d : Word) : BitVec 64 :=
  match binary64.compute op (readFloat d) (readFloat a) with
  | some bits => BitVec.ofNat 64 bits
  | none => nanPatternDouble (Config.freeNanDouble op a d)

/-- `FPU_DOUBLE(OPER, a, d)` (R171): the machine's parameter (log 7). -/
def fpuDouble (mode : DoubleMode) (op : ArithOp) (a d : Word) : BitVec 64 :=
  match mode with
  | .widen => widenedDouble op a d
  | .implementation => Config.fpuDouble op a d

/-- RFP1 to RFP4 by number (R35). -/
def floatReg (i : Nat) : Reg :=
  match i with
  | 1 => .rfp1
  | 2 => .rfp2
  | 3 => .rfp3
  | _ => .rfp4

/-- `FpuOp` for f64 (R171, R172): the low half to the destination, then the upper half to the selected register. -/
def fpuDoubleOp (op : ArithOp) (ext : Option Nat) (a d : Word) (rd : Reg) (s : State) : Check State :=
  if op = .div ∧ isFloatZero a then raise .fpuFault s
  else
    let w := fpuDouble s.cfg.double op a d
    let t := s.set rd (w.extractLsb' 0 32)
    match ext with
    | none => .ok t
    | some i => .ok (t.set (floatReg i) (w.extractLsb' 32 32))

/-- `arth`'s routing to the ALU or the FPU (R150). -/
def arithmetic (m : ArithMode) (a d : Word) (rd : Reg) (s : State) : Check State :=
  match m.type.shape with
  | some t => aluOp m t a d rd s
  | none => if m.type = .f32 then fpuSingle m.op a d rd s else fpuDoubleOp m.op m.ext a d rd s

end Sys2Proof.Machine
end

