-- ==== Sys2Proof/Machine/Logic.lean ====
section
/-!
DEFINITION. The logic unit (R180 to R183).
-/

namespace Sys2Proof.Machine

/-- `LogicOp(other, n, D, A)` on n-bit values (R181). A shift by n or more gives 0, a rotate counts modulo n (R182). -/
def LogicOp.apply (op : LogicOp) (n : Nat) (d a : BitVec n) : BitVec n :=
  match op with
  | .xor => d ^^^ a
  | .and => d &&& a
  | .or => d ||| a
  | .shl => if a.toNat < n then d <<< a.toNat else 0
  | .shr => if a.toNat < n then d >>> a.toNat else 0
  | .rol => d.rotateLeft (a.toNat % n)
  | .ror => d.rotateRight (a.toNat % n)

/-- The n-bit result: of the operation or, with no operation bit, the source; complemented if NOT is set (R180). -/
def LogicMode.result (m : LogicMode) (n : Nat) (d a : BitVec n) : BitVec n :=
  let r := match m.op with
    | none => a
    | some op => op.apply n d a
  if m.not then ~~~r else r

/-- What `lgic` writes: both operands taken at the width, zero-extended to 64 bits if it is 64, and the result's low 32 bits,
zero-extended if it is narrower (R180, R183). -/
def LogicMode.eval (m : LogicMode) (d a : Word) : Word :=
  (m.result m.width.bits (d.setWidth m.width.bits) (a.setWidth m.width.bits)).setWidth 32

end Sys2Proof.Machine
end

