-- ==== Sys2Proof/Machine/ArithLogic.lean ====
section
/-!
DEFINITION. Arithmetic and logic (42_arith_logic.md): `arth`, `lgic`.
-/

namespace Sys2Proof.Machine

/-- The contents of a mode register as a check: BadRegisterValue (R108 check 7). -/
def modeOf {α : Type} (s : State) (m : Option α) : Check α :=
  match m with
  | some x => .ok x
  | none => raise .badRegisterValue s

/-- `arth` (R150): `d <- d OPER a`, the destination operand 2. The mode is RARTH before any write. -/
def arthEffect (op1 op2 : Operand) (s : State) : Check State := do
  let id2 ← needReg s op2
  let a ← valueOf s op1
  let rd ← destOf s id2
  let m ← modeOf s (arithMode (s.get .rarth))
  let t ← arithmetic m a (s.get rd) rd s
  .ok (t.set .rip (nextAddr s [op1, op2]))

/-- `lgic` (R180): the mode is RLGIC before the write; no flag changes. -/
def lgicEffect (op1 op2 : Operand) (s : State) : Check State := do
  let id2 ← needReg s op2
  let a ← valueOf s op1
  let rd ← destOf s id2
  let m ← modeOf s (logicMode (s.get .rlgic))
  .ok ((s.set rd (m.eval (s.get rd) a)).set .rip (nextAddr s [op1, op2]))

/-- The meaning of `arth`. -/
def execArth (op1 op2 : Operand) (s : State) : Result := settle (arthEffect op1 op2 s)

/-- The meaning of `lgic`. -/
def execLgic (op1 op2 : Operand) (s : State) : Result := settle (lgicEffect op1 op2 s)

end Sys2Proof.Machine
end

