-- ==== Sys2Proof/Machine/Control.lean ====
section
/-!
DEFINITION. Compare and control transfer (41_compare_control.md): `cmp`, `jmp`, `call`, `ret`.
-/

namespace Sys2Proof.Machine

/-- `cmp` (R141): RES is written, every other bit of RCMP is kept. -/
def cmpEffect (op1 op2 : Operand) (s : State) : Check State := do
  let a ← valueOf s op1
  let b ← valueOf s op2
  match relationOf (s.get .rcmp) with
  | none => raise .badRegisterValue s
  | some m => .ok ((s.setRes (m.holds a b)).set .rip (nextAddr s [op1, op2]))

/-- `jmp` (R143): the id is checked whether or not the jump is taken; the target is not checked. -/
def jmpEffect (op1 : Operand) (s : State) : Check State := do
  let t ← valueOf s op1
  .ok (s.set .rip (if s.res then t else nextAddr s [op1]))

/-- `call` (R146): the address after the call is pushed at RRA, which grows upward. -/
def callEffect (op1 : Operand) (s : State) : Check State := do
  let t ← valueOf s op1
  let p ← dataAddr s (s.get .rra) permW
  .ok (((s.storeWord p (nextAddr s [op1])).set .rra (s.get .rra + 4)).set .rip t)

/-- `ret` (R147). -/
def retEffect (s : State) : Check State := do
  let a := s.get .rra - 4
  let p ← dataAddr s a permR
  .ok ((s.set .rra a).set .rip (s.wordAt p))

/-- The meaning of `cmp`. -/
def execCmp (op1 op2 : Operand) (s : State) : Result := settle (cmpEffect op1 op2 s)

/-- The meaning of `jmp`. -/
def execJmp (op1 : Operand) (s : State) : Result := settle (jmpEffect op1 s)

/-- The meaning of `call`. -/
def execCall (op1 : Operand) (s : State) : Result := settle (callEffect op1 s)

/-- The meaning of `ret`. -/
def execRet (s : State) : Result := settle (retEffect s)

end Sys2Proof.Machine
end

