-- ==== Sys2Proof/Machine/Copy.lean ====
section
/-!
DEFINITION. The copy instructions (40_copy.md): `cpr`, `cpl`, `cpf`, `cpx`. Each `…Effect` is the instruction's rule: the
state it leaves, or the fault it raises; each `exec…` takes that fault.
-/

namespace Sys2Proof.Machine

/-- A value copied to a "ref": a register operand, or the memory word at a literal address (R130, R131, R132). -/
def copyTo (v : Word) (op2 : Operand) (next : Word) (s : State) : Check State := do
  match op2 with
  | .reg id2 =>
    let rb ← destOf s id2
    .ok ((s.set rb v).set .rip next)
  | .lit a =>
    let p ← dataAddr s a permW
    .ok ((s.storeWord p v).set .rip next)

/-- `cpr` (R131). -/
def cprEffect (op1 op2 : Operand) (s : State) : Check State := do
  let id1 ← needReg s op1
  let ra ← regOf s id1
  copyTo (s.get ra) op2 (nextAddr s [op1, op2]) s

/-- `cpl` (R132). -/
def cplEffect (op1 op2 : Operand) (s : State) : Check State := do
  let v ← needLit s op1
  copyTo v op2 (nextAddr s [op1, op2]) s

/-- `cpf` (R133): the source address is a literal or a register's value; the whole source word is read before the
destination is written. -/
def cpfEffect (op1 op2 : Operand) (s : State) : Check State := do
  let sa ← valueOf s op1
  match op2 with
  | .reg id2 =>
    let rb ← destOf s id2
    let ps ← dataAddr s sa permR
    .ok ((s.set rb (s.wordAt ps)).set .rip (nextAddr s [op1, op2]))
  | .lit a2 =>
    let ps ← dataAddr s sa permR
    let pd ← dataAddr s a2 permW
    .ok ((s.storeWord pd (s.wordAt ps)).set .rip (nextAddr s [op1, op2]))

/-- `cpx` (R134): no register is written, so no privilege is asked. -/
def cpxEffect (op1 op2 : Operand) (s : State) : Check State := do
  let id1 ← needReg s op1
  let id2 ← needReg s op2
  let ra ← regOf s id1
  let rb ← regOf s id2
  let p ← dataAddr s (s.get rb) permW
  .ok ((s.storeWord p (s.get ra)).set .rip (nextAddr s [op1, op2]))

/-- The meaning of `cpr`. -/
def execCpr (op1 op2 : Operand) (s : State) : Result := settle (cprEffect op1 op2 s)

/-- The meaning of `cpl`. -/
def execCpl (op1 op2 : Operand) (s : State) : Result := settle (cplEffect op1 op2 s)

/-- The meaning of `cpf`. -/
def execCpf (op1 op2 : Operand) (s : State) : Result := settle (cpfEffect op1 op2 s)

/-- The meaning of `cpx`. -/
def execCpx (op1 op2 : Operand) (s : State) : Result := settle (cpxEffect op1 op2 s)

end Sys2Proof.Machine
end

