-- ==== Sys2Proof/Machine/Ports.lean ====
section
/-!
DEFINITION. The ports to the host (R263 to R265): the display sink, the storage devices and the timer pool. What the host
answers of its own accord is taken from the lists State holds (log 9).
-/

namespace Sys2Proof.Machine

/-- `DisplayOut(b)` (R263). -/
def displayOut (b : Byte) (s : State) : State := { s with display := s.display ++ [b] }

/-- The byte of a storage device at an offset: the last one written, or its unknown contents (R264, U9). -/
def storageByteAt (s : State) (dev off : Nat) : Byte :=
  match s.storage[dev]? with
  | some d => (Memory.find d.cells off).getD (Config.storageByte dev off)
  | none => Config.storageByte dev off

/-- `len` bytes of a storage device from an offset, in device order (R202). -/
def storageBytesAt (s : State) (dev off len : Nat) : List Byte :=
  (List.range len).map fun k => storageByteAt s dev (off + k)

/-- The port's own conditions: the id names a device and the range lies within it (R264). -/
def storageInRange (s : State) (dev off len : Nat) : Bool :=
  decide (dev < s.cfg.ndev) &&
    match s.storage[dev]? with
    | some d => decide (off + len ≤ d.size)
    | none => false

/-- The host's own error for this transfer, if it has one, and the state with that answer used up (U13, log 9). -/
def drawStorageError (s : State) : Bool × State :=
  (s.storageErrors.headD false, { s with storageErrors := s.storageErrors.tail })

/-- The state with the bytes of a storage device replaced (R264). -/
def storagePut (s : State) (dev off : Nat) (bytes : List Byte) : State :=
  { s with storage := s.storage.modify dev fun d => { d with cells := Memory.store d.cells off bytes } }

/-- `StorageRead(dev, off, len)` into memory at `p`; a failure is IoFault with no byte moved (R202, R264). -/
def storageRead (dev off len p : Nat) (s : State) : Check State :=
  let (err, t) := drawStorageError s
  if storageInRange s dev off len && !err then .ok (t.storeBytes p (storageBytesAt s dev off len))
  else raise .ioFault t

/-- `StorageWrite(dev, off, bytes)` of the memory at `p`; a failure is IoFault with no byte moved (R202, R264). -/
def storageWrite (dev off len p : Nat) (s : State) : Check State :=
  let (err, t) := drawStorageError s
  if storageInRange s dev off len && !err then .ok (storagePut t dev off (s.bytesAt p len))
  else raise .ioFault t

/-- A storage transfer in either direction (R202). -/
def storageTransfer (write : Bool) (dev off len p : Nat) (s : State) : Check State :=
  if write then storageWrite dev off len p s else storageRead dev off len p s

/-- `TimerArm(id, delay)` (R205, R265): exhausted, which is MachineCheck, if the pool is full or the host refuses. -/
def timerArm (id : Byte) (delay : Word) (s : State) : Check State :=
  if s.timerRefusals.headD false || decide (s.cfg.timerPool ≤ s.armed.length) then
    raise .machineCheck { s with timerRefusals := s.timerRefusals.tail }
  else .ok { s with armed := s.armed ++ [⟨id, delay⟩], timerRefusals := s.timerRefusals.tail }

end Sys2Proof.Machine
end

