-- ==== Sys2Proof/Machine/System.lean ====
section
/-!
DEFINITION. The system instructions (43_system.md): `intr` with its eight inline vectors, `rsv`, `nop`, `ltsk`.
-/

namespace Sys2Proof.Machine

/-- The slots vector-install may write: 32 to 127, 0x09 and 0x10 (R196). -/
def installable (n : Nat) : Bool := (decide (32 ≤ n ∧ n ≤ 127) || n == 0x09) || n == 0x10

/-- `intr 0x01`, vector-install (R196). -/
def vectorInstall (next : Word) (s : State) : Check State :=
  let n := (s.get .rgp1).toNat
  if installable n then .ok ((s.setSlot n ⟨(s.get .rgp3).getLsbD 0, s.get .rgp2⟩).set .rip next)
  else raise .illegalInterrupt s

/-- `intr 0x03`, halt (R198). -/
def halt (next : Word) (s : State) : State := ({ s with run := .halted } : State).set .rip next

/-- `intr 0x0A`, display (R200). -/
def display (next : Word) (s : State) : State := (displayOut ((s.get .rgp1).setWidth 8) s).set .rip next

/-- The byte offset of a storage transfer: 64 bits in the extended form, else 32 (R202). -/
def storageOffset (s : State) : Nat :=
  if (s.get .rgp1).getLsbD 1 then (s.get .rgp6).toNat * 2 ^ 32 + (s.get .rgp5).toNat else (s.get .rgp5).toNat

/-- `intr 0x0B`, storage I/O (R202): the buffer is translated once and zone-checked before the port is asked. -/
def storageIo (next : Word) (s : State) : Check State := do
  let write := (s.get .rgp1).getLsbD 0
  let dev := (s.get .rgp2).toNat
  let len := (s.get .rgp4).toNat
  let p ← translate s (s.get .rgp3) (if write then permR else permW)
  ensure (inZone s.cfg p.toNat len) .badMemory s
  let t ← storageTransfer write dev (storageOffset s) len p.toNat s
  .ok (t.set .rip next)

/-- `intr 0x0D`, page-cache-invalidate: there is no page cache, so RIP alone changes (R204, R43). -/
def pageCacheInvalidate (next : Word) (s : State) : State := s.set .rip next

/-- `intr 0x0F`, timer-arm (R205). -/
def timerArmVector (next : Word) (s : State) : Check State := do
  let t ← timerArm ((s.get .rgp1).setWidth 8) (s.get .rgp2) s
  .ok (t.set .rip next)

/-- `intr 0x09`, keyboard, issued by software: one pending code is received and delivered (R206). -/
def keyboardVector (next : Word) (s : State) : Check State :=
  match s.kbd with
  | [] => .ok (s.set .rip next)
  | c :: rest => deliver 0x09 c (({ s with kbd := rest } : State).set .rip next)

/-- `intr 0x10`, timer-expired, issued by software (R206). -/
def timerVector (next : Word) (s : State) : Check State :=
  match s.tmr with
  | [] => .ok (s.set .rip next)
  | t :: rest => deliver 0x10 (t.setWidth 32) (({ s with tmr := rest } : State).set .rip next)

/-- The inline vectors (R14, R191). -/
inductive InlineVector
  | install | halt | keyboard | display | storage | invalidate | timerArm | timerExpired
  deriving DecidableEq, Repr

/-- Which inline vector a number is, compared as a full 32-bit number (R190). -/
def inlineOf (v : Word) : Option InlineVector :=
  match v.toNat with
  | 0x01 => some .install
  | 0x03 => some .halt
  | 0x09 => some .keyboard
  | 0x0A => some .display
  | 0x0B => some .storage
  | 0x0D => some .invalidate
  | 0x0F => some .timerArm
  | 0x10 => some .timerExpired
  | _ => none

/-- `Inline(v)` (R196 to R206). -/
def inlineEffect (v : InlineVector) (next : Word) (s : State) : Check State :=
  match v with
  | .install => vectorInstall next s
  | .halt => .ok (halt next s)
  | .keyboard => keyboardVector next s
  | .display => .ok (display next s)
  | .storage => storageIo next s
  | .invalidate => .ok (pageCacheInvalidate next s)
  | .timerArm => timerArmVector next s
  | .timerExpired => timerVector next s

/-- `intr` (R190): an inline vector is privileged (R195), any other goes through the table. -/
def intrEffect (op1 : Operand) (s : State) : Check State := do
  let v ← needLit s op1
  match inlineOf v with
  | some f => if s.lowered then raise .noPrivilege s else inlineEffect f (nextAddr s [op1]) s
  | none => dispatchVectored v (nextAddr s [op1]) s

/-- `rsv` (R210). -/
def rsvEffect (s : State) : Check State := .ok (s.set .rip (nextAddr s []))

/-- `nop` (R211). -/
def nopEffect (s : State) : Check State := .ok (s.set .rip (nextAddr s []))

/-- `ltsk` (R212): the return from a trap, a no-op if task registers are off. -/
def ltskEffect (s : State) : Check State :=
  if s.taskRegs then (if s.lowered then raise .noPrivilege s else trapReturn s)
  else .ok (s.set .rip (nextAddr s []))

/-- The meaning of `intr`. -/
def execIntr (op1 : Operand) (s : State) : Result := settle (intrEffect op1 s)

/-- The meaning of `rsv`. -/
def execRsv (s : State) : Result := settle (rsvEffect s)

/-- The meaning of `nop`. -/
def execNop (s : State) : Result := settle (nopEffect s)

/-- The meaning of `ltsk`. -/
def execLtsk (s : State) : Result := settle (ltskEffect s)

end Sys2Proof.Machine
end

