-- ==== Sys2Proof/Machine/Dispatch.lean ====
section
/-!
DEFINITION. Dispatch: "a closed table of 14 entries" (R107, R110), one arm per instruction.
-/

namespace Sys2Proof.Machine

def exec (i : Instr) (s : State) : Host.Outcome State Fault Refusal :=
  match i with
  | .cpr op1 op2 => Sys2Proof.Machine.execCpr op1 op2 s
  | .cpl op1 op2 => Sys2Proof.Machine.execCpl op1 op2 s
  | .cpf op1 op2 => Sys2Proof.Machine.execCpf op1 op2 s
  | .cpx op1 op2 => Sys2Proof.Machine.execCpx op1 op2 s
  | .cmp op1 op2 => Sys2Proof.Machine.execCmp op1 op2 s
  | .jmp op1 => Sys2Proof.Machine.execJmp op1 s
  | .call op1 => Sys2Proof.Machine.execCall op1 s
  | .ret => Sys2Proof.Machine.execRet s
  | .arth op1 op2 => Sys2Proof.Machine.execArth op1 op2 s
  | .lgic op1 op2 => Sys2Proof.Machine.execLgic op1 op2 s
  | .intr op1 => Sys2Proof.Machine.execIntr op1 s
  | .rsv => Sys2Proof.Machine.execRsv s
  | .nop => Sys2Proof.Machine.execNop s
  | .ltsk => Sys2Proof.Machine.execLtsk s

end Sys2Proof.Machine
end

