-- ==== Sys2Proof/Machine/Events.lean ====
section
/-!
DEFINITION. Hardware events: their arrival from the external agents (R7, R44) and the poll (R250, R251).
-/

namespace Sys2Proof.Machine

/-- What an external agent does to the queues: the keyboard appends its code, the armed timer at an index fires once and is
free again (R44, R205). -/
def arrive (s : State) : Event → State
  | .key c => { s with kbd := s.kbd ++ [c] }
  | .fire n =>
    match s.armed[n]? with
    | some t => { s with tmr := s.tmr ++ [t.id], armed := s.armed.eraseIdx n }
    | none => s

/-- The events that are in the queues before this step's instruction executes (R8, log 8). -/
def arriveBefore (s : State) : State :=
  match s.arrivals with
  | [] => s
  | now :: _ => now.before.foldl arrive s

/-- The events that arrive after the instruction and before the poll; this step's entry of the schedule is then used up
(R8, R10, log 8). -/
def arriveBeforePoll (s : State) : State :=
  match s.arrivals with
  | [] => s
  | now :: later => now.beforePoll.foldl arrive { s with arrivals := later }

/-- The keyboard half of the poll (R250): the codes pending are delivered oldest first while the machine runs. -/
def drainKeys : List Word → State → Result
  | [], s => .next s
  | c :: rest, s =>
    if s.run = .running then
      match settle (deliver 0x09 c { s with kbd := rest }) with
      | .next t => drainKeys rest t
      | stop => stop
    else .next s

/-- The timer half of the poll (R250): the ids pending are delivered oldest first, zero-extended, while the machine runs. -/
def drainTimers : List Byte → State → Result
  | [], s => .next s
  | c :: rest, s =>
    if s.run = .running then
      match settle (deliver 0x10 (c.setWidth 32) { s with tmr := rest }) with
      | .next t => drainTimers rest t
      | stop => stop
    else .next s

/-- `Poll` (R250): keyboard events, then timer events. -/
def poll (s : State) : Result :=
  match drainKeys s.kbd s with
  | .next t => drainTimers t.tmr t
  | stop => stop

end Sys2Proof.Machine
end

