-- ==== Sys2Proof/Machine/Fetch.lean ====
section
/-!
DEFINITION. Fetch (R100) and the fetch half of decode (R104): the instruction at RIP, or the fault its fetch raises; and where
an instruction is put so that the next step fetches it.
-/

namespace Sys2Proof.Machine

/-- The instruction at RIP (R100, R104, R108 checks 1 to 3): RIP is translated once with `PERM_X`, the instruction word is
zone-checked, the opcode range is checked, then the literal words are zone-checked. -/
def fetch (s : State) : Check Instr :=
  match translate s (s.get .rip) permX with
  | .error t => .error t
  | .ok p =>
    if inZone s.cfg p.toNat 4 then
      match literalWords (s.wordAt p.toNat) with
      | none => raise .illegalInstruction s
      | some k =>
        if inZone s.cfg p.toNat (4 * (1 + k)) then
          match decode (s.bytesAt p.toNat (4 * (1 + k))) with
          | .ok (i, _) => .ok i
          | .error _ => raise .illegalInstruction s
        else raise .badMemory s
    else raise .badMemory s

/-- The state with bytes stored where the next step fetches, and the machine running. Where RIP does not resolve to room
for them in the normal zone, RIP is first put at the boot base with paging off. -/
def placeAtFetch (s : State) (bytes : List Byte) : State :=
  let r : State := { s with run := .running }
  match translate r (r.get .rip) permX with
  | .ok p =>
    if inZone r.cfg p.toNat bytes.length then r.storeBytes p.toNat bytes
    else ((r.set .rst 0).set .rip (BitVec.ofNat 32 r.cfg.bootBase)).storeBytes r.cfg.bootBase bytes
  | .error _ => ((r.set .rst 0).set .rip (BitVec.ofNat 32 r.cfg.bootBase)).storeBytes r.cfg.bootBase bytes

end Sys2Proof.Machine
end

