-- ==== Sys2Proof/Machine/Step.lean ====
section
/-!
DEFINITION. The step (R10): fetch and decode, execute, then the poll.
-/

namespace Sys2Proof.Machine

/-- What follows the instruction or its fault: the events that arrive meanwhile, then the poll (R10 step 3, R250). -/
def afterInstr : Result → Result
  | .next s => poll (arriveBeforePoll s)
  | stop => stop

/-- The first two parts of the step (R10): the instruction at RIP is fetched and executed, a fault of its fetch is taken like
any other (R100). -/
def fetchAndExecute (s : State) : Result :=
  match fetch s with
  | .ok i => exec i s
  | .error t => settle (.error t)

/-- One step of the machine (R10). A machine that is halted or has terminated takes no step: its state stays (log 4). -/
def step (s : State) : Host.Outcome State Fault Refusal :=
  if s.run = .running then afterInstr (fetchAndExecute (arriveBefore s)) else .next s

/-- The state with the instruction whose bits are `w` (numbered as spec/opcode_table.json numbers them, every bit from
`nbits` up 0) stored where the next step fetches its instruction. -/
def State.withFetchWord (s : State) (nbits w : Nat) : State :=
  placeAtFetch s ((tableWords nbits w).flatMap wordBytes)

end Sys2Proof.Machine
end

