-- ==== Sys2Proof/Safety.lean ====
section
/-!
DEFINITION. The terms in which claims about the machine are made: an instruction's rule before its fault is taken, what an
instruction leaves unchanged, what taking a fault and entering a trap leave, the conditions of R113, R21 and R247 on an
instruction as a whole, the page list as a chain of descriptors, and the invariant.
-/

namespace Sys2Proof.Machine

/-! ## An instruction's rule -/

/-- What an instruction's rule computes: the state it leaves, or the fault it raises and the state it raises it in.
`exec` is this, with the fault taken. -/
def effect (i : Instr) (s : State) : Check State :=
  match i with
  | .cpr op1 op2 => cprEffect op1 op2 s
  | .cpl op1 op2 => cplEffect op1 op2 s
  | .cpf op1 op2 => cpfEffect op1 op2 s
  | .cpx op1 op2 => cpxEffect op1 op2 s
  | .cmp op1 op2 => cmpEffect op1 op2 s
  | .jmp op1 => jmpEffect op1 s
  | .call op1 => callEffect op1 s
  | .ret => retEffect s
  | .arth op1 op2 => arthEffect op1 op2 s
  | .lgic op1 op2 => lgicEffect op1 op2 s
  | .intr op1 => intrEffect op1 s
  | .rsv => rsvEffect s
  | .nop => nopEffect s
  | .ltsk => ltskEffect s

/-! ## What stays -/

/-- The two states agree in everything but the registers and memory. -/
def SameElse (s t : State) : Prop := t = { s with regs := t.regs, mem := t.mem }

/-- The two states agree in everything but the latches FLT_ADDR and FLT_PERM (R42). -/
def SameButLatches (s t : State) : Prop := t = { s with fltAddr := t.fltAddr, fltPerm := t.fltPerm }

/-- Every byte of memory reads as before. -/
def SameBytes (s t : State) : Prop := ∀ a, t.byteAt a = s.byteAt a

/-- Every byte of memory outside the `n` bytes at `p` reads as before. -/
def SameBytesOutside (s t : State) (p n : Nat) : Prop := ∀ a, a < p ∨ p + n ≤ a → t.byteAt a = s.byteAt a

/-- Every register not listed holds what it held. -/
def SameRegsBut (s t : State) (rs : List Reg) : Prop := ∀ q, q ∉ rs → t.get q = s.get q

/-- `i` completes from `s` having written `v` to `r` and moved RIP past itself, with nothing else changed. -/
def WritesRegister (i : Instr) (s : State) (r : Reg) (v : Word) : Prop :=
  ∃ t, exec i s = .next t ∧ t.get r = v ∧ t.get .rip = s.get .rip + i.size ∧
    SameRegsBut s t [r, .rip] ∧ SameBytes s t ∧ SameElse s t

/-- `i` completes from `s` having stored the word `v` at physical `p` and moved RIP past itself, with nothing else changed. -/
def WritesWord (i : Instr) (s : State) (p : Nat) (v : Word) : Prop :=
  ∃ t, exec i s = .next t ∧ t.wordAt p = v ∧ t.get .rip = s.get .rip + i.size ∧
    SameRegsBut s t [.rip] ∧ SameBytesOutside s t p 4 ∧ SameElse s t

/-- `i` completes from `s` with RIP at `a` and nothing else changed. -/
def OnlyMovesTo (i : Instr) (s : State) (a : Word) : Prop :=
  ∃ t, exec i s = .next t ∧ t.get .rip = a ∧ SameRegsBut s t [.rip] ∧ SameBytes s t ∧ SameElse s t

/-- The bits of the instruction word that the decoder reads, by the number of operands: RSV is never read, and the id fields
beyond the operand count are not (R101, R103). -/
def fieldMask (i : Instr) : Word :=
  match i.operands.length with
  | 0 => 0x000000FF
  | 1 => 0x0000FFFF
  | _ => 0x00FFFFFF

/-- The address a literal operand is (R130). -/
def Operand.address (op : Operand) : Option Word :=
  match op with
  | .reg _ => none
  | .lit a => some a

/-- The address a register operand holds (R134). -/
def Operand.pointer (op : Operand) (s : State) : Option Word :=
  match op with
  | .reg id => (decodeReg id).map s.get
  | .lit _ => none

/-- The logical address of the word an instruction stores, for the forms that store one (R131, R132, R133, R134, R146). -/
def storeAddress (i : Instr) (s : State) : Option Word :=
  match i with
  | .cpr _ op2 => Operand.address op2
  | .cpl _ op2 => Operand.address op2
  | .cpf _ op2 => Operand.address op2
  | .cpx _ op2 => Operand.pointer op2 s
  | .call _ => some (s.get .rra)
  | .cmp _ _ => none
  | .jmp _ => none
  | .ret => none
  | .arth _ _ => none
  | .lgic _ _ => none
  | .intr _ => none
  | .rsv => none
  | .nop => none
  | .ltsk => none

/-! ## Faults and traps -/

/-- The RFF mask of each fault kind: the table of R28. -/
def rffMask : FaultKind → Word
  | .machineCheck => 0x0001
  | .badMemory => 0x0002
  | .badRegister => 0x0004
  | .badRegisterValue => 0x0008
  | .badOperandValue => 0x0010
  | .illegalInterrupt => 0x0020
  | .illegalInstruction => 0x0040
  | .fpuFault => 0x0080
  | .aluFault => 0x0100
  | .noPage => 0x0200
  | .pagePermission => 0x0400
  | .noPrivilege => 0x0800
  | .ioFault => 0x1000

/-- The context of `u`, all 28 registers, is in the task structure at `p` of `t`'s memory, and no byte outside the 112 of that
structure has changed (R240, R241). -/
def SavedAt (u t : State) (p : Nat) : Prop :=
  (∀ r, t.wordAt (p + r.offset) = u.get r) ∧ SameBytesOutside u t p 112

/-- `t` is terminated by MachineCheck, whose bit is added to the fault flags of `u` (R223); but for registers, memory and the
latches everything else is as in `u`. -/
def MachineChecked (u t : State) : Prop :=
  t.get .rff = u.get .rff ||| rffMask .machineCheck ∧
  t = { u with regs := t.regs, mem := t.mem, fltAddr := t.fltAddr, fltPerm := t.fltPerm, run := .terminated .machineCheck }

/-- A register as the base task's structure at `q` holds it, once the context of `u` is saved at `p` (R240, R243). -/
def baseWord (u : State) (p q : Nat) (r : Reg) : Word := (saveRegs Reg.all p u).wordAt (q + r.offset)

/-- The task switch of a trap, entered in `u` with task registers on, cannot be made: the answer is a machine terminated by
MachineCheck. A current task that does not resolve: nothing is saved. A base task that does not resolve: the context is
saved and no register is loaded. A base task at the lowered level: the context is saved and the 9 registers are loaded
(R223, R240, R241, R243). -/
def SwitchFails (u : State) (answer : Result) : Prop :=
  (∀ (j : FaultKind) (w : State), taskAddr u (u.get .rct) = .error (.raise j w) →
    ∃ t, answer = .next t ∧ MachineChecked u t ∧ SameRegsBut u t [.rff] ∧ SameBytes u t) ∧
  (∀ (p : Nat) (j : FaultKind) (w : State), taskAddr u (u.get .rct) = .ok p →
    taskAddr (saveRegs Reg.all p u) (u.get .rbt) = .error (.raise j w) →
    ∃ t, answer = .next t ∧ MachineChecked u t ∧ SameRegsBut u t [.rff] ∧ SavedAt u t p) ∧
  (∀ p q : Nat, taskAddr u (u.get .rct) = .ok p → taskAddr (saveRegs Reg.all p u) (u.get .rbt) = .ok q →
    (baseWord u p q .rst).getLsbD 0 = true →
    ∃ t, answer = .next t ∧ MachineChecked u t ∧ (∀ r, r ∈ Reg.baseSet → t.get r = baseWord u p q r) ∧
      SameRegsBut u t (.rff :: Reg.baseSet) ∧ SavedAt u t p)

/-- A trap entered in `u` with task registers on and both task pointers in order: the context of `u` is in the current task's
structure, the 9 base-set registers are the base task's, RIP is the handler `h`, and everything else is as in `u`
(R233, R241, R243). -/
def SwitchEnters (u : State) (h : Word) (answer : Result) : Prop :=
  ∀ p q : Nat, taskAddr u (u.get .rct) = .ok p → taskAddr (saveRegs Reg.all p u) (u.get .rbt) = .ok q →
    (baseWord u p q .rst).getLsbD 0 = false →
    ∃ t, answer = .next t ∧ t.get .rip = h ∧ (∀ r, r ∈ Reg.baseSet → t.get r = baseWord u p q r) ∧
      SameRegsBut u t (.rip :: Reg.baseSet) ∧ SavedAt u t p ∧ SameElse u t

/-- Every outcome of entering the handler `h` from `u` with task registers on, for task pointers that resolve or do not. -/
def TaskTrap (u : State) (h : Word) (answer : Result) : Prop := SwitchEnters u h answer ∧ SwitchFails u answer

/-- Between `s` and `t` a trap has switched tasks: the current task's structure holds the RST of `s`, the RST of `t` is the
word the base task's structure has for it, and either that word selects the elevated level or the machine has terminated by
MachineCheck (R240, R241, R243). -/
def TaskSwitched (s t : State) : Prop :=
  s.taskRegs = true ∧ ∃ p q : Nat, taskAddr s (s.get .rct) = .ok p ∧ taskAddr { s with mem := t.mem } (s.get .rbt) = .ok q ∧
    t.wordAt (p + Reg.offset .rst) = s.get .rst ∧ t.get .rst = t.wordAt (q + Reg.offset .rst) ∧
    (t.lowered = false ∨ t.run = .terminated .machineCheck)

/-! ## The poll -/

/-- What the poll answers after a delivery: the poll goes on from the state it left, if it left one (R250). -/
def thenPoll : Result → Result
  | .next s => poll s
  | stop => stop

/-- The keyboard codes among some external events, in order (R44). -/
def keyCodes (evs : List Event) : List Word :=
  evs.filterMap fun e =>
    match e with
    | .key c => some c
    | .fire _ => none

/-! ## Conditions on an instruction -/

/-- The kind of an operand (R102). -/
def Operand.isReg : Operand → Bool
  | .reg _ => true
  | .lit _ => false

/-- The operand kinds each opcode accepts (the table of R113). -/
def kindsAccepted : Instr → Bool
  | .cpr op1 _ => Operand.isReg op1
  | .cpl op1 _ => !Operand.isReg op1
  | .cpf _ _ => true
  | .cpx op1 op2 => Operand.isReg op1 && Operand.isReg op2
  | .cmp _ _ => true
  | .jmp _ => true
  | .call _ => true
  | .ret => true
  | .arth _ op2 => Operand.isReg op2
  | .lgic _ op2 => Operand.isReg op2
  | .intr op1 => !Operand.isReg op1
  | .rsv => true
  | .nop => true
  | .ltsk => true

/-- A register operand names a register (R21). -/
def Operand.names : Operand → Bool
  | .reg id => (decodeReg id).isSome
  | .lit _ => true

/-- Every register operand of the instruction names a register (R21, R108 check 5). -/
def registersNamed (i : Instr) : Bool := i.operands.all Operand.names

/-- The operand is a register of id below RSA's (R247). -/
def Operand.isControl : Operand → Bool
  | .reg id =>
    match decodeReg id with
    | some r => decide (r.offset < 0x20)
    | none => false
  | .lit _ => false

/-- The number is one of the eight inline vectors (R191). -/
def inlineNumber (v : Word) : Bool := [0x01, 0x03, 0x09, 0x0A, 0x0B, 0x0D, 0x0F, 0x10].contains v.toNat

/-- `intr` with this operand is refused at the lowered level: an inline vector, or an installed one whose flag is 0 (R247). -/
def Operand.isRefusedVector (op : Operand) (s : State) : Bool :=
  match op with
  | .reg _ => false
  | .lit v => inlineNumber v || ((s.slot v.toNat).handler != 0 && !(s.slot v.toNat).priv)

/-- What the lowered level may not do: the refusals in the table of R247. -/
def privilegeRefused (i : Instr) (s : State) : Bool :=
  match i with
  | .cpr _ op2 => Operand.isControl op2
  | .cpl _ op2 => Operand.isControl op2
  | .cpf _ op2 => Operand.isControl op2
  | .cpx _ _ => false
  | .cmp _ _ => false
  | .jmp _ => false
  | .call _ => false
  | .ret => false
  | .arth _ op2 => Operand.isControl op2
  | .lgic _ op2 => Operand.isControl op2
  | .intr op1 => Operand.isRefusedVector op1 s
  | .rsv => false
  | .nop => false
  | .ltsk => s.taskRegs

/-! ## Floating-point values as numbers -/

/-- The pattern stands for a number: no infinity and no NaN. -/
def FloatValue.isFinite : FloatValue → Bool
  | .finite _ _ _ => true
  | _ => false

/-- The number a floating-point value is, exactly; 0 for an infinity or a NaN. -/
def FloatValue.value : FloatValue → ℚ
  | .finite neg mant exp => (if neg then -1 else 1) * (mant : ℚ) * (2 : ℚ) ^ exp
  | _ => 0

/-! ## The page list -/

/-- From the link `d`, the descriptors `ds` follow one another, each in the normal zone, and the link after the last is `e`
(R72, R73). -/
def Linked (s : State) : Word → List Word → Word → Prop
  | d, [], e => d = e
  | d, x :: xs, e => x = d ∧ d ≠ 0 ∧ inZone s.cfg d.toNat 24 = true ∧ Linked s (readDesc s d.toNat).next xs e

/-- No descriptor of the list covers the logical address. -/
def NoneCovers (s : State) (ds : List Word) (a : Word) : Prop := ∀ d ∈ ds, (readDesc s d.toNat).covers a = false

/-! ## The invariant -/

/-- What is true of every state a run can reach, whatever the OPEN parameters. -/
structure Inv (s : State) : Prop where
  /-- the parameters meet R6's constraints -/
  legal : s.cfg.legal
  /-- memory is in its canonical form -/
  memWf : s.mem.wf
  /-- every byte written lies in the normal zone (R62) -/
  memZone : ∀ c ∈ s.mem, s.cfg.ivtZone ≤ c.1 ∧ c.1 < s.cfg.ram
  /-- there are NDEV storage devices (R256) -/
  devices : s.storage.length = s.cfg.ndev
  /-- each device's bytes are in canonical form and lie within it (R264) -/
  deviceWf : ∀ d ∈ s.storage, Memory.wf d.cells ∧ ∀ c ∈ d.cells, c.1 < d.size
  /-- at most TIMER_POOL timers are armed (R255) -/
  pool : s.armed.length ≤ s.cfg.timerPool
  /-- of slots 1 to 31 only 0x09 and 0x10 can hold a handler (R41, R196) -/
  reserved : ∀ v, v < 32 → v ≠ 0x09 → v ≠ 0x10 → (s.slot v).handler = 0

end Sys2Proof.Machine
end

