-- ==== Sys2Proof/Certificates/Slice0/Obligations.lean ====
section
/-!
DEFINITION. The statements about the machine that the provers settle. Each docstring names the rules it rests on.
-/

open Sys2Proof Sys2Proof.Machine

/-! ## Encoding -/

/-- Decoding an encoded well-formed instruction gives it back, with every operand at every value (R101, R102, R104). -/
def Obligations.DecodeInvertsEncode : Prop :=
  ∀ (i : Instr) (rest : List Byte), i.wellFormed = true → decode (encodeBytes i ++ rest) = .ok (i, rest)

/-- What the decoder reads is well formed, has the length R105 gives it, and encodes to the very bytes it was read from, but
for the fields the decoder ignores, which the encoder writes as 0 (R101, R103, R104, R105). -/
def Obligations.DecodedBytesAreTheEncoding : Prop :=
  ∀ (bytes : List Byte) (i : Instr) (rest : List Byte), decode bytes = .ok (i, rest) →
    i.wellFormed = true ∧ ∃ iw body, takeWord bytes = some (iw, body ++ rest) ∧ body.length + 4 = i.size.toNat ∧
      encodeBytes i = wordBytes (iw &&& fieldMask i) ++ body

/-- R111: an opcode id of 0 or above 14 raises IllegalInstruction, whatever else stands in the word and after it, and every
other word decodes to the instruction of its opcode. -/
def Obligations.IllegalOpcodesExactly : Prop :=
  (∀ (s : State) (p : Word), translate s (s.get .rip) permX = .ok p → inZone s.cfg p.toNat 4 = true →
    ((s.wordAt p.toNat).toNat % 256 = 0 ∨ 14 < (s.wordAt p.toNat).toNat % 256) →
    fetchAndExecute s = takeFault .illegalInstruction s) ∧
  (∀ (iw : Word) (rest : List Byte), 8 ≤ rest.length → 1 ≤ iw.toNat % 256 → iw.toNat % 256 ≤ 14 →
    ∃ i rest', decode (wordBytes iw ++ rest) = .ok (i, rest') ∧ (opcodeOf i).toNat = iw.toNat % 256)

/-- The eight worked encodings of R118, byte for byte. -/
def Obligations.WorkedEncodingsDecode : Prop :=
  decode [0x00, 0x30, 0x00, 0x02, 0x00, 0x00, 0x00, 0x05] = .ok (.cpl (.lit 5) (.reg 0x30), []) ∧
  decode [0x00, 0x34, 0x30, 0x09] = .ok (.arth (.reg 0x30) (.reg 0x34), []) ∧
  decode [0x00, 0x34, 0x30, 0x05] = .ok (.cmp (.reg 0x30) (.reg 0x34), []) ∧
  decode [0x00, 0x00, 0x00, 0x02, 0x11, 0x22, 0x33, 0x44, 0x00, 0x00, 0x20, 0x00] =
    .ok (.cpl (.lit 0x11223344) (.lit 0x2000), []) ∧
  decode [0x00, 0x00, 0x30, 0x01, 0x00, 0x00, 0x20, 0x00] = .ok (.cpr (.reg 0x30) (.lit 0x2000), []) ∧
  decode [0x00, 0x00, 0x00, 0x06, 0x00, 0x00, 0x04, 0x40] = .ok (.jmp (.lit 0x440), []) ∧
  decode [0x00, 0x00, 0x00, 0x08] = .ok (.ret, []) ∧
  decode [0x00, 0x00, 0x00, 0x0B, 0x00, 0x00, 0x00, 0x03] = .ok (.intr (.lit 3), [])

/-! ## Registers, memory, reset -/

/-- R21: an operand id names a register exactly if it is a multiple of 4 below 0x70, and the register is the one whose offset
in R20's layout it is; an id that names none makes the instruction raise BadRegister if its operand kinds are accepted. -/
def Obligations.RegisterIdsExactly : Prop :=
  (∀ id : Byte, id ≠ 0 → id.toNat % 4 = 0 → id.toNat < 0x70 → ∃ r, decodeReg id = some r ∧ r.offset = id.toNat) ∧
  (∀ id : Byte, id ≠ 0 → (id.toNat % 4 ≠ 0 ∨ 0x70 ≤ id.toNat) → decodeReg id = none) ∧
  (∀ (i : Instr) (s : State), kindsAccepted i = true → registersNamed i = false →
    exec i s = takeFault .badRegister s) ∧
  (∀ (i : Instr) (s t : State), kindsAccepted i = true → registersNamed i = true →
    effect i s ≠ .error (.raise .badRegister t))

/-- A word stored is read back, its bytes lie big-endian, and every other byte reads as before (R64, R66, R67). -/
def Obligations.WordStoredBigEndian : Prop :=
  ∀ (s : State) (p : Nat) (v : Word),
    (s.storeWord p v).wordAt p = v ∧
    (∀ k, k < 4 → ((s.storeWord p v).byteAt (p + k)).toNat = v.toNat / 2 ^ (8 * (3 - k)) % 256) ∧
    SameBytesOutside s (s.storeWord p v) p 4 ∧ SameRegsBut s (s.storeWord p v) []

/-- What machine start leaves, for every choice of the OPEN parameters (R47): State.reset's own form, in which memory lists no
byte, the model's way of saying that no byte has a known value (log 2); and the state the first step finds, in which the
host has loaded a boot image of BOOT_SIZE bytes at BOOT_BASE (R271): the image's bytes there, no other byte known, all else
as after machine start. If the image begins
with the encoding of an instruction, that is the first one executed. That State.reset has no image and `State.start` has it
is the model's choice (log 3). -/
def Obligations.ResetState : Prop :=
  (∀ c : Config,
    (State.resetWith c).get .rip = BitVec.ofNat 32 c.bootBase ∧
    (∀ r, r ≠ .rip → (State.resetWith c).get r = 0) ∧
    (∀ v, (State.resetWith c).slot v = ⟨false, 0⟩) ∧
    (State.resetWith c).mem = [] ∧ (State.resetWith c).fltAddr = 0 ∧ (State.resetWith c).fltPerm = 0 ∧
    (State.resetWith c).kbd = [] ∧ (State.resetWith c).tmr = [] ∧ (State.resetWith c).armed = [] ∧
    (State.resetWith c).run = .running) ∧
  (∀ (c : Config) (image : Vector Byte c.bootSize),
    (∀ (k : Nat) (h : k < c.bootSize), (State.start c image).byteAt (c.bootBase + k) = image[k]) ∧
    (∀ a, a < c.bootBase ∨ c.bootBase + c.bootSize ≤ a → (State.start c image).mem.find a = none) ∧
    State.start c image = { State.resetWith c with mem := (State.start c image).mem } ∧
    (∀ (i : Instr) (rest : List Byte), c.legal → i.wellFormed = true → image.toList = encodeBytes i ++ rest →
      fetchAndExecute (State.start c image) = exec i (State.start c image)))

/-! ## The step -/

/-- A step of a running machine runs the instruction whose bytes lie at RIP, translated once with PERM_X: it is `exec` of
that instruction in the state with this step's arrivals in the queues, followed by the later arrivals and the poll; with no
arrivals and both queues empty after it, the step is exactly the instruction (R10, R100, R104, R250). A machine that is
halted or has terminated takes no step (R10, R45); that the step function then answers the state itself is the model's
choice (log 4), and that events come from a schedule in State is too (log 8). -/
def Obligations.StepRunsDecodedInstruction : Prop :=
  (∀ (s : State) (i : Instr) (p : Word), s.run = .running →
    translate (arriveBefore s) ((arriveBefore s).get .rip) permX = .ok p →
    inZone (arriveBefore s).cfg p.toNat i.size.toNat = true →
    decode ((arriveBefore s).bytesAt p.toNat i.size.toNat) = .ok (i, []) →
    step s = afterInstr (exec i (arriveBefore s)) ∧
      (∀ t, s.arrivals = [] → exec i s = .next t → t.arrivals = [] → t.kbd = [] → t.tmr = [] → step s = .next t)) ∧
  (∀ s : State, s.run ≠ .running → step s = .next s)

/-- A fault of the fetch is taken like any other, with RIP still at the instruction (R100, R108 checks 1 and 3): a translation
that fails, an instruction word outside the normal zone, and a literal word outside it. -/
def Obligations.FetchFaultsAreTaken : Prop :=
  (∀ (s u : State) (k : FaultKind), translate s (s.get .rip) permX = .error (.raise k u) →
    fetchAndExecute s = takeFault k u) ∧
  (∀ (s : State) (p : Word), translate s (s.get .rip) permX = .ok p → inZone s.cfg p.toNat 4 = false →
    fetchAndExecute s = takeFault .badMemory s) ∧
  (∀ (s : State) (p : Word) (n : Nat), translate s (s.get .rip) permX = .ok p → inZone s.cfg p.toNat 4 = true →
    literalWords (s.wordAt p.toNat) = some n → inZone s.cfg p.toNat (4 * (1 + n)) = false →
    fetchAndExecute s = takeFault .badMemory s)

/-! ## Copies -/

/-- `cpr` and `cpl` into a register the level may write: the value there, RIP past the instruction, nothing else changed
(R131, R132). -/
def Obligations.CopyWritesRegister : Prop :=
  ∀ (s : State) (id2 : Byte) (rb : Reg), decodeReg id2 = some rb → canWrite s.lowered rb = true →
    (∀ (id1 : Byte) (ra : Reg), decodeReg id1 = some ra → WritesRegister (.cpr (.reg id1) (.reg id2)) s rb (s.get ra)) ∧
    (∀ v : Word, WritesRegister (.cpl (.lit v) (.reg id2)) s rb v)

/-- `cpf` into a register: the word at the source address, which is operand 1's value; `cpf` from memory to memory: the word
the source held before the store, overlapping or not; a source or a destination address that does not resolve raises its
fault, the source's first (R133). -/
def Obligations.CopyFromMemory : Prop :=
  (∀ (s : State) (op1 : Operand) (sa : Word) (id2 : Byte) (rb : Reg) (p : Nat), valueOf s op1 = .ok sa →
    decodeReg id2 = some rb → canWrite s.lowered rb = true → dataAddr s sa permR = .ok p →
    WritesRegister (.cpf op1 (.reg id2)) s rb (s.wordAt p)) ∧
  (∀ (s : State) (op1 : Operand) (sa a2 : Word) (ps pd : Nat), valueOf s op1 = .ok sa → dataAddr s sa permR = .ok ps →
    dataAddr s a2 permW = .ok pd → WritesWord (.cpf op1 (.lit a2)) s pd (s.wordAt ps)) ∧
  (∀ (s u : State) (op1 : Operand) (sa : Word) (k : FaultKind), valueOf s op1 = .ok sa →
    dataAddr s sa permR = .error (.raise k u) →
    (∀ id2 rb, decodeReg id2 = some rb → canWrite s.lowered rb = true → exec (.cpf op1 (.reg id2)) s = takeFault k u) ∧
    (∀ a2, exec (.cpf op1 (.lit a2)) s = takeFault k u)) ∧
  (∀ (s u : State) (op1 : Operand) (sa a2 : Word) (ps : Nat) (k : FaultKind), valueOf s op1 = .ok sa →
    dataAddr s sa permR = .ok ps → dataAddr s a2 permW = .error (.raise k u) →
    exec (.cpf op1 (.lit a2)) s = takeFault k u)

/-- `cpr`, `cpl` to a literal address and `cpx` to the address a register holds: the word at the address, RIP past the
instruction, nothing else changed; an address that does not resolve raises its fault (R131, R132, R134). -/
def Obligations.StoresWriteOneWord : Prop :=
  (∀ (s : State) (id1 : Byte) (ra : Reg) (a : Word) (p : Nat), decodeReg id1 = some ra → dataAddr s a permW = .ok p →
    WritesWord (.cpr (.reg id1) (.lit a)) s p (s.get ra)) ∧
  (∀ (s : State) (v a : Word) (p : Nat), dataAddr s a permW = .ok p → WritesWord (.cpl (.lit v) (.lit a)) s p v) ∧
  (∀ (s : State) (id1 id2 : Byte) (ra rb : Reg) (p : Nat), decodeReg id1 = some ra → decodeReg id2 = some rb →
    dataAddr s (s.get rb) permW = .ok p → WritesWord (.cpx (.reg id1) (.reg id2)) s p (s.get ra)) ∧
  (∀ (s u : State) (a : Word) (k : FaultKind), dataAddr s a permW = .error (.raise k u) →
    (∀ id1 ra, decodeReg id1 = some ra → exec (.cpr (.reg id1) (.lit a)) s = takeFault k u) ∧
    (∀ v, exec (.cpl (.lit v) (.lit a)) s = takeFault k u) ∧
    (∀ id1 id2 ra rb, decodeReg id1 = some ra → decodeReg id2 = some rb → s.get rb = a →
      exec (.cpx (.reg id1) (.reg id2)) s = takeFault k u))

/-! ## The checks of every instruction -/

/-- R113: an operand kind outside the table raises BadOperandValue, before any other check of the instruction, and an
instruction whose kinds are in the table never raises it. -/
def Obligations.WrongOperandKindExactly : Prop :=
  ∀ (i : Instr) (s : State),
    (kindsAccepted i = false → exec i s = takeFault .badOperandValue s) ∧
    (kindsAccepted i = true → ∀ t, effect i s ≠ .error (.raise .badOperandValue t))

/-- R247: with its operand kinds and register ids in order, an instruction raises NoPrivilege exactly at the lowered level and
exactly for the operations of R247's table. -/
def Obligations.NoPrivilegeExactly : Prop :=
  ∀ (i : Instr) (s : State), kindsAccepted i = true → registersNamed i = true →
    (s.lowered = true → privilegeRefused i s = true → exec i s = takeFault .noPrivilege s) ∧
    ((s.lowered = false ∨ privilegeRefused i s = false) → ∀ t, effect i s ≠ .error (.raise .noPrivilege t))

/-- An instruction that raises a fault other than MachineCheck has written nothing: the fault is raised in the state the
instruction found, but for the latches of R42 and the host's answer it used up (log 9); and only `intr` and `ltsk` raise
MachineCheck (R108, R221). -/
def Obligations.FaultingInstructionWritesNothing : Prop :=
  ∀ (i : Instr) (s t : State) (k : FaultKind), effect i s = .error (.raise k t) →
    (k ≠ .machineCheck →
      t = { s with fltAddr := t.fltAddr, fltPerm := t.fltPerm, storageErrors := t.storageErrors }) ∧
    (k = .machineCheck → i = .ltsk ∨ ∃ v, i = .intr (.lit v))

/-- An invalid mode register raises BadRegisterValue once the operands and the privilege are in order, before any divisor is
looked at (R108 check 7, R141, R151, R180). -/
def Obligations.InvalidModeRaisesBadRegisterValue : Prop :=
  (∀ (s : State) (op1 op2 : Operand) (a b : Word), valueOf s op1 = .ok a → valueOf s op2 = .ok b →
    ((s.get .rcmp).toNat % 8 = 0 ∨ (s.get .rcmp).toNat % 8 = 7) →
    exec (.cmp op1 op2) s = takeFault .badRegisterValue s) ∧
  (∀ (s : State) (op1 : Operand) (a : Word) (id2 : Byte) (rd : Reg), valueOf s op1 = .ok a → decodeReg id2 = some rd →
    canWrite s.lowered rd = true → arithMode (s.get .rarth) = none →
    exec (.arth op1 (.reg id2)) s = takeFault .badRegisterValue s) ∧
  (∀ (s : State) (op1 : Operand) (a : Word) (id2 : Byte) (rd : Reg), valueOf s op1 = .ok a → decodeReg id2 = some rd →
    canWrite s.lowered rd = true → logicMode (s.get .rlgic) = none →
    exec (.lgic op1 (.reg id2)) s = takeFault .badRegisterValue s)

/-! ## Compare and control transfer -/

/-- `cmp`: RES is the relation RCMP.MODE names, unsigned, operand 1 on the left; every other bit of RCMP and everything else
but RIP stays (R141, R142). -/
def Obligations.CompareWritesRelation : Prop :=
  ∀ (s : State) (op1 op2 : Operand) (a b : Word) (m : Nat), valueOf s op1 = .ok a → valueOf s op2 = .ok b →
    m = (s.get .rcmp).toNat % 8 → 1 ≤ m → m ≤ 6 →
    ∃ t, exec (.cmp op1 op2) s = .next t ∧
      (t.res = true ↔ (m = 1 ∧ a.toNat = b.toNat) ∨ (m = 2 ∧ a.toNat ≠ b.toNat) ∨ (m = 3 ∧ a.toNat < b.toNat) ∨
        (m = 4 ∧ b.toNat < a.toNat) ∨ (m = 5 ∧ a.toNat ≤ b.toNat) ∨ (m = 6 ∧ b.toNat ≤ a.toNat)) ∧
      (∀ k, k ≠ 8 → (t.get .rcmp).getLsbD k = (s.get .rcmp).getLsbD k) ∧
      t.get .rip = s.get .rip + (Instr.cmp op1 op2).size ∧
      SameRegsBut s t [.rcmp, .rip] ∧ SameBytes s t ∧ SameElse s t

/-- R143: `jmp` goes to its operand's value if RES is set and to the next instruction if not, and changes nothing else; a bad
id is BadRegister whether or not the jump would be taken. -/
def Obligations.JumpFollowsResultBit : Prop :=
  (∀ (s : State) (op1 : Operand) (a : Word), valueOf s op1 = .ok a →
    OnlyMovesTo (.jmp op1) s (if s.res then a else s.get .rip + (Instr.jmp op1).size)) ∧
  (∀ (s : State) (id : Byte), decodeReg id = none → exec (.jmp (.reg id)) s = takeFault .badRegister s)

/-- R146: `call` stores the address after it at RRA, adds 4 to RRA and goes to its operand's value, at either level; a push
that does not resolve raises its fault. -/
def Obligations.CallPushesReturnAddress : Prop :=
  (∀ (s : State) (op1 : Operand) (a : Word) (p : Nat), valueOf s op1 = .ok a → dataAddr s (s.get .rra) permW = .ok p →
    ∃ t, exec (.call op1) s = .next t ∧ t.wordAt p = s.get .rip + (Instr.call op1).size ∧ t.get .rra = s.get .rra + 4 ∧
      t.get .rip = a ∧ SameRegsBut s t [.rra, .rip] ∧ SameBytesOutside s t p 4 ∧ SameElse s t) ∧
  (∀ (s : State) (id : Byte), decodeReg id = none → exec (.call (.reg id)) s = takeFault .badRegister s) ∧
  (∀ (s u : State) (op1 : Operand) (a : Word) (k : FaultKind), valueOf s op1 = .ok a →
    dataAddr s (s.get .rra) permW = .error (.raise k u) → exec (.call op1) s = takeFault k u)

/-- R147: `ret` reads the word below RRA, makes it RIP and subtracts 4 from RRA; a pop that does not resolve raises its fault,
one of three, with RRA and every other register unchanged. -/
def Obligations.ReturnPopsAddress : Prop :=
  (∀ (s : State) (p : Nat), dataAddr s (s.get .rra - 4) permR = .ok p →
    ∃ t, exec .ret s = .next t ∧ t.get .rip = s.wordAt p ∧ t.get .rra = s.get .rra - 4 ∧
      SameRegsBut s t [.rra, .rip] ∧ SameBytes s t ∧ SameElse s t) ∧
  (∀ (s u : State) (k : FaultKind), dataAddr s (s.get .rra - 4) permR = .error (.raise k u) →
    exec .ret s = takeFault k u ∧ (k = .noPage ∨ k = .pagePermission ∨ k = .badMemory) ∧ SameButLatches s u)

/-- A `call` followed by a `ret` leaves RIP after the call and RRA as it was, if the pushed word is still read where it was
pushed (R140, R146, R147). -/
def Obligations.CallThenReturn : Prop :=
  ∀ (s t : State) (op1 : Operand) (a : Word) (p : Nat), valueOf s op1 = .ok a → dataAddr s (s.get .rra) permW = .ok p →
    exec (.call op1) s = .next t → dataAddr t (s.get .rra) permR = .ok p →
    ∃ u, exec .ret t = .next u ∧ u.get .rip = s.get .rip + (Instr.call op1).size ∧ u.get .rra = s.get .rra ∧
      SameRegsBut s u [.rip]

/-! ## Arithmetic -/

/-- R153: how a 32-bit value becomes a value of the type and how a result goes back. -/
def Obligations.OperandConversion : Prop :=
  (∀ (n : Nat) (v : Word), n = 8 ∨ n = 16 ∨ n = 32 →
    IntShape.read ⟨n, false⟩ v = ((v.toNat % 2 ^ n : Nat) : Int) ∧ IntShape.read ⟨n, true⟩ v = (v.setWidth n).toInt) ∧
  (∀ v : Word, IntShape.read ⟨64, false⟩ v = (v.toNat : Int) ∧ IntShape.read ⟨64, true⟩ v = v.toInt) ∧
  (∀ (n : Nat) (signed : Bool) (r : Int), n = 8 ∨ n = 16 ∨ n = 32 →
    (∀ k, k < n → (IntShape.write ⟨n, signed⟩ r).getLsbD k = (BitVec.ofInt n r).getLsbD k) ∧
    (∀ k, n ≤ k → k < 32 → (IntShape.write ⟨n, signed⟩ r).getLsbD k = (signed && (BitVec.ofInt n r).msb))) ∧
  (∀ (signed : Bool) (r : Int), IntShape.write ⟨64, signed⟩ r = BitVec.ofInt 32 r)

/-- `arth` add, sub and mul without extension capture: the truncated result, OF exactly if the exact result is above the
type's maximum, UF exactly if it is below its minimum, and every other bit of RARTH kept (R150, R154 to R158). -/
def Obligations.AddSubMulResultAndFlags : Prop :=
  ∀ (s : State) (op1 : Operand) (a : Word) (id2 : Byte) (rd : Reg) (m : ArithMode) (ty : IntShape) (r : Int),
    valueOf s op1 = .ok a → decodeReg id2 = some rd → canWrite s.lowered rd = true →
    arithMode (s.get .rarth) = some m → m.type.shape = some ty → (m.type = .ulong → m.ext = none) →
    ((m.op = .add ∧ r = ty.read (s.get rd) + ty.read a) ∨ (m.op = .sub ∧ r = ty.read (s.get rd) - ty.read a) ∨
      (m.op = .mul ∧ r = ty.read (s.get rd) * ty.read a)) →
    ∃ t, exec (.arth op1 (.reg id2)) s = .next t ∧
      (rd ≠ .rarth → t.get rd = ty.write r) ∧
      (t.overflow = true ↔ ty.max < r) ∧ (t.underflow = true ↔ r < ty.min) ∧
      (∀ k, k ≠ 16 → k ≠ 17 → (t.get .rarth).getLsbD k =
        (if rd = .rarth then ty.write r else s.get .rarth).getLsbD k) ∧
      t.get .rip = s.get .rip + (Instr.arth op1 (.reg id2)).size ∧
      SameRegsBut s t [rd, .rarth, .rip] ∧ SameBytes s t ∧ SameElse s t

/-- `ulong` add, sub and mul with an extension register selected: the low half of the double-width result to the destination,
the upper half to the extension register, both flags cleared (R160). -/
def Obligations.ExtensionCapture : Prop :=
  ∀ (s : State) (op1 : Operand) (a : Word) (id2 : Byte) (rd re : Reg) (m : ArithMode) (i : Nat) (r : Int),
    valueOf s op1 = .ok a → decodeReg id2 = some rd → canWrite s.lowered rd = true →
    arithMode (s.get .rarth) = some m → m.type = .ulong → m.ext = some i →
    ((i = 1 ∧ re = .rae1) ∨ (i = 2 ∧ re = .rae2) ∨ (i = 3 ∧ re = .rae3) ∨ (i = 4 ∧ re = .rae4)) →
    ((m.op = .add ∧ r = ((s.get rd).toNat : Int) + a.toNat) ∨ (m.op = .sub ∧ r = ((s.get rd).toNat : Int) - a.toNat) ∨
      (m.op = .mul ∧ r = ((s.get rd).toNat : Int) * a.toNat)) →
    ∃ t, exec (.arth op1 (.reg id2)) s = .next t ∧
      t.get re = (BitVec.ofInt 64 r).extractLsb' 32 32 ∧
      (rd ≠ re → rd ≠ .rarth → t.get rd = (BitVec.ofInt 64 r).extractLsb' 0 32) ∧
      t.overflow = false ∧ t.underflow = false ∧
      (∀ k, k ≠ 16 → k ≠ 17 → (t.get .rarth).getLsbD k =
        (if rd = .rarth then (BitVec.ofInt 64 r).extractLsb' 0 32 else s.get .rarth).getLsbD k) ∧
      t.get .rip = s.get .rip + (Instr.arth op1 (.reg id2)).size ∧
      SameRegsBut s t [rd, re, .rarth, .rip] ∧ SameBytes s t ∧ SameElse s t

/-- `arth` div and mod with a divisor that is not zero in its type: the quotient toward zero and the remainder with the sign
of the dividend, truncated to the type, and no flag changed (R159). That this holds of the signed minimum over -1 too, whose
quotient wraps to the minimum with no fault, is the model's choice, U4's default (log 13). -/
def Obligations.DivisionTowardZero : Prop :=
  ∀ (s : State) (op1 : Operand) (a : Word) (id2 : Byte) (rd : Reg) (m : ArithMode) (ty : IntShape),
    valueOf s op1 = .ok a → decodeReg id2 = some rd → canWrite s.lowered rd = true →
    arithMode (s.get .rarth) = some m → m.type.shape = some ty → (m.op = .div ∨ m.op = .mod) → ty.read a ≠ 0 →
    ∃ q rem : Int, ty.read (s.get rd) = q * ty.read a + rem ∧ |rem| < |ty.read a| ∧
      (rem = 0 ∨ (rem < 0 ↔ ty.read (s.get rd) < 0)) ∧
      WritesRegister (.arth op1 (.reg id2)) s rd (ty.write (if m.op = .div then q else rem))

/-- A zero divisor, tested in the type: AluFault for the integer types, FpuFault for floating division by +0 or -0, raised
in the state the instruction found (R159, R172). -/
def Obligations.ZeroDivisorFaults : Prop :=
  ∀ (s : State) (op1 : Operand) (a : Word) (id2 : Byte) (rd : Reg) (m : ArithMode),
    valueOf s op1 = .ok a → decodeReg id2 = some rd → canWrite s.lowered rd = true →
    arithMode (s.get .rarth) = some m →
    (∀ ty, m.type.shape = some ty → (m.op = .div ∨ m.op = .mod) → ty.read a = 0 →
      exec (.arth op1 (.reg id2)) s = takeFault .aluFault s) ∧
    ((m.type = .f32 ∨ m.type = .f64) → m.op = .div → (a = 0x00000000 ∨ a = 0x80000000) →
      exec (.arth op1 (.reg id2)) s = takeFault .fpuFault s)

/-- What the mode registers select. RARTH is invalid (an operator outside 1 to 5, more than one extension bit, floating point
with LONG, with a width below 32 bits, or with modulo) or selects an operator by OPER, a type by FLOAT, LONG, SIGNED and
WIDTH, and an extension register by EXT; RLGIC is invalid (no operation bit at all, or two or more besides NOT) or selects
an operation by its bit, NOT by bit 0 and a width (R34, R35, R151, R152, R173, R180). -/
def Obligations.ModeRegistersExactly : Prop :=
  (∀ m : Word, arithMode m = none ↔
    (m.toNat % 8 = 0 ∨ 5 < m.toNat % 8) ∨ m.toNat / 256 % 16 ∉ [0, 1, 2, 4, 8] ∨
    (m.getLsbD 7 = true ∧ (m.getLsbD 6 = true ∨ m.toNat / 8 % 4 < 2 ∨ m.toNat % 8 = 5))) ∧
  (∀ (m : Word) (md : ArithMode), arithMode m = some md →
    (m.toNat % 8, md.op) ∈ [(1, ArithOp.add), (2, .sub), (3, .mul), (4, .div), (5, .mod)] ∧
    (m.toNat / 256 % 16, md.ext) ∈ [(0, none), (1, some 1), (2, some 2), (4, some 3), (8, some 4)] ∧
    (m.getLsbD 7 = false → m.getLsbD 6 = false →
      md.type.shape = some ⟨8 * 2 ^ (m.toNat / 8 % 4), m.getLsbD 5⟩ ∧ md.type ≠ .ulong ∧ md.type ≠ .slong) ∧
    (m.getLsbD 7 = false → m.getLsbD 6 = true →
      md.type = (if m.getLsbD 5 then .slong else .ulong) ∧ md.type.shape = some ⟨32, m.getLsbD 5⟩) ∧
    (m.getLsbD 7 = true → (m.toNat / 8 % 4, md.type) ∈ [(2, ArithType.f32), (3, .f64)])) ∧
  (∀ g : Word, logicMode g = none ↔
    g.toNat % 256 = 0 ∨ g.toNat % 256 / 2 ∉ [0, 1, 2, 4, 8, 16, 32, 64]) ∧
  (∀ (g : Word) (md : LogicMode), logicMode g = some md →
    (g.toNat % 256 / 2, md.op) ∈ [(0, none), (1, some LogicOp.xor), (2, some .and), (4, some .or), (8, some .shl),
      (16, some .shr), (32, some .rol), (64, some .ror)] ∧
    md.not = g.getLsbD 0 ∧ md.width.bits = 8 * 2 ^ (g.toNat / 256 % 4))

/-! ## Floating point -/

/-- Single precision: the destination gets the rounded result's pattern or, where the operation is invalid, some NaN, whichever
it is; no flag changes (R170). -/
def Obligations.SinglePrecisionResult : Prop :=
  ∀ (s : State) (op1 : Operand) (a : Word) (id2 : Byte) (rd : Reg) (m : ArithMode),
    valueOf s op1 = .ok a → decodeReg id2 = some rd → canWrite s.lowered rd = true →
    arithMode (s.get .rarth) = some m → m.type = .f32 → ¬ (m.op = .div ∧ (a = 0x00000000 ∨ a = 0x80000000)) →
    ∃ t, exec (.arth op1 (.reg id2)) s = .next t ∧
      (∀ bits, binary32.compute m.op (readFloat (s.get rd)) (readFloat a) = some bits → t.get rd = BitVec.ofNat 32 bits) ∧
      (binary32.compute m.op (readFloat (s.get rd)) (readFloat a) = none → readFloat (t.get rd) = .nan) ∧
      t.get .rip = s.get .rip + (Instr.arth op1 (.reg id2)).size ∧
      SameRegsBut s t [rd, .rip] ∧ SameBytes s t ∧ t = { s with regs := t.regs, draws := t.draws }

/-- What a binary32 pattern stands for, and IEEE 754's special operations, in both formats (R170, R171). The result is a NaN
exactly for a NaN operand, infinities that cancel, zero times an infinity and an infinity over an infinity; any other
operation on an infinity gives the infinity of the sign shown, or, for a number over an infinity, the zero of the sign
shown. The operands are any values but a zero divisor. -/
def Obligations.SpecialFloatOperations : Prop :=
  (∀ v : Word,
    (v.toNat / 2 ^ 23 % 256 = 255 → readFloat v = if v.toNat % 2 ^ 23 = 0 then .infinite v.msb else .nan) ∧
    (v.toNat / 2 ^ 23 % 256 = 0 → readFloat v = .finite v.msb (v.toNat % 2 ^ 23) (-149)) ∧
    (∀ e, v.toNat / 2 ^ 23 % 256 = e → 1 ≤ e → e ≤ 254 →
      readFloat v = .finite v.msb (2 ^ 23 + v.toNat % 2 ^ 23) ((e : Int) - 150))) ∧
  (∀ (f : FloatFormat) (x y : FloatValue),
    (f.compute .add x y = none ↔ x = .nan ∨ y = .nan ∨ ∃ b, x = .infinite b ∧ y = .infinite (!b)) ∧
    (f.compute .sub x y = none ↔ x = .nan ∨ y = .nan ∨ ∃ b, x = .infinite b ∧ y = .infinite b) ∧
    (f.compute .mul x y = none ↔ x = .nan ∨ y = .nan ∨
      (∃ b c e, x = .infinite b ∧ y = .finite c 0 e) ∨ (∃ b c e, x = .finite c 0 e ∧ y = .infinite b)) ∧
    ((∀ c e, y ≠ .finite c 0 e) →
      (f.compute .div x y = none ↔ x = .nan ∨ y = .nan ∨ ∃ b c, x = .infinite b ∧ y = .infinite c))) ∧
  (∀ (f : FloatFormat) (inf sign : Nat) (b c : Bool) (m : Nat) (e : Int),
    (f = binary32 ∧ inf = 0x7F800000 ∧ sign = 0x80000000) ∨
      (f = binary64 ∧ inf = 0x7FF0000000000000 ∧ sign = 0x8000000000000000) →
    f.compute .add (.infinite b) (.infinite b) = some (if b then sign + inf else inf) ∧
    f.compute .add (.infinite b) (.finite c m e) = some (if b then sign + inf else inf) ∧
    f.compute .add (.finite c m e) (.infinite b) = some (if b then sign + inf else inf) ∧
    f.compute .sub (.infinite b) (.infinite (!b)) = some (if b then sign + inf else inf) ∧
    f.compute .sub (.infinite b) (.finite c m e) = some (if b then sign + inf else inf) ∧
    f.compute .sub (.finite c m e) (.infinite b) = some (if b then inf else sign + inf) ∧
    f.compute .mul (.infinite b) (.infinite c) = some (if b = c then inf else sign + inf) ∧
    (m ≠ 0 → f.compute .mul (.infinite b) (.finite c m e) = some (if b = c then inf else sign + inf)) ∧
    (m ≠ 0 → f.compute .mul (.finite c m e) (.infinite b) = some (if b = c then inf else sign + inf)) ∧
    (m ≠ 0 → f.compute .div (.infinite b) (.finite c m e) = some (if b = c then inf else sign + inf)) ∧
    f.compute .div (.finite c m e) (.infinite b) = some (if b = c then 0 else sign))

/-- The rounding of a quotient is to the nearest integer, and to the even one on a tie; and a number that is a binary32
number rounds to its own pattern, subnormal numbers, zeros and signs included (R170, G1, G2). -/
def Obligations.RoundsToNearestEven : Prop :=
  (∀ num den : Nat, 0 < den →
    2 * |(num : Int) - roundHalfEven num den * den| ≤ den ∧
    (2 * |(num : Int) - roundHalfEven num den * den| = den → roundHalfEven num den % 2 = 0)) ∧
  (∀ (v : Word) (neg : Bool) (mant : Nat) (e : Int), readFloat v = .finite neg mant e →
    binary32.round neg mant 1 e = v.toNat)

/-- R170's single precision is IEEE 754's, and so is R171's default, binary64 arithmetic on binary32 operands: the result of
add, sub, mul and div of numbers is the format's number nearest to the exact result, the even one of two equally near, and
an infinity if the exact result is as far from zero as half a last place beyond the largest number, or farther. Its sign is
the exact result's; a result that is exactly zero is negative for mul and div if one operand is, for add if both are, and
for sub if the destination's value is and the source's is not. -/
def Obligations.FloatResultIsNearest : Prop :=
  ∀ (f : FloatFormat) (n E : Nat) (op : ArithOp) (d a : Word) (z : ℚ),
    (f = binary32 ∧ n = 32 ∧ E = 128) ∨ (f = binary64 ∧ n = 64 ∧ E = 1024) →
    (readFloat d).isFinite = true → (readFloat a).isFinite = true →
    ((op = .add ∧ z = (readFloat d).value + (readFloat a).value) ∨
      (op = .sub ∧ z = (readFloat d).value - (readFloat a).value) ∨
      (op = .mul ∧ z = (readFloat d).value * (readFloat a).value) ∨
      (op = .div ∧ (readFloat a).value ≠ 0 ∧ z = (readFloat d).value / (readFloat a).value)) →
    ∃ bits : Nat, f.compute op (readFloat d) (readFloat a) = some bits ∧ bits < 2 ^ n ∧
      (z ≠ 0 → (bits.testBit (n - 1) = true ↔ z < 0)) ∧
      (z = 0 → bits.testBit (n - 1) =
        (match op with
          | .add => d.msb && a.msb
          | .sub => d.msb && !a.msb
          | _ => d.msb != a.msb)) ∧
      ((2 : ℚ) ^ E - 2 ^ (E - f.prec - 1) ≤ |z| → f.decode bits = .infinite (decide (z < 0))) ∧
      (|z| < (2 : ℚ) ^ E - 2 ^ (E - f.prec - 1) → (f.decode bits).isFinite = true ∧
        ∀ v : Nat, v < 2 ^ n → (f.decode v).isFinite = true →
          |z - (f.decode bits).value| ≤ |z - (f.decode v).value| ∧
          (|z - (f.decode bits).value| = |z - (f.decode v).value| →
            (f.decode v).value = (f.decode bits).value ∨ bits % 2 = 0))

/-- Double precision: the low half of FPU_DOUBLE's result to the destination, the upper half to the selected RFP register,
whatever FPU_DOUBLE is; no flag changes. With R171's default FPU_DOUBLE is the binary64 operation on the two binary32
values, and where that is invalid some NaN, whichever it is (R171; log 7 for the choice of FPU_DOUBLE). -/
def Obligations.DoublePrecisionSplit : Prop :=
  ∀ (s : State) (op1 : Operand) (a : Word) (id2 : Byte) (rd : Reg) (m : ArithMode) (w : BitVec 64),
    valueOf s op1 = .ok a → decodeReg id2 = some rd → canWrite s.lowered rd = true →
    arithMode (s.get .rarth) = some m → m.type = .f64 → ¬ (m.op = .div ∧ (a = 0x00000000 ∨ a = 0x80000000)) →
    w = fpuDouble s.cfg.double m.op a (s.get rd) →
    (m.ext = none → WritesRegister (.arth op1 (.reg id2)) s rd (w.extractLsb' 0 32)) ∧
    (∀ i rf, m.ext = some i →
      ((i = 1 ∧ rf = .rfp1) ∨ (i = 2 ∧ rf = .rfp2) ∨ (i = 3 ∧ rf = .rfp3) ∨ (i = 4 ∧ rf = .rfp4)) →
      ∃ t, exec (.arth op1 (.reg id2)) s = .next t ∧ t.get rf = w.extractLsb' 32 32 ∧
        (rd ≠ rf → t.get rd = w.extractLsb' 0 32) ∧
        t.get .rip = s.get .rip + (Instr.arth op1 (.reg id2)).size ∧
        SameRegsBut s t [rd, rf, .rip] ∧ SameBytes s t ∧ SameElse s t) ∧
    (s.cfg.double = .widen →
      (∀ bits, binary64.compute m.op (readFloat (s.get rd)) (readFloat a) = some bits → w = BitVec.ofNat 64 bits) ∧
      (binary64.compute m.op (readFloat (s.get rd)) (readFloat a) = none → binary64.decode w.toNat = .nan))

/-! ## Logic -/

/-- `lgic`: the operation RLGIC selects, at its width, complemented within the width if NOT is set, its low 32 bits to the
destination; no flag (R180). -/
def Obligations.LogicWritesResult : Prop :=
  ∀ (s : State) (op1 : Operand) (a : Word) (id2 : Byte) (rd : Reg) (m : LogicMode) (r : Nat),
    valueOf s op1 = .ok a → decodeReg id2 = some rd → canWrite s.lowered rd = true →
    logicMode (s.get .rlgic) = some m →
    (∀ n, n = m.width.bits →
      r = (match m.op with
        | none => a.toNat % 2 ^ n
        | some op => (op.apply n ((s.get rd).setWidth n) (a.setWidth n)).toNat)) →
    WritesRegister (.lgic op1 (.reg id2)) s rd
      (BitVec.ofNat 32 (if m.not then 2 ^ m.width.bits - 1 - r else r))

/-- R181's table: the seven operations on n-bit values. A rotate moves bit j to bit (j + A) mod n, or back. That a shift by n or
more gives 0 is the model's choice, U6's default (R182, log 14). -/
def Obligations.LogicOperationTable : Prop :=
  ∀ (n : Nat) (d a : BitVec n), 0 < n →
    (LogicOp.xor.apply n d a).toNat = d.toNat ^^^ a.toNat ∧
    (LogicOp.and.apply n d a).toNat = d.toNat &&& a.toNat ∧
    (LogicOp.or.apply n d a).toNat = d.toNat ||| a.toNat ∧
    (LogicOp.shl.apply n d a).toNat = (if a.toNat < n then d.toNat * 2 ^ a.toNat % 2 ^ n else 0) ∧
    (LogicOp.shr.apply n d a).toNat = (if a.toNat < n then d.toNat / 2 ^ a.toNat else 0) ∧
    (∀ j, j < n → (LogicOp.rol.apply n d a).getLsbD ((j + a.toNat) % n) = d.getLsbD j) ∧
    (∀ j, j < n → (LogicOp.ror.apply n d a).getLsbD j = d.getLsbD ((j + a.toNat) % n))

/-! ## System -/

/-- `nop` and `rsv` at either level, `ltsk` with task registers off, and `intr 0x0D` at the elevated level advance RIP and
change nothing else (R204, R210, R211, R212). -/
def Obligations.NoOperationsOnlyAdvance : Prop :=
  ∀ s : State, OnlyMovesTo .nop s (s.get .rip + 4) ∧ OnlyMovesTo .rsv s (s.get .rip + 4) ∧
    (s.taskRegs = false → OnlyMovesTo .ltsk s (s.get .rip + 4)) ∧
    (s.lowered = false → OnlyMovesTo (.intr (.lit 0x0D)) s (s.get .rip + 8))

/-- R196: vector-install at the elevated level writes the slot RGP1 names, if it can be installed, and no other; any other
number is IllegalInterrupt. -/
def Obligations.VectorInstall : Prop :=
  ∀ (s : State) (n : Nat), s.lowered = false → n = (s.get .rgp1).toNat →
    ((32 ≤ n ∧ n ≤ 127) ∨ n = 0x09 ∨ n = 0x10 →
      ∃ t, exec (.intr (.lit 0x01)) s = .next t ∧ t.slot n = ⟨(s.get .rgp3).getLsbD 0, s.get .rgp2⟩ ∧
        (∀ v, v ≠ n → t.slot v = s.slot v) ∧ t.get .rip = s.get .rip + 8 ∧ SameRegsBut s t [.rip] ∧ SameBytes s t ∧
        t = { s with regs := t.regs, ivt := t.ivt }) ∧
    (¬ ((32 ≤ n ∧ n ≤ 127) ∨ n = 0x09 ∨ n = 0x10) →
      exec (.intr (.lit 0x01)) s = takeFault .illegalInterrupt s)

/-- Halt (R198) and display (R200) at the elevated level: RIP advanced, and RUN Halted, or one byte more at the display. -/
def Obligations.HaltAndDisplay : Prop :=
  ∀ s : State, s.lowered = false →
    (∃ t, exec (.intr (.lit 0x03)) s = .next t ∧ t.run = .halted ∧ t.get .rip = s.get .rip + 8 ∧
      SameRegsBut s t [.rip] ∧ SameBytes s t ∧ t = { s with regs := t.regs, run := t.run }) ∧
    (∃ t, exec (.intr (.lit 0x0A)) s = .next t ∧ t.display = s.display ++ [(s.get .rgp1).setWidth 8] ∧
      t.get .rip = s.get .rip + 8 ∧ SameRegsBut s t [.rip] ∧ SameBytes s t ∧
      t = { s with regs := t.regs, display := t.display })

/-- A storage read that the port does not fail: the device's bytes in memory, in device order, nothing else changed; the
offset is 64 bits in the extended form (R202, R264). That the host's own answer comes from a list in State is the model's
choice (log 9). -/
def Obligations.StorageReadFillsMemory : Prop :=
  ∀ (s : State) (p : Word) (dev off len : Nat) (d : Device), s.lowered = false → (s.get .rgp1).getLsbD 0 = false →
    dev = (s.get .rgp2).toNat → len = (s.get .rgp4).toNat →
    off = (if (s.get .rgp1).getLsbD 1 then (s.get .rgp6).toNat * 2 ^ 32 else 0) + (s.get .rgp5).toNat →
    translate s (s.get .rgp3) permW = .ok p → inZone s.cfg p.toNat len = true →
    dev < s.cfg.ndev → s.storage[dev]? = some d → off + len ≤ d.size → s.storageErrors.head? ≠ some true →
    ∃ t, exec (.intr (.lit 0x0B)) s = .next t ∧
      (∀ k, k < len → t.byteAt (p.toNat + k) = storageByteAt s dev (off + k)) ∧
      t.get .rip = s.get .rip + 8 ∧ SameRegsBut s t [.rip] ∧ SameBytesOutside s t p.toNat len ∧
      t = { s with regs := t.regs, mem := t.mem, storageErrors := s.storageErrors.tail }

/-- A storage write that the port does not fail: memory's bytes in the device, every other byte of every device as it was, as
many devices of the same sizes, memory unchanged (R202, R264; log 9 as for the read). -/
def Obligations.StorageWriteFillsDevice : Prop :=
  ∀ (s : State) (p : Word) (dev off len : Nat) (d : Device), s.lowered = false → (s.get .rgp1).getLsbD 0 = true →
    dev = (s.get .rgp2).toNat → len = (s.get .rgp4).toNat →
    off = (if (s.get .rgp1).getLsbD 1 then (s.get .rgp6).toNat * 2 ^ 32 else 0) + (s.get .rgp5).toNat →
    translate s (s.get .rgp3) permR = .ok p → inZone s.cfg p.toNat len = true →
    dev < s.cfg.ndev → s.storage[dev]? = some d → off + len ≤ d.size → s.storageErrors.head? ≠ some true →
    ∃ t, exec (.intr (.lit 0x0B)) s = .next t ∧
      (∀ k, k < len → storageByteAt t dev (off + k) = s.byteAt (p.toNat + k)) ∧
      (∀ dev' k, dev' ≠ dev ∨ k < off ∨ off + len ≤ k → storageByteAt t dev' k = storageByteAt s dev' k) ∧
      t.storage.map Device.size = s.storage.map Device.size ∧
      t.get .rip = s.get .rip + 8 ∧ SameRegsBut s t [.rip] ∧ SameBytes s t ∧
      t = { s with regs := t.regs, storage := t.storage, storageErrors := s.storageErrors.tail }

/-- A storage transfer whose buffer is in order and whose device id, range or host fails it: IoFault with no byte moved; a
buffer that does not resolve, or not wholly in the normal zone, raises its fault before the port is asked (R202, R264;
log 9 as for the read). -/
def Obligations.StorageFailureIsIoFault : Prop :=
  ∀ (s : State) (perm : BitVec 3), s.lowered = false → perm = (if (s.get .rgp1).getLsbD 0 then permR else permW) →
    (∀ (p : Word) (dev off len : Nat), dev = (s.get .rgp2).toNat → len = (s.get .rgp4).toNat →
      off = (if (s.get .rgp1).getLsbD 1 then (s.get .rgp6).toNat * 2 ^ 32 else 0) + (s.get .rgp5).toNat →
      translate s (s.get .rgp3) perm = .ok p → inZone s.cfg p.toNat len = true →
      (s.cfg.ndev ≤ dev ∨ (∃ d, s.storage[dev]? = some d ∧ d.size < off + len) ∨ s.storageErrors.head? = some true) →
      exec (.intr (.lit 0x0B)) s = takeFault .ioFault { s with storageErrors := s.storageErrors.tail }) ∧
    (∀ p : Word, translate s (s.get .rgp3) perm = .ok p → inZone s.cfg p.toNat (s.get .rgp4).toNat = false →
      exec (.intr (.lit 0x0B)) s = takeFault .badMemory s) ∧
    (∀ (u : State) (k : FaultKind), translate s (s.get .rgp3) perm = .error (.raise k u) →
      exec (.intr (.lit 0x0B)) s = takeFault k u)

/-- Timer-arm at the elevated level: the timer is armed; with the pool full or the host refusing, the machine terminates by
MachineCheck with RIP at the instruction (R205, R223, R265; log 9 for the host's refusal). -/
def Obligations.TimerArm : Prop :=
  ∀ s : State, s.lowered = false →
    (s.armed.length < s.cfg.timerPool → s.timerRefusals.head? ≠ some true →
      ∃ t, exec (.intr (.lit 0x0F)) s = .next t ∧ t.armed = s.armed ++ [⟨(s.get .rgp1).setWidth 8, s.get .rgp2⟩] ∧
        t.get .rip = s.get .rip + 8 ∧ SameRegsBut s t [.rip] ∧ SameBytes s t ∧
        t = { s with regs := t.regs, armed := t.armed, timerRefusals := s.timerRefusals.tail }) ∧
    (s.cfg.timerPool ≤ s.armed.length ∨ s.timerRefusals.head? = some true →
      ∃ t, exec (.intr (.lit 0x0F)) s = .next t ∧ t.run = .terminated .machineCheck ∧ t.armed = s.armed ∧
        t.get .rff = s.get .rff ||| 1 ∧ SameRegsBut s t [.rff] ∧ SameBytes s t)

/-- `intr 0x09` and `intr 0x10` at the elevated level: with the queue empty a no-op; with an element pending the oldest is
taken and goes to RGP1, and with a handler installed the handler is entered: with task registers off RIP is the handler, with
them on every outcome of the task switch is R233's, from the state with RIP past the instruction and RGP1 overwritten
(R206, R223, R233, R251). That RGP1 is written with no handler installed is the model's choice (log 15). -/
def Obligations.EventVectorsBySoftware : Prop :=
  ∀ s : State, s.lowered = false →
    (s.kbd = [] → OnlyMovesTo (.intr (.lit 0x09)) s (s.get .rip + 8)) ∧
    (s.tmr = [] → OnlyMovesTo (.intr (.lit 0x10)) s (s.get .rip + 8)) ∧
    (∀ c rest, s.kbd = c :: rest → (s.slot 0x09).handler = 0 ∨ s.taskRegs = false →
      ∃ t, exec (.intr (.lit 0x09)) s = .next t ∧ t.get .rgp1 = c ∧ t.kbd = rest ∧
        t.get .rip = (if (s.slot 0x09).handler = 0 then s.get .rip + 8 else (s.slot 0x09).handler) ∧
        SameRegsBut s t [.rgp1, .rip] ∧ SameBytes s t ∧ t = { s with regs := t.regs, kbd := t.kbd }) ∧
    (∀ c rest, s.tmr = c :: rest → (s.slot 0x10).handler = 0 ∨ s.taskRegs = false →
      ∃ t, exec (.intr (.lit 0x10)) s = .next t ∧ (t.get .rgp1).toNat = c.toNat ∧ t.tmr = rest ∧
        t.get .rip = (if (s.slot 0x10).handler = 0 then s.get .rip + 8 else (s.slot 0x10).handler) ∧
        SameRegsBut s t [.rgp1, .rip] ∧ SameBytes s t ∧ t = { s with regs := t.regs, tmr := t.tmr }) ∧
    (∀ c rest, s.kbd = c :: rest → (s.slot 0x09).handler ≠ 0 → s.taskRegs = true →
      TaskTrap ((({ s with kbd := rest } : State).set .rip (s.get .rip + 8)).set .rgp1 c) (s.slot 0x09).handler
        (exec (.intr (.lit 0x09)) s)) ∧
    (∀ c rest, s.tmr = c :: rest → (s.slot 0x10).handler ≠ 0 → s.taskRegs = true →
      TaskTrap ((({ s with tmr := rest } : State).set .rip (s.get .rip + 8)).set .rgp1 (BitVec.ofNat 32 c.toNat))
        (s.slot 0x10).handler (exec (.intr (.lit 0x10)) s))

/-- A number that is no inline vector. Installed, with task registers off: a bare jump to the handler, allowed if the level is
at most the slot's flag. Not installed, 0, or above 127: IllegalInterrupt, at either level (R190, R208, R230, R233). -/
def Obligations.TableVectors : Prop :=
  ∀ (s : State) (v : Word), inlineNumber v = false →
    (1 ≤ v.toNat → v.toNat ≤ 127 → (s.slot v.toNat).handler ≠ 0 → (s.lowered = false ∨ (s.slot v.toNat).priv = true) →
      s.taskRegs = false → OnlyMovesTo (.intr (.lit v)) s (s.slot v.toNat).handler) ∧
    (v.toNat = 0 ∨ 127 < v.toNat ∨ (s.slot v.toNat).handler = 0 →
      exec (.intr (.lit v)) s = takeFault .illegalInterrupt s)

/-- A table vector with task registers on, allowed by its slot. With both task pointers in order the interrupted context is in
the current task's structure, all 28 registers, RIP the address after the `intr`; the 9 base-set registers are the base
task's, RIP is the handler, and every other register stays. With a current or a base task that does not resolve, or a base
task at the lowered level, the machine terminates by MachineCheck, RIP advanced, with what was saved and loaded by then
(R223, R230, R233, R240, R241, R243). -/
def Obligations.TableVectorSwitchesTasks : Prop :=
  ∀ (s : State) (v : Word), inlineNumber v = false →
    1 ≤ v.toNat → v.toNat ≤ 127 → (s.slot v.toNat).handler ≠ 0 → (s.lowered = false ∨ (s.slot v.toNat).priv = true) →
    s.taskRegs = true → TaskTrap (s.set .rip (s.get .rip + 8)) (s.slot v.toNat).handler (exec (.intr (.lit v)) s)

/-- `ltsk` with task registers on, at the elevated level, with both task pointers in order: the 9 base-set words stored at RBT
and no other word of that structure, then all 28 registers loaded from RCT's structure, RIP among them. With a base task
that does not resolve the machine terminates by MachineCheck and nothing is saved or loaded; with a current task that does
not, the 9 words are stored (R212, R223, R240, R242, R244). -/
def Obligations.LoadTask : Prop :=
  ∀ s : State, s.taskRegs = true → s.lowered = false →
    (∀ p q : Nat, taskAddr s (s.get .rbt) = .ok p → taskAddr (saveRegs Reg.baseSet p s) (s.get .rct) = .ok q →
      ∃ t, exec .ltsk s = .next t ∧ (∀ r, t.get r = t.wordAt (q + r.offset)) ∧
        (∀ r, t.wordAt (p + r.offset) = if r ∈ Reg.baseSet then s.get r else s.wordAt (p + r.offset)) ∧
        SameBytesOutside s t p 112 ∧ SameElse s t) ∧
    (∀ (j : FaultKind) (u : State), taskAddr s (s.get .rbt) = .error (.raise j u) →
      ∃ t, exec .ltsk s = .next t ∧ t.run = .terminated .machineCheck ∧ t.get .rff = s.get .rff ||| 1 ∧
        SameRegsBut s t [.rff] ∧ SameBytes s t) ∧
    (∀ (p : Nat) (j : FaultKind) (u : State), taskAddr s (s.get .rbt) = .ok p →
      taskAddr (saveRegs Reg.baseSet p s) (s.get .rct) = .error (.raise j u) →
      ∃ t, exec .ltsk s = .next t ∧ t.run = .terminated .machineCheck ∧ t.get .rff = s.get .rff ||| 1 ∧
        SameRegsBut s t [.rff] ∧ (∀ r, r ∈ Reg.baseSet → t.wordAt (p + r.offset) = s.get r) ∧ SameBytesOutside s t p 112)

/-! ## Faults, traps and events -/

/-- A fault with task registers off: its bit is added to RFF, by the table of R28; with fault handling on RIP becomes RFA,
with it off the machine terminates with RIP where it was; nothing else changes (R28, R221, R222). -/
def Obligations.FaultWithoutTaskRegisters : Prop :=
  ∀ (s : State) (k : FaultKind), k ≠ .machineCheck → s.taskRegs = false →
    ∃ t, takeFault k s = .next t ∧ t.get .rff = s.get .rff ||| rffMask k ∧
      SameRegsBut s t [.rff, .rip] ∧ SameBytes s t ∧
      (s.faultHandling = true → t.get .rip = s.get .rfa ∧ t = { s with regs := t.regs }) ∧
      (s.faultHandling = false → t.get .rip = s.get .rip ∧ t = { s with regs := t.regs, run := .terminated k })

/-- A fault with task registers on and both task pointers in order: all 28 registers of the faulting context are in the current
task's structure, RIP that of the faulting instruction; the 9 base-set registers are the base task's; RFF has the kind's
bit, by the table of R28, added to its old value; RFA and FH are the base task's (R28, R221, R222, R241, R243). -/
def Obligations.FaultSwitchesTasks : Prop :=
  ∀ (s : State) (k : FaultKind) (p q : Nat), k ≠ .machineCheck → s.taskRegs = true →
    taskAddr s (s.get .rct) = .ok p → taskAddr (saveRegs Reg.all p s) (s.get .rbt) = .ok q →
    (baseWord s p q .rst).getLsbD 0 = false →
    ∃ t, takeFault k s = .next t ∧ SavedAt s t p ∧
      (∀ r, r ∈ Reg.baseSet → t.get r = baseWord s p q r) ∧ t.get .rff = s.get .rff ||| rffMask k ∧
      SameRegsBut s t (.rip :: .rff :: Reg.baseSet) ∧
      t.get .rip = (if (baseWord s p q .rst).getLsbD 2 then baseWord s p q .rfa else s.get .rip) ∧
      t.run = (if (baseWord s p q .rst).getLsbD 2 then s.run else .terminated k) ∧
      t = { s with regs := t.regs, mem := t.mem, run := t.run }

/-- MachineCheck terminates unconditionally: its bit is set, no task switch, no redirection, whatever RST holds. With task
registers on, a fault whose task switch cannot be made ends in MachineCheck: bit 0 of RFF is added and the fault's own bit
is not. With a current task that does not resolve nothing is saved; with a base task that does not, the context is saved and
nothing is loaded; with a base task at the lowered level the 9 registers are loaded (R28, R222, R223, R240, R243). -/
def Obligations.MachineCheckTerminates : Prop :=
  (∀ s : State, ∃ t, takeFault .machineCheck s = .next t ∧ t.get .rff = s.get .rff ||| 0x0001 ∧ SameRegsBut s t [.rff] ∧
    SameBytes s t ∧ t = { s with regs := t.regs, run := .terminated .machineCheck }) ∧
  (∀ (s : State) (k : FaultKind), k ≠ .machineCheck → s.taskRegs = true → SwitchFails s (takeFault k s))

/-- What a save put into the current task's structure, a later load from there brings back, all 28 registers, if memory has not
changed since and RCT then resolves to the same structure, with paging on or off (R241, R244, R245). -/
def Obligations.SavedContextIsRestored : Prop :=
  ∀ (s : State) (p : Nat), taskAddr s (s.get .rct) = .ok p →
    ∃ t, saveCurrent s = .ok t ∧
      ∀ u : State, u.mem = t.mem → taskAddr u (u.get .rct) = .ok p → ∃ v, loadCurrent u = .ok v ∧ ∀ r, v.get r = s.get r

/-- R251: delivering an event writes its code to RGP1 whether or not a handler is installed, and enters the handler if one is:
with task registers off a bare jump, with them on by the task switch of R233, each outcome of it, from the state with RGP1
already overwritten (R223, R233, R251). That the code goes to RGP1 with no handler installed is the model's choice, U8's
default (log 15). -/
def Obligations.DeliverEvent : Prop :=
  ∀ (v : Nat) (c : Word) (s : State),
    ((s.slot v).handler = 0 → deliver v c s = .ok (s.set .rgp1 c)) ∧
    ((s.slot v).handler ≠ 0 → s.taskRegs = false →
      ∃ t, deliver v c s = .ok t ∧ t.get .rgp1 = c ∧ t.get .rip = (s.slot v).handler ∧
        SameRegsBut s t [.rgp1, .rip] ∧ SameBytes s t ∧ SameElse s t) ∧
    ((s.slot v).handler ≠ 0 → s.taskRegs = true →
      TaskTrap (s.set .rgp1 c) (s.slot v).handler (settle (deliver v c s)))

/-- R250: while the machine runs the poll takes the oldest keyboard code and delivers it by vector 0x09; with no code left it
takes the oldest timer id and delivers it, zero-extended, by vector 0x10; after a delivery it goes on from the state that
left; with both queues empty, or the machine not running, it ends. So a poll that leaves the machine running has drained
both queues. External events go to the back of their queues in the order they come, each timer that fires was armed and is
armed no more, and an event changes nothing else (R7, R44, R205); that they come from a schedule in State is the model's
choice (log 8). -/
def Obligations.PollDeliversInOrder : Prop :=
  (∀ s : State,
    (∀ c rest, s.run = .running → s.kbd = c :: rest →
      poll s = thenPoll (settle (deliver 0x09 c { s with kbd := rest }))) ∧
    (∀ c rest, s.run = .running → s.kbd = [] → s.tmr = c :: rest →
      poll s = thenPoll (settle (deliver 0x10 (BitVec.ofNat 32 c.toNat) { s with tmr := rest }))) ∧
    (s.kbd = [] → s.tmr = [] → poll s = .next s) ∧
    (s.run ≠ .running → poll s = .next s)) ∧
  (∀ s t : State, poll s = .next t → t.run = .running → t.kbd = [] ∧ t.tmr = []) ∧
  (∀ (s t : State) (evs : List Event), t = evs.foldl arrive s →
    t.kbd = s.kbd ++ keyCodes evs ∧
    (∃ fired, t.tmr = s.tmr ++ fired.map Timer.id ∧ (fired ++ t.armed).Perm s.armed) ∧
    t = { s with kbd := t.kbd, tmr := t.tmr, armed := t.armed }) ∧
  (∀ (s : State) (n : Nat) (x : Timer), s.armed[n]? = some x →
    (arrive s (.fire n)).tmr = s.tmr ++ [x.id] ∧ (arrive s (.fire n)).armed = s.armed.eraseIdx n)

/-! ## Paging -/

/-- R76: with paging off the address itself; with paging on, the first descriptor on the list that covers the address decides,
however long the list; with none, NoPage; with a descriptor outside the normal zone before any that covers it, BadMemory;
the latches record what R76 says. A data access then makes the zone check of R62, with paging on or off (R71). -/
def Obligations.FirstMatchDecides : Prop :=
  (∀ (s : State) (a : Word) (perm : BitVec 3), s.paging = false → translate s a perm = .ok a) ∧
  (∀ (s : State) (a : Word) (perm : BitVec 3) (ds : List Word) (d : Word), s.paging = true →
    Linked s (s.get .rpa) ds d → NoneCovers s ds a →
    (d ≠ 0 → inZone s.cfg d.toNat 24 = true → (readDesc s d.toNat).covers a = true →
      ((readDesc s d.toNat).allows perm = true →
        translate s a perm = .ok ((readDesc s d.toNat).paddr + (a - (readDesc s d.toNat).laddr))) ∧
      ((readDesc s d.toNat).allows perm = false →
        translate s a perm = raise .pagePermission { s with fltAddr := a, fltPerm := perm })) ∧
    (d = 0 → translate s a perm = raise .noPage { s with fltAddr := a }) ∧
    (d ≠ 0 → inZone s.cfg d.toNat 24 = false → translate s a perm = raise .badMemory s)) ∧
  (∀ (s : State) (a p : Word) (perm : BitVec 3), translate s a perm = .ok p →
    (s.cfg.ivtZone ≤ p.toNat ∧ p.toNat + 4 ≤ s.cfg.ram → dataAddr s a perm = .ok p.toNat) ∧
    (p.toNat < s.cfg.ivtZone ∨ s.cfg.ram < p.toNat + 4 → dataAddr s a perm = raise .badMemory s))

/-- A translation hangs exactly if the walk never ends: however far it has gone, it is at one more descriptor in the normal zone
that does not cover the address (R76, R282). -/
def Obligations.HangExactlyWithoutEnd : Prop :=
  ∀ (s : State) (a : Word) (perm : BitVec 3),
    translate s a perm = .error .hang ↔
      s.paging = true ∧ ∀ n, ∃ ds d, ds.length = n ∧ Linked s (s.get .rpa) ds d ∧ NoneCovers s ds a

/-! ## The whole machine -/

/-- Every step keeps the invariant, whatever the OPEN parameters, the external events and the host's answers
(R6, R41, R62, R255, R264). -/
def Obligations.StepKeepsInvariant : Prop := ∀ s t : State, Inv s → step s = .next t → Inv t

/-- Reset has the invariant, for every legal choice of the OPEN parameters, and so has the state the first step finds, with any
boot image loaded (R6, R47, R271). -/
def Obligations.ResetHasInvariant : Prop :=
  ∀ c : Config, c.legal → Inv (State.resetWith c) ∧ ∀ image : Vector Byte c.bootSize, Inv (State.start c image)

/-- No step changes a byte of the reservation zone or beyond RAM, nor the parameters, from any state at all (R62). -/
def Obligations.OnlyTheNormalZoneIsWritten : Prop :=
  ∀ s t : State, step s = .next t →
    t.cfg = s.cfg ∧ ∀ a, (a < s.cfg.ivtZone ∨ s.cfg.ram ≤ a) → t.byteAt a = s.byteAt a

/-- At the lowered level with task registers off, an instruction leaves every control register as it was but RIP, RFF (by a
fault) and RRA (by `call` and `ret`), and the vector table, the storage devices, the display and the armed timers as they
were (R23, R195, R247). -/
def Obligations.LoweredLevelIsConfined : Prop :=
  ∀ (i : Instr) (s t : State), s.lowered = true → s.taskRegs = false → exec i s = .next t →
    (∀ r, r.offset < 0x20 → r ≠ .rip → r ≠ .rff → (r = .rra → (∀ op, i ≠ .call op) ∧ i ≠ .ret) → t.get r = s.get r) ∧
    t.ivt = s.ivt ∧ t.storage = s.storage ∧ t.display = s.display ∧ t.armed = s.armed

/-- From the lowered level, RST, and with it the level, changes by a task switch alone. A step with task registers off leaves
RST as it was, so a step that ends at the elevated level began with them on. With them on, whatever executes an instruction,
takes a fault of its fetch or delivers an event either leaves RST or has switched tasks: the old RST is saved in the current
task's structure and the new one is the base task's word, which selects the elevated level unless the machine terminates by
MachineCheck (R243, R248). -/
def Obligations.LevelRisesOnlyByTaskSwitch : Prop :=
  (∀ s t : State, s.lowered = true → s.taskRegs = false → step s = .next t → t.get .rst = s.get .rst) ∧
  (∀ s t : State, s.lowered = true → step s = .next t → t.lowered = false → s.taskRegs = true) ∧
  (∀ (i : Instr) (s t : State), s.lowered = true → exec i s = .next t → t.get .rst = s.get .rst ∨ TaskSwitched s t) ∧
  (∀ s t : State, s.lowered = true → fetchAndExecute s = .next t → t.get .rst = s.get .rst ∨ TaskSwitched s t) ∧
  (∀ (v : Nat) (c : Word) (s t : State), s.lowered = true → settle (deliver v c s) = .next t →
    t.get .rst = s.get .rst ∨ TaskSwitched s t)

/-- An instruction changes no byte of memory outside the word it stores, at the address its own form names (operand 2 of
`cpr`, `cpl` and `cpf`, the register operand of `cpx`, RRA for `call`), asked for with PERM_W; outside the buffer of a
storage read, asked for with PERM_W; and, with task registers on, outside the one task structure that a trap, or `ltsk`,
saves to. An instruction without a store, or whose store does not resolve, so changes none at all but by the save
(R61, R69, R75, R131 to R134, R146, R202, R240). -/
def Obligations.MemoryChangesOnlyWhereStored : Prop :=
  ∀ (i : Instr) (s t : State) (b : Nat), exec i s = .next t →
    (∀ a p, storeAddress i s = some a → dataAddr s a permW = .ok p → b < p ∨ p + 4 ≤ b) →
    (∀ p : Word, i = .intr (.lit 0x0B) → s.lowered = false → (s.get .rgp1).getLsbD 0 = false →
      translate s (s.get .rgp3) permW = .ok p → b < p.toNat ∨ p.toNat + (s.get .rgp4).toNat ≤ b) →
    (∀ p, s.taskRegs = true → taskAddr s (s.get (if i = .ltsk ∧ s.lowered = false then .rbt else .rct)) = .ok p →
      b < p ∨ p + 112 ≤ b) →
    t.byteAt b = s.byteAt b

/-- No step is refused: every instruction of the opcode map has its meaning. With paging off every instruction, with every
operand, gives a next state. With paging on an instruction that gives none has met a page list without an end, from RPA: an
address translated in the state it found hangs, or, with task registers on, a task pointer translated after the context was
saved in the structure that the other one resolves to (R76, R110, R111, R282). -/
def Obligations.OnlyEndlessPageListsHang : Prop :=
  (∀ (s : State) (r : Refusal), step s ≠ .refused r) ∧
  (∀ (i : Instr) (s : State), s.paging = false → ∃ t, exec i s = .next t) ∧
  (∀ (i : Instr) (s : State), (∀ t, exec i s ≠ .next t) →
    exec i s = .fault .pageWalkHang ∧ s.paging = true ∧
    ((∃ a perm, translate s a perm = .error .hang) ∨
      (s.taskRegs = true ∧ ∃ (u : State) (p : Nat) (ptr : Reg), (ptr = .rct ∨ ptr = .rbt) ∧
        translate u (s.get ptr) 0 = .error .hang ∧ u.cfg = s.cfg ∧ u.get .rpa = s.get .rpa ∧ u.get .rst = s.get .rst ∧
        taskAddr s (s.get (if i = .ltsk ∧ s.lowered = false then .rbt else .rct)) = .ok p ∧ SameBytesOutside s u p 112)))
end

