-- ==== Sys2Proof/Laws/State.lean ====
section
/-!
SUPPORT. The small laws of the state: one lemma per field per update, and what each register reads as after an update.
-/

namespace Sys2Proof

theorem Reg.ofIndex_index (r : Reg) : Reg.ofIndex r.index.val = some r := by cases r <;> rfl

theorem Reg.index_injective {q r : Reg} (h : q.index = r.index) : q = r := by
  have hq := Reg.ofIndex_index q
  rw [h, Reg.ofIndex_index r] at hq
  exact (Option.some.inj hq).symm

namespace Machine

/-! ## `State.set` -/

theorem State.get_set (s : State) (r q : Reg) (v : Word) : (s.set r v).get q = if q = r then v else s.get q := by
  simp only [State.get, State.set, Vector.get_eq_getElem, Vector.getElem_set]
  by_cases h : q = r
  · simp [h]
  · have : r.index.val ≠ q.index.val := fun e => h (Reg.index_injective (Fin.ext e.symm))
    simp [h, this]

@[simp] theorem State.get_set_same (s : State) (r : Reg) (v : Word) : (s.set r v).get r = v := by
  simp [State.get_set]

@[simp] theorem State.get_set_ne (s : State) {r q : Reg} (v : Word) (h : q ≠ r) : (s.set r v).get q = s.get q := by
  simp [State.get_set, h]

@[simp] theorem State.set_cfg (s : State) (r : Reg) (v : Word) : (s.set r v).cfg = s.cfg := rfl
@[simp] theorem State.set_mem (s : State) (r : Reg) (v : Word) : (s.set r v).mem = s.mem := rfl
@[simp] theorem State.set_ivt (s : State) (r : Reg) (v : Word) : (s.set r v).ivt = s.ivt := rfl
@[simp] theorem State.set_fltAddr (s : State) (r : Reg) (v : Word) : (s.set r v).fltAddr = s.fltAddr := rfl
@[simp] theorem State.set_fltPerm (s : State) (r : Reg) (v : Word) : (s.set r v).fltPerm = s.fltPerm := rfl
@[simp] theorem State.set_kbd (s : State) (r : Reg) (v : Word) : (s.set r v).kbd = s.kbd := rfl
@[simp] theorem State.set_tmr (s : State) (r : Reg) (v : Word) : (s.set r v).tmr = s.tmr := rfl
@[simp] theorem State.set_run (s : State) (r : Reg) (v : Word) : (s.set r v).run = s.run := rfl
@[simp] theorem State.set_storage (s : State) (r : Reg) (v : Word) : (s.set r v).storage = s.storage := rfl
@[simp] theorem State.set_display (s : State) (r : Reg) (v : Word) : (s.set r v).display = s.display := rfl
@[simp] theorem State.set_armed (s : State) (r : Reg) (v : Word) : (s.set r v).armed = s.armed := rfl
@[simp] theorem State.set_draws (s : State) (r : Reg) (v : Word) : (s.set r v).draws = s.draws := rfl
@[simp] theorem State.set_arrivals (s : State) (r : Reg) (v : Word) : (s.set r v).arrivals = s.arrivals := rfl
@[simp] theorem State.set_storageErrors (s : State) (r : Reg) (v : Word) : (s.set r v).storageErrors = s.storageErrors := rfl
@[simp] theorem State.set_timerRefusals (s : State) (r : Reg) (v : Word) : (s.set r v).timerRefusals = s.timerRefusals := rfl

@[simp] theorem State.set_byteAt (s : State) (r : Reg) (v : Word) (a : Nat) : (s.set r v).byteAt a = s.byteAt a := rfl

@[simp] theorem State.set_wordAt (s : State) (r : Reg) (v : Word) (a : Nat) : (s.set r v).wordAt a = s.wordAt a := rfl

@[simp] theorem State.set_slot (s : State) (r : Reg) (v : Word) (n : Nat) : (s.set r v).slot n = s.slot n := rfl

/-! ## `State.storeBytes` and `State.storeWord` -/

@[simp] theorem State.storeBytes_regs (s : State) (a : Nat) (b : List Byte) : (s.storeBytes a b).regs = s.regs := rfl
@[simp] theorem State.storeBytes_cfg (s : State) (a : Nat) (b : List Byte) : (s.storeBytes a b).cfg = s.cfg := rfl
@[simp] theorem State.storeBytes_ivt (s : State) (a : Nat) (b : List Byte) : (s.storeBytes a b).ivt = s.ivt := rfl
@[simp] theorem State.storeBytes_fltAddr (s : State) (a : Nat) (b : List Byte) : (s.storeBytes a b).fltAddr = s.fltAddr := rfl
@[simp] theorem State.storeBytes_fltPerm (s : State) (a : Nat) (b : List Byte) : (s.storeBytes a b).fltPerm = s.fltPerm := rfl
@[simp] theorem State.storeBytes_kbd (s : State) (a : Nat) (b : List Byte) : (s.storeBytes a b).kbd = s.kbd := rfl
@[simp] theorem State.storeBytes_tmr (s : State) (a : Nat) (b : List Byte) : (s.storeBytes a b).tmr = s.tmr := rfl
@[simp] theorem State.storeBytes_run (s : State) (a : Nat) (b : List Byte) : (s.storeBytes a b).run = s.run := rfl
@[simp] theorem State.storeBytes_storage (s : State) (a : Nat) (b : List Byte) : (s.storeBytes a b).storage = s.storage := rfl
@[simp] theorem State.storeBytes_display (s : State) (a : Nat) (b : List Byte) : (s.storeBytes a b).display = s.display := rfl
@[simp] theorem State.storeBytes_armed (s : State) (a : Nat) (b : List Byte) : (s.storeBytes a b).armed = s.armed := rfl
@[simp] theorem State.storeBytes_draws (s : State) (a : Nat) (b : List Byte) : (s.storeBytes a b).draws = s.draws := rfl
@[simp] theorem State.storeBytes_arrivals (s : State) (a : Nat) (b : List Byte) : (s.storeBytes a b).arrivals = s.arrivals := rfl
@[simp] theorem State.storeBytes_storageErrors (s : State) (a : Nat) (b : List Byte) : (s.storeBytes a b).storageErrors = s.storageErrors := rfl
@[simp] theorem State.storeBytes_timerRefusals (s : State) (a : Nat) (b : List Byte) : (s.storeBytes a b).timerRefusals = s.timerRefusals := rfl
@[simp] theorem State.storeBytes_mem (s : State) (a : Nat) (b : List Byte) : (s.storeBytes a b).mem = s.mem.store a b := rfl
@[simp] theorem State.storeBytes_get (s : State) (a : Nat) (b : List Byte) (r : Reg) : (s.storeBytes a b).get r = s.get r := rfl
@[simp] theorem State.storeBytes_slot (s : State) (a : Nat) (b : List Byte) (n : Nat) : (s.storeBytes a b).slot n = s.slot n := rfl

@[simp] theorem State.storeWord_regs (s : State) (a : Nat) (v : Word) : (s.storeWord a v).regs = s.regs := rfl
@[simp] theorem State.storeWord_cfg (s : State) (a : Nat) (v : Word) : (s.storeWord a v).cfg = s.cfg := rfl
@[simp] theorem State.storeWord_ivt (s : State) (a : Nat) (v : Word) : (s.storeWord a v).ivt = s.ivt := rfl
@[simp] theorem State.storeWord_fltAddr (s : State) (a : Nat) (v : Word) : (s.storeWord a v).fltAddr = s.fltAddr := rfl
@[simp] theorem State.storeWord_fltPerm (s : State) (a : Nat) (v : Word) : (s.storeWord a v).fltPerm = s.fltPerm := rfl
@[simp] theorem State.storeWord_kbd (s : State) (a : Nat) (v : Word) : (s.storeWord a v).kbd = s.kbd := rfl
@[simp] theorem State.storeWord_tmr (s : State) (a : Nat) (v : Word) : (s.storeWord a v).tmr = s.tmr := rfl
@[simp] theorem State.storeWord_run (s : State) (a : Nat) (v : Word) : (s.storeWord a v).run = s.run := rfl
@[simp] theorem State.storeWord_storage (s : State) (a : Nat) (v : Word) : (s.storeWord a v).storage = s.storage := rfl
@[simp] theorem State.storeWord_display (s : State) (a : Nat) (v : Word) : (s.storeWord a v).display = s.display := rfl
@[simp] theorem State.storeWord_armed (s : State) (a : Nat) (v : Word) : (s.storeWord a v).armed = s.armed := rfl
@[simp] theorem State.storeWord_draws (s : State) (a : Nat) (v : Word) : (s.storeWord a v).draws = s.draws := rfl
@[simp] theorem State.storeWord_arrivals (s : State) (a : Nat) (v : Word) : (s.storeWord a v).arrivals = s.arrivals := rfl
@[simp] theorem State.storeWord_storageErrors (s : State) (a : Nat) (v : Word) : (s.storeWord a v).storageErrors = s.storageErrors := rfl
@[simp] theorem State.storeWord_timerRefusals (s : State) (a : Nat) (v : Word) : (s.storeWord a v).timerRefusals = s.timerRefusals := rfl
@[simp] theorem State.storeWord_get (s : State) (a : Nat) (v : Word) (r : Reg) : (s.storeWord a v).get r = s.get r := rfl
@[simp] theorem State.storeWord_slot (s : State) (a : Nat) (v : Word) (n : Nat) : (s.storeWord a v).slot n = s.slot n := rfl

/-! ## `State.terminate` -/

@[simp] theorem State.terminate_regs (s : State) (k : FaultKind) : (s.terminate k).regs = s.regs := rfl
@[simp] theorem State.terminate_cfg (s : State) (k : FaultKind) : (s.terminate k).cfg = s.cfg := rfl
@[simp] theorem State.terminate_mem (s : State) (k : FaultKind) : (s.terminate k).mem = s.mem := rfl
@[simp] theorem State.terminate_ivt (s : State) (k : FaultKind) : (s.terminate k).ivt = s.ivt := rfl
@[simp] theorem State.terminate_fltAddr (s : State) (k : FaultKind) : (s.terminate k).fltAddr = s.fltAddr := rfl
@[simp] theorem State.terminate_fltPerm (s : State) (k : FaultKind) : (s.terminate k).fltPerm = s.fltPerm := rfl
@[simp] theorem State.terminate_kbd (s : State) (k : FaultKind) : (s.terminate k).kbd = s.kbd := rfl
@[simp] theorem State.terminate_tmr (s : State) (k : FaultKind) : (s.terminate k).tmr = s.tmr := rfl
@[simp] theorem State.terminate_storage (s : State) (k : FaultKind) : (s.terminate k).storage = s.storage := rfl
@[simp] theorem State.terminate_display (s : State) (k : FaultKind) : (s.terminate k).display = s.display := rfl
@[simp] theorem State.terminate_armed (s : State) (k : FaultKind) : (s.terminate k).armed = s.armed := rfl
@[simp] theorem State.terminate_draws (s : State) (k : FaultKind) : (s.terminate k).draws = s.draws := rfl
@[simp] theorem State.terminate_arrivals (s : State) (k : FaultKind) : (s.terminate k).arrivals = s.arrivals := rfl
@[simp] theorem State.terminate_storageErrors (s : State) (k : FaultKind) : (s.terminate k).storageErrors = s.storageErrors := rfl
@[simp] theorem State.terminate_timerRefusals (s : State) (k : FaultKind) : (s.terminate k).timerRefusals = s.timerRefusals := rfl
@[simp] theorem State.terminate_run (s : State) (k : FaultKind) : (s.terminate k).run = .terminated k := rfl
@[simp] theorem State.terminate_get (s : State) (k : FaultKind) (r : Reg) : (s.terminate k).get r = s.get r := rfl
@[simp] theorem State.terminate_byteAt (s : State) (k : FaultKind) (a : Nat) : (s.terminate k).byteAt a = s.byteAt a := rfl

/-! ## Fields that are no register: what a register reads as does not depend on them -/

@[simp] theorem State.get_with_mem (s : State) (x : Memory) (r : Reg) : ({ s with mem := x } : State).get r = s.get r := rfl
@[simp] theorem State.get_with_fltAddr (s : State) (x : Word) (r : Reg) : ({ s with fltAddr := x } : State).get r = s.get r := rfl
@[simp] theorem State.get_with_kbd (s : State) (x : List Word) (r : Reg) : ({ s with kbd := x } : State).get r = s.get r := rfl
@[simp] theorem State.get_with_tmr (s : State) (x : List Byte) (r : Reg) : ({ s with tmr := x } : State).get r = s.get r := rfl
@[simp] theorem State.get_with_run (s : State) (x : Run) (r : Reg) : ({ s with run := x } : State).get r = s.get r := rfl
@[simp] theorem State.get_with_draws (s : State) (x : Nat) (r : Reg) : ({ s with draws := x } : State).get r = s.get r := rfl
@[simp] theorem State.get_with_arrivals (s : State) (x : List Arrivals) (r : Reg) : ({ s with arrivals := x } : State).get r = s.get r := rfl
@[simp] theorem State.get_with_storageErrors (s : State) (x : List Bool) (r : Reg) : ({ s with storageErrors := x } : State).get r = s.get r := rfl
@[simp] theorem State.get_with_timerRefusals (s : State) (x : List Bool) (r : Reg) : ({ s with timerRefusals := x } : State).get r = s.get r := rfl
@[simp] theorem State.get_with_display (s : State) (x : List Byte) (r : Reg) : ({ s with display := x } : State).get r = s.get r := rfl
@[simp] theorem State.get_with_armed (s : State) (x : List Timer) (r : Reg) : ({ s with armed := x } : State).get r = s.get r := rfl
@[simp] theorem State.get_with_storage (s : State) (x : List Device) (r : Reg) : ({ s with storage := x } : State).get r = s.get r := rfl
@[simp] theorem State.get_with_latches (s : State) (x : Word) (y : BitVec 3) (r : Reg) : ({ s with fltAddr := x, fltPerm := y } : State).get r = s.get r := rfl

@[simp] theorem State.byteAt_with_fltAddr (s : State) (x : Word) (a : Nat) : ({ s with fltAddr := x } : State).byteAt a = s.byteAt a := rfl
@[simp] theorem State.byteAt_with_kbd (s : State) (x : List Word) (a : Nat) : ({ s with kbd := x } : State).byteAt a = s.byteAt a := rfl
@[simp] theorem State.byteAt_with_tmr (s : State) (x : List Byte) (a : Nat) : ({ s with tmr := x } : State).byteAt a = s.byteAt a := rfl
@[simp] theorem State.byteAt_with_run (s : State) (x : Run) (a : Nat) : ({ s with run := x } : State).byteAt a = s.byteAt a := rfl
@[simp] theorem State.byteAt_with_draws (s : State) (x : Nat) (a : Nat) : ({ s with draws := x } : State).byteAt a = s.byteAt a := rfl
@[simp] theorem State.byteAt_with_arrivals (s : State) (x : List Arrivals) (a : Nat) : ({ s with arrivals := x } : State).byteAt a = s.byteAt a := rfl
@[simp] theorem State.byteAt_with_storageErrors (s : State) (x : List Bool) (a : Nat) : ({ s with storageErrors := x } : State).byteAt a = s.byteAt a := rfl
@[simp] theorem State.byteAt_with_timerRefusals (s : State) (x : List Bool) (a : Nat) : ({ s with timerRefusals := x } : State).byteAt a = s.byteAt a := rfl
@[simp] theorem State.byteAt_with_display (s : State) (x : List Byte) (a : Nat) : ({ s with display := x } : State).byteAt a = s.byteAt a := rfl
@[simp] theorem State.byteAt_with_armed (s : State) (x : List Timer) (a : Nat) : ({ s with armed := x } : State).byteAt a = s.byteAt a := rfl
@[simp] theorem State.byteAt_with_storage (s : State) (x : List Device) (a : Nat) : ({ s with storage := x } : State).byteAt a = s.byteAt a := rfl

/-! ## The interrupt vector table -/

theorem State.slot_setSlot (s : State) (n v : Nat) (e : IvtSlot) :
    (s.setSlot n e).slot v = if v = n ∧ 1 ≤ n ∧ n ≤ 127 then e else s.slot v := by
  unfold State.setSlot State.slot
  by_cases hn : 1 ≤ n ∧ n ≤ 127 <;> by_cases hv : 1 ≤ v ∧ v ≤ 127 <;> simp only [hn, hv, and_true, and_self, dite_true, dite_false, and_false, ite_false]
  · rw [Vector.getElem_set]
    by_cases e1 : v = n
    · subst e1; simp
    · have : n - 1 ≠ v - 1 := by omega
      simp [this, e1]
  · have : v ≠ n := fun e => hv (e ▸ hn)
    simp [this]

@[simp] theorem State.setSlot_regs (s : State) (n : Nat) (e : IvtSlot) : (s.setSlot n e).regs = s.regs := by
  unfold State.setSlot; split <;> rfl

@[simp] theorem State.setSlot_get (s : State) (n : Nat) (e : IvtSlot) (r : Reg) : (s.setSlot n e).get r = s.get r := by
  simp [State.get]

@[simp] theorem State.setSlot_mem (s : State) (n : Nat) (e : IvtSlot) : (s.setSlot n e).mem = s.mem := by
  unfold State.setSlot; split <;> rfl

/-- Replacing a slot changes the table and nothing else. -/
theorem State.setSlot_eq (s : State) (n : Nat) (e : IvtSlot) : s.setSlot n e = { s with ivt := (s.setSlot n e).ivt } := by
  unfold State.setSlot; split <;> rfl

/-! ## The two views of the registers agree -/

/-- Two states with the same registers, read one by one, have the same register file. -/
theorem State.regs_ext {s t : State} (h : ∀ r, t.get r = s.get r) : t.regs = s.regs := by
  apply Vector.ext
  intro i hi
  have key : ∀ j (hj : j < 28), ∃ r : Reg, r.index.val = j := by
    intro j hj
    have : ∀ k : Fin 28, ∃ r ∈ Reg.all, r.index = k := by decide
    obtain ⟨r, -, hr⟩ := this ⟨j, hj⟩
    exact ⟨r, by simp [hr]⟩
  obtain ⟨r, hr⟩ := key i hi
  have := h r
  simp only [State.get, Vector.get_eq_getElem, hr] at this
  exact this

end Machine

end Sys2Proof
end

