-- ==== Sys2Proof/Laws/Memory.lean ====
section
/-!
SUPPORT. The laws of memory: what a byte and a word read as after a store, and the canonical form, which every memory operation
keeps (R64, R66, R67).
-/

namespace Sys2Proof.Machine

/-! ## Looking a byte up -/

theorem Memory.find_append (m n : Memory) (a : Nat) :
    Memory.find (m ++ n) a = (Memory.find m a).or (Memory.find n a) := by
  induction m with
  | nil => simp [Memory.find]
  | cons c rest ih =>
    simp only [List.cons_append, Memory.find]
    split <;> simp [ih]

theorem Memory.find_filter (m : Memory) (p : Nat → Bool) (a : Nat) :
    Memory.find (m.filter fun c => p c.1) a = if p a then Memory.find m a else none := by
  induction m with
  | nil => simp [Memory.find]
  | cons c rest ih =>
    simp only [List.filter_cons, Memory.find]
    by_cases hc : c.1 = a
    · subst hc
      by_cases hp : p c.1
      · simp [hp, Memory.find]
      · simp [hp, ih]
    · by_cases hp : p c.1
      · simp [hp, Memory.find, hc, ih]
      · simp [hp, hc, ih]

theorem find_cellsFrom (bytes : List Byte) (p a : Nat) :
    Memory.find (cellsFrom p bytes) a = if p ≤ a then bytes[a - p]? else none := by
  induction bytes generalizing p with
  | nil => simp [cellsFrom, Memory.find]
  | cons b rest ih =>
    simp only [cellsFrom, Memory.find, ih]
    by_cases h : p = a
    · simp [h]
    · by_cases h2 : p ≤ a
      · have h3 : p + 1 ≤ a := by omega
        have h4 : a - p = (a - (p + 1)) + 1 := by omega
        simp [h, h2, h3, h4]
      · have h3 : ¬ p + 1 ≤ a := by omega
        simp [h, h2, h3]

/-- What a store leaves known of each byte: the byte stored, or what was known before. -/
theorem Memory.find_store (m : Memory) (p : Nat) (bytes : List Byte) (a : Nat) :
    (m.store p bytes).find a = if p ≤ a ∧ a < p + bytes.length then bytes[a - p]? else m.find a := by
  unfold Memory.store
  rw [Memory.find_append, Memory.find_append,
    Memory.find_filter m (fun k => decide (k < p)), Memory.find_filter m (fun k => decide (p + bytes.length ≤ k)),
    find_cellsFrom]
  by_cases h1 : p ≤ a
  · by_cases h2 : a < p + bytes.length
    · have h3 : ¬ a < p := by omega
      have h4 : a - p < bytes.length := by omega
      simp [h1, h2, h3, h4]
    · have h3 : ¬ a < p := by omega
      have h4 : p + bytes.length ≤ a := by omega
      have h5 : bytes.length ≤ a - p := by omega
      simp [h1, h2, h3, h4, h5]
  · have h3 : a < p := by omega
    have h4 : ¬ (p + bytes.length ≤ a) := by omega
    simp [h1, h3, h4]

/-! ## Reading after a store -/

theorem State.byteAt_storeBytes_of_lt (s : State) (p : Nat) (bytes : List Byte) {k : Nat} (h : k < bytes.length) :
    (s.storeBytes p bytes).byteAt (p + k) = bytes[k] := by
  have h1 : p ≤ p + k ∧ p + k < p + bytes.length := by omega
  have h2 : p + k - p = k := by omega
  simp only [State.byteAt, State.storeBytes_mem, Memory.find_store, h1, h2, and_self, if_true]
  simp [h]

theorem State.byteAt_storeBytes_outside (s : State) (p : Nat) (bytes : List Byte) {a : Nat}
    (h : a < p ∨ p + bytes.length ≤ a) : (s.storeBytes p bytes).byteAt a = s.byteAt a := by
  have h1 : ¬ (p ≤ a ∧ a < p + bytes.length) := by omega
  simp only [State.byteAt, State.storeBytes_mem, Memory.find_store, h1, if_false]

@[simp] theorem wordBytes_length (v : Word) : (wordBytes v).length = 4 := rfl

/-- A word is the join of its bytes (R64). -/
@[simp] theorem joinBytes_wordBytes (v : Word) :
    joinBytes (v.extractLsb' 24 8) (v.extractLsb' 16 8) (v.extractLsb' 8 8) (v.extractLsb' 0 8) = v := by
  unfold joinBytes
  apply BitVec.eq_of_getLsbD_eq
  intro i hi
  simp only [BitVec.getLsbD_append, BitVec.getLsbD_extractLsb']
  by_cases h1 : i < 8
  · simp [h1]
  · by_cases h2 : i - 8 < 8
    · have : 8 + (i - 8) = i := by omega
      simp [h1, h2, this]
    · by_cases h3 : i - 8 - 8 < 8
      · have : 16 + (i - 8 - 8) = i := by omega
        simp [h1, h2, h3, this]
      · have : 24 + (i - 8 - 8 - 8) = i := by omega
        have h4 : i - 8 - 8 - 8 < 8 := by omega
        simp [h1, h2, h3, h4, this]

/-- The bytes of a word stored, most significant first (R64). -/
theorem State.byteAt_storeWord (s : State) (p : Nat) (v : Word) :
    (s.storeWord p v).byteAt p = v.extractLsb' 24 8 ∧ (s.storeWord p v).byteAt (p + 1) = v.extractLsb' 16 8 ∧
    (s.storeWord p v).byteAt (p + 2) = v.extractLsb' 8 8 ∧ (s.storeWord p v).byteAt (p + 3) = v.extractLsb' 0 8 :=
  ⟨State.byteAt_storeBytes_of_lt s p (wordBytes v) (k := 0) (by simp),
   State.byteAt_storeBytes_of_lt s p (wordBytes v) (k := 1) (by simp),
   State.byteAt_storeBytes_of_lt s p (wordBytes v) (k := 2) (by simp),
   State.byteAt_storeBytes_of_lt s p (wordBytes v) (k := 3) (by simp)⟩

theorem State.byteAt_storeWord_outside (s : State) (p : Nat) (v : Word) {a : Nat} (h : a < p ∨ p + 4 ≤ a) :
    (s.storeWord p v).byteAt a = s.byteAt a :=
  State.byteAt_storeBytes_outside s p (wordBytes v) (by simpa using h)

/-- A word read back from where it was stored. -/
@[simp] theorem State.wordAt_storeWord (s : State) (p : Nat) (v : Word) : (s.storeWord p v).wordAt p = v := by
  obtain ⟨h0, h1, h2, h3⟩ := State.byteAt_storeWord s p v
  simp [State.wordAt, h0, h1, h2, h3]

/-- A word at a distance from the one stored reads as before. -/
theorem State.wordAt_storeWord_outside (s : State) (p : Nat) (v : Word) {a : Nat} (h : a + 4 ≤ p ∨ p + 4 ≤ a) :
    (s.storeWord p v).wordAt a = s.wordAt a := by
  unfold State.wordAt
  rw [State.byteAt_storeWord_outside s p v (a := a) (by omega),
    State.byteAt_storeWord_outside s p v (a := a + 1) (by omega),
    State.byteAt_storeWord_outside s p v (a := a + 2) (by omega),
    State.byteAt_storeWord_outside s p v (a := a + 3) (by omega)]

/-- A word is what its four bytes read as: states that agree on them agree on it. -/
theorem State.wordAt_congr {s t : State} {a : Nat} (h : ∀ k, k < 4 → t.byteAt (a + k) = s.byteAt (a + k)) :
    t.wordAt a = s.wordAt a := by
  unfold State.wordAt
  rw [← Nat.add_zero a, h 0 (by omega), Nat.add_zero, h 1 (by omega), h 2 (by omega), h 3 (by omega)]

theorem State.bytesAt_length (s : State) (a n : Nat) : (s.bytesAt a n).length = n := by simp [State.bytesAt]

/-! ## The canonical form -/

theorem mem_cellsFrom {bytes : List Byte} {p : Nat} {c : Host.Cell} (h : c ∈ cellsFrom p bytes) :
    p ≤ c.1 ∧ c.1 < p + bytes.length := by
  induction bytes generalizing p with
  | nil => simp [cellsFrom] at h
  | cons b rest ih =>
    simp only [cellsFrom, List.mem_cons] at h
    rcases h with rfl | h
    · simp
    · have := ih h
      simp only [List.length_cons]
      omega

theorem cellsFrom_wf (bytes : List Byte) (p : Nat) : Memory.wf (cellsFrom p bytes) := by
  induction bytes generalizing p with
  | nil => exact List.Pairwise.nil
  | cons b rest ih =>
    refine List.Pairwise.cons (fun c hc => ?_) (ih (p + 1))
    have := mem_cellsFrom hc
    show p < c.1
    omega

/-- A cell of the memory after a store is one of the bytes stored or a cell outside them. -/
theorem Memory.mem_store {m : Memory} {p : Nat} {bytes : List Byte} {c : Host.Cell} (h : c ∈ m.store p bytes) :
    (c ∈ m ∧ (c.1 < p ∨ p + bytes.length ≤ c.1)) ∨ (p ≤ c.1 ∧ c.1 < p + bytes.length) := by
  unfold Memory.store at h
  simp only [List.mem_append, List.mem_filter, decide_eq_true_eq] at h
  rcases h with (⟨h1, h2⟩ | h) | ⟨h1, h2⟩
  · exact .inl ⟨h1, .inl h2⟩
  · exact .inr (mem_cellsFrom h)
  · exact .inl ⟨h1, .inr h2⟩

/-- A store keeps the canonical form: it is the one operation that writes memory. -/
theorem Memory.store_wf {m : Memory} (h : m.wf) (p : Nat) (bytes : List Byte) : (m.store p bytes).wf := by
  unfold Memory.store Memory.wf
  rw [List.pairwise_append, List.pairwise_append]
  refine ⟨⟨h.filter _, cellsFrom_wf bytes p, ?_⟩, h.filter _, ?_⟩
  · intro a ha b hb
    have h1 := (List.mem_filter.mp ha).2
    have h2 := mem_cellsFrom hb
    simp only [decide_eq_true_eq] at h1
    omega
  · intro a ha b hb
    have h1 := (List.mem_filter.mp hb).2
    simp only [decide_eq_true_eq] at h1
    rcases List.mem_append.mp ha with ha | ha
    · have h2 := (List.mem_filter.mp ha).2
      simp only [decide_eq_true_eq] at h2
      omega
    · have h2 := mem_cellsFrom ha
      omega

theorem State.storeBytes_wf {s : State} (h : s.mem.wf) (p : Nat) (bytes : List Byte) : (s.storeBytes p bytes).mem.wf :=
  Memory.store_wf h p bytes

theorem State.storeWord_wf {s : State} (h : s.mem.wf) (p : Nat) (v : Word) : (s.storeWord p v).mem.wf :=
  Memory.store_wf h p (wordBytes v)

/-- Reset's memory has the canonical form. -/
theorem State.reset_mem_wf : State.reset.mem.wf := List.Pairwise.nil

end Sys2Proof.Machine
end

