-- ==== Sys2Proof/Laws/Ops.lean ====
section
/-!
SUPPORT. What each shared operation can do, said once: checks, paging, the task switch, the fault controller, handler entry.
-/

namespace Sys2Proof.Machine

/-! ## Checks -/

@[simp] theorem Check.bind_ok {α β : Type} (a : α) (f : α → Check β) : ((.ok a : Check α) >>= f) = f a := rfl

@[simp] theorem Check.bind_error {α β : Type} (t : Trap) (f : α → Check β) : ((.error t : Check α) >>= f) = .error t := rfl

@[simp] theorem Check.bind_raise {α β : Type} (k : FaultKind) (s : State) (f : α → Check β) :
    ((raise k s : Check α) >>= f) = raise k s := rfl

/-- A sequence of two operations that completes: both complete. -/
theorem Check.bind_eq_ok {α β : Type} {x : Check α} {f : α → Check β} {b : β} :
    (x >>= f) = .ok b ↔ ∃ a, x = .ok a ∧ f a = .ok b := by
  cases x <;> simp

/-- A sequence of two operations that stops: the first stops, or the second after it. -/
theorem Check.bind_eq_error {α β : Type} {x : Check α} {f : α → Check β} {t : Trap} :
    (x >>= f) = .error t ↔ x = .error t ∨ ∃ a, x = .ok a ∧ f a = .error t := by
  cases x <;> simp

@[simp] theorem raise_ne_ok {α : Type} (k : FaultKind) (s : State) (a : α) : (raise k s : Check α) ≠ .ok a := by
  simp [raise]

@[simp] theorem raise_eq_error {α : Type} (k : FaultKind) (s : State) (t : Trap) :
    (raise k s : Check α) = .error t ↔ t = .raise k s := by
  simp [raise, eq_comm]

@[simp] theorem ensure_eq_ok (b : Bool) (k : FaultKind) (s : State) (u : Unit) : ensure b k s = .ok u ↔ b = true := by
  cases b <;> simp [ensure]

@[simp] theorem ensure_eq_error (b : Bool) (k : FaultKind) (s : State) (t : Trap) :
    ensure b k s = .error t ↔ b = false ∧ t = .raise k s := by
  cases b <;> simp [ensure]

@[simp] theorem ensure_true (k : FaultKind) (s : State) : ensure true k s = .ok () := rfl

@[simp] theorem ensure_false (k : FaultKind) (s : State) : ensure false k s = raise k s := rfl

/-! ## The boot image -/

/-- The host's load changes memory alone (R271). -/
theorem State.start_eq (c : Config) (image : Vector Byte c.bootSize) :
    State.start c image = { State.resetWith c with mem := (State.start c image).mem } := rfl

/-- What is known of each byte once the image is loaded (R271). -/
theorem State.start_find (c : Config) (image : Vector Byte c.bootSize) (a : Nat) :
    (State.start c image).mem.find a =
      if c.bootBase ≤ a ∧ a < c.bootBase + c.bootSize then image.toList[a - c.bootBase]? else none := by
  show (Memory.store [] c.bootBase image.toList).find a = _
  simp [Memory.find_store, Memory.find]

/-! ## Latches -/

theorem SameButLatches.refl (s : State) : SameButLatches s s := rfl

theorem SameButLatches.latches (s : State) (a : Word) (p : BitVec 3) :
    SameButLatches s { s with fltAddr := a, fltPerm := p } := rfl

theorem SameButLatches.addr (s : State) (a : Word) : SameButLatches s { s with fltAddr := a } := rfl

theorem SameButLatches.get {s t : State} (h : SameButLatches s t) (r : Reg) : t.get r = s.get r := by
  rw [h]; rfl

theorem SameButLatches.mem {s t : State} (h : SameButLatches s t) : t.mem = s.mem := by
  rw [h]

theorem SameButLatches.byteAt {s t : State} (h : SameButLatches s t) (a : Nat) : t.byteAt a = s.byteAt a := by
  rw [h]; rfl

/-! ## The zone -/

theorem inZone_iff (c : Config) (p n : Nat) : inZone c p n = true ↔ c.ivtZone ≤ p ∧ p + n ≤ c.ram := by
  simp [inZone]

/-- Part of an access in the normal zone is in the normal zone. -/
theorem inZone_sub {c : Config} {p n : Nat} (h : inZone c p n = true) {q m : Nat} (h1 : p ≤ q) (h2 : q + m ≤ p + n) :
    inZone c q m = true := by
  rw [inZone_iff] at *; omega

/-! ## Paging -/

/-- What the walk raises, and that it changes nothing but the latches. -/
theorem walk_error {s : State} {a : Word} {perm : BitVec 3} {n : Nat} {d : Word} {k : FaultKind} {t : State}
    (h : walk s a perm n d = .error (.raise k t)) :
    (k = .noPage ∨ k = .pagePermission ∨ k = .badMemory) ∧ SameButLatches s t := by
  induction n generalizing d with
  | zero => simp [walk] at h
  | succ n ih =>
    simp only [walk] at h
    split at h
    · simp only [raise_eq_error, Trap.raise.injEq] at h
      obtain ⟨rfl, rfl⟩ := h
      exact ⟨.inl rfl, SameButLatches.addr ..⟩
    · split at h
      · split at h
        · split at h
          · simp at h
          · simp only [raise_eq_error, Trap.raise.injEq] at h
            obtain ⟨rfl, rfl⟩ := h
            exact ⟨.inr (.inl rfl), SameButLatches.latches ..⟩
        · exact ih h
      · simp only [raise_eq_error, Trap.raise.injEq] at h
        obtain ⟨rfl, rfl⟩ := h
        exact ⟨.inr (.inr rfl), rfl⟩

/-- With no permission asked, the walk raises no PagePermission. -/
theorem walk_zero_perm {s t : State} {a : Word} {n : Nat} {d : Word} :
    walk s a 0 n d ≠ .error (.raise .pagePermission t) := by
  induction n generalizing d with
  | zero => simp [walk]
  | succ n ih =>
    simp only [walk]
    split
    · simp
    · split
      · split
        · have : (readDesc s d.toNat).allows 0 = true := by simp [PageDesc.allows]
          rw [if_pos this]
          simp
        · exact ih
      · simp

theorem translate_paging_off {s : State} (h : s.paging = false) (a : Word) (perm : BitVec 3) :
    translate s a perm = .ok a := by
  simp [translate, h]

/-- What `Translate` raises, and that it changes nothing but the latches (R76). -/
theorem translate_error {s : State} {a : Word} {perm : BitVec 3} {k : FaultKind} {t : State}
    (h : translate s a perm = .error (.raise k t)) :
    (k = .noPage ∨ k = .pagePermission ∨ k = .badMemory) ∧ SameButLatches s t := by
  unfold translate at h
  split at h
  · exact walk_error h
  · simp at h

/-- A data address that resolves: the translation and the zone check. -/
theorem dataAddr_ok {s : State} {a : Word} {perm : BitVec 3} {p : Nat} :
    dataAddr s a perm = .ok p ↔ ∃ w, translate s a perm = .ok w ∧ w.toNat = p ∧ inZone s.cfg p 4 = true := by
  unfold dataAddr
  cases h : translate s a perm with
  | error t => simp
  | ok w =>
    by_cases hz : inZone s.cfg w.toNat 4 = true
    · simp only [hz, if_true, Except.ok.injEq]
      constructor
      · rintro rfl; exact ⟨w, rfl, rfl, hz⟩
      · rintro ⟨w', rfl, h2, -⟩; exact h2
    · simp only [hz]
      constructor
      · intro h2; simp at h2
      · rintro ⟨w', e, rfl, h2⟩
        cases e
        exact absurd h2 hz

theorem dataAddr_inZone {s : State} {a : Word} {perm : BitVec 3} {p : Nat} (h : dataAddr s a perm = .ok p) :
    inZone s.cfg p 4 = true := by
  obtain ⟨_, _, _, h⟩ := dataAddr_ok.mp h; exact h

/-- What a data address raises, and that it changes nothing but the latches. -/
theorem dataAddr_error {s : State} {a : Word} {perm : BitVec 3} {k : FaultKind} {t : State}
    (h : dataAddr s a perm = .error (.raise k t)) :
    (k = .noPage ∨ k = .pagePermission ∨ k = .badMemory) ∧ SameButLatches s t := by
  unfold dataAddr at h
  cases h2 : translate s a perm with
  | error e =>
    rw [h2] at h
    simp only [Except.error.injEq] at h
    subst h
    exact translate_error h2
  | ok w =>
    rw [h2] at h
    simp only at h
    split at h
    · simp at h
    · simp only [raise_eq_error, Trap.raise.injEq] at h
      obtain ⟨rfl, rfl⟩ := h
      exact ⟨.inr (.inr rfl), rfl⟩

theorem dataAddr_paging_off {s : State} (h : s.paging = false) (a : Word) (perm : BitVec 3) :
    dataAddr s a perm = if inZone s.cfg a.toNat 4 then .ok a.toNat else raise .badMemory s := by
  simp [dataAddr, translate_paging_off h]

/-! ## Task structures -/

/-- A task pointer that resolves: its 112 bytes are in the normal zone (R240). -/
theorem taskAddr_ok {s : State} {ptr : Word} {p : Nat} (h : taskAddr s ptr = .ok p) :
    inZone s.cfg p 112 = true ∧ ∃ w, translate s ptr 0 = .ok w ∧ w.toNat = p := by
  unfold taskAddr at h
  split at h
  · simp at h
  · simp at h
  · next w hw =>
    split at h
    · next hz =>
      simp only [Except.ok.injEq] at h
      exact ⟨h ▸ hz, w, hw, h⟩
    · simp at h

/-- A task pointer that does not resolve is a MachineCheck (R240), with nothing but the latches changed. -/
theorem taskAddr_error {s : State} {ptr : Word} {k : FaultKind} {t : State}
    (h : taskAddr s ptr = .error (.raise k t)) : k = .machineCheck ∧ SameButLatches s t := by
  unfold taskAddr at h
  split at h
  · next k' s' hw =>
    simp only [raise_eq_error, Trap.raise.injEq] at h
    obtain ⟨rfl, rfl⟩ := h
    exact ⟨rfl, (translate_error hw).2⟩
  · simp at h
  · split at h
    · simp at h
    · simp only [raise_eq_error, Trap.raise.injEq] at h
      obtain ⟨rfl, rfl⟩ := h
      exact ⟨rfl, rfl⟩

theorem taskAddr_paging_off {s : State} (h : s.paging = false) (ptr : Word) :
    taskAddr s ptr = if inZone s.cfg ptr.toNat 112 then .ok ptr.toNat else raise .machineCheck s := by
  simp [taskAddr, translate_paging_off h]

/-- Folding stores over a list of registers changes memory alone. -/
theorem foldl_storeWord_eq (f : Reg → Nat) (g : Reg → Word) (rs : List Reg) (s : State) :
    rs.foldl (fun t r => t.storeWord (f r) (g r)) s =
      { s with mem := (rs.foldl (fun t r => t.storeWord (f r) (g r)) s).mem } := by
  induction rs generalizing s with
  | nil => rfl
  | cons r rest ih =>
    simp only [List.foldl_cons]
    rw [ih (s.storeWord (f r) (g r))]
    rfl

/-- `save_current` and `save_base` change memory alone. -/
theorem saveRegs_eq (rs : List Reg) (p : Nat) (s : State) : saveRegs rs p s = { s with mem := (saveRegs rs p s).mem } :=
  foldl_storeWord_eq (fun r => p + r.offset) s.get rs s

@[simp] theorem saveRegs_get (rs : List Reg) (p : Nat) (s : State) (r : Reg) : (saveRegs rs p s).get r = s.get r := by
  rw [saveRegs_eq]; rfl

@[simp] theorem saveRegs_cfg (rs : List Reg) (p : Nat) (s : State) : (saveRegs rs p s).cfg = s.cfg := by
  rw [saveRegs_eq]

@[simp] theorem saveRegs_slot (rs : List Reg) (p : Nat) (s : State) (v : Nat) : (saveRegs rs p s).slot v = s.slot v := by
  rw [saveRegs_eq]; rfl

theorem Reg.offset_lt (r : Reg) : r.offset + 4 ≤ 112 := by
  unfold Reg.offset; omega

theorem Reg.offset_apart {q r : Reg} (h : q ≠ r) : q.offset + 4 ≤ r.offset ∨ r.offset + 4 ≤ q.offset := by
  have : q.index.val ≠ r.index.val := fun e => h (Reg.index_injective (Fin.ext e))
  unfold Reg.offset; omega

theorem foldl_storeWord_outside (p : Nat) (g : Reg → Word) (rs : List Reg) (s : State) {a : Nat}
    (h : ∀ r ∈ rs, a < p + r.offset ∨ p + r.offset + 4 ≤ a) :
    (rs.foldl (fun t r => t.storeWord (p + r.offset) (g r)) s).byteAt a = s.byteAt a := by
  induction rs generalizing s with
  | nil => rfl
  | cons r rest ih =>
    simp only [List.foldl_cons]
    rw [ih _ fun q hq => h q (List.mem_cons_of_mem _ hq)]
    exact State.byteAt_storeWord_outside s _ _ (h r List.mem_cons_self)

theorem foldl_storeWord_wordAt (p : Nat) (g : Reg → Word) (rs : List Reg) (s : State) (r : Reg) :
    (rs.foldl (fun t r => t.storeWord (p + r.offset) (g r)) s).wordAt (p + r.offset) =
      if r ∈ rs then g r else s.wordAt (p + r.offset) := by
  induction rs generalizing s with
  | nil => simp
  | cons q rest ih =>
    simp only [List.foldl_cons, List.mem_cons]
    rw [ih]
    by_cases hr : r ∈ rest
    · simp [hr]
    · by_cases hq : r = q
      · subst hq; simp [hr]
      · rw [State.wordAt_storeWord_outside]
        · simp [hr, hq]
        · have := Reg.offset_apart hq
          omega

/-- What a save leaves in the structure: the word of each register saved, the others as they were (R240 to R242). -/
theorem saveRegs_wordAt (rs : List Reg) (p : Nat) (s : State) (r : Reg) :
    (saveRegs rs p s).wordAt (p + r.offset) = if r ∈ rs then s.get r else s.wordAt (p + r.offset) :=
  foldl_storeWord_wordAt p s.get rs s r

/-- A save changes no byte outside the 112 bytes of the structure (R240). -/
theorem saveRegs_byteAt_outside (rs : List Reg) (p : Nat) (s : State) {a : Nat} (h : a < p ∨ p + 112 ≤ a) :
    (saveRegs rs p s).byteAt a = s.byteAt a :=
  foldl_storeWord_outside p s.get rs s fun r _ => by have := Reg.offset_lt r; omega

theorem Reg.mem_all (r : Reg) : r ∈ Reg.all := by cases r <;> decide

/-- `save_current` puts the whole context in the structure (R241). -/
theorem SavedAt.saveRegs (s : State) (p : Nat) : SavedAt s (Machine.saveRegs Reg.all p s) p :=
  ⟨fun r => by rw [saveRegs_wordAt, if_pos (Reg.mem_all r)], fun _ h => saveRegs_byteAt_outside _ p s h⟩

theorem SavedAt.of_mem {s t u : State} {p : Nat} (h : SavedAt s t p) (hm : u.mem = t.mem) : SavedAt s u p := by
  simpa [SavedAt, SameBytesOutside, State.wordAt, State.byteAt, hm] using h

theorem foldl_set_eq (g : Reg → Word) (rs : List Reg) (s : State) :
    rs.foldl (fun t r => t.set r (g r)) s = { s with regs := (rs.foldl (fun t r => t.set r (g r)) s).regs } := by
  induction rs generalizing s with
  | nil => rfl
  | cons r rest ih =>
    simp only [List.foldl_cons]
    rw [ih (s.set r (g r))]
    rfl

/-- `load_current` and `load_base` change registers alone. -/
theorem loadRegs_eq (rs : List Reg) (p : Nat) (s : State) : loadRegs rs p s = { s with regs := (loadRegs rs p s).regs } :=
  foldl_set_eq (fun r => s.wordAt (p + r.offset)) rs s

@[simp] theorem loadRegs_cfg (rs : List Reg) (p : Nat) (s : State) : (loadRegs rs p s).cfg = s.cfg := by
  rw [loadRegs_eq]

@[simp] theorem loadRegs_mem (rs : List Reg) (p : Nat) (s : State) : (loadRegs rs p s).mem = s.mem := by
  rw [loadRegs_eq]

@[simp] theorem loadRegs_byteAt (rs : List Reg) (p : Nat) (s : State) (a : Nat) :
    (loadRegs rs p s).byteAt a = s.byteAt a := by
  simp [State.byteAt]

theorem foldl_set_get (g : Reg → Word) (rs : List Reg) (s : State) (q : Reg) :
    (rs.foldl (fun t r => t.set r (g r)) s).get q = if q ∈ rs then g q else s.get q := by
  induction rs generalizing s with
  | nil => simp
  | cons r rest ih =>
    simp only [List.foldl_cons, List.mem_cons]
    rw [ih]
    by_cases hq : q ∈ rest
    · simp [hq]
    · by_cases hr : q = r
      · subst hr; simp [hq]
      · simp [hq, hr]

/-- What a load leaves in each register (R243, R244). -/
theorem loadRegs_get (rs : List Reg) (p : Nat) (s : State) (q : Reg) :
    (loadRegs rs p s).get q = if q ∈ rs then s.wordAt (p + q.offset) else s.get q :=
  foldl_set_get (fun r => s.wordAt (p + r.offset)) rs s q

/-- Where `save_current` completes (R241). -/
theorem saveCurrent_ok {s t : State} (h : saveCurrent s = .ok t) :
    ∃ p, taskAddr s (s.get .rct) = .ok p ∧ t = saveRegs Reg.all p s := by
  unfold saveCurrent at h
  split at h
  · simp at h
  · next p hp => exact ⟨p, hp, by simpa using h.symm⟩

theorem saveCurrent_error {s t : State} {k : FaultKind} (h : saveCurrent s = .error (.raise k t)) :
    k = .machineCheck ∧ SameButLatches s t := by
  unfold saveCurrent at h
  split at h
  · next e he =>
    simp only [Except.error.injEq] at h
    subst h
    exact taskAddr_error he
  · simp at h

/-- Where `load_base` completes: the base task runs at the elevated level (R243). -/
theorem loadBase_ok {s t : State} (h : loadBase s = .ok t) :
    ∃ p, taskAddr s (s.get .rbt) = .ok p ∧ t = loadRegs Reg.baseSet p s ∧ t.lowered = false := by
  unfold loadBase at h
  split at h
  · simp at h
  · next p hp =>
    simp only at h
    split at h
    · simp at h
    · next hl =>
      simp only [Except.ok.injEq] at h
      subst h
      exact ⟨p, hp, rfl, by simpa using hl⟩

/-- Where `load_base` stops, it is by a MachineCheck: the structure does not resolve, or its RST is at the lowered level,
with the 9 registers loaded (R223, R243). -/
theorem loadBase_error {s t : State} {k : FaultKind} (h : loadBase s = .error (.raise k t)) :
    k = .machineCheck ∧ (SameButLatches s t ∨ ∃ p, taskAddr s (s.get .rbt) = .ok p ∧ t = loadRegs Reg.baseSet p s) := by
  unfold loadBase at h
  split at h
  · next e he =>
    simp only [Except.error.injEq] at h
    subst h
    exact ⟨(taskAddr_error he).1, .inl (taskAddr_error he).2⟩
  · next p hp =>
    simp only at h
    split at h
    · simp only [raise_eq_error, Trap.raise.injEq] at h
      obtain ⟨rfl, rfl⟩ := h
      exact ⟨rfl, .inr ⟨p, hp, rfl⟩⟩
    · simp at h

theorem saveBase_ok {s t : State} (h : saveBase s = .ok t) :
    ∃ p, taskAddr s (s.get .rbt) = .ok p ∧ t = saveRegs Reg.baseSet p s := by
  unfold saveBase at h
  split at h
  · simp at h
  · next p hp => exact ⟨p, hp, by simpa using h.symm⟩

theorem saveBase_error {s t : State} {k : FaultKind} (h : saveBase s = .error (.raise k t)) :
    k = .machineCheck ∧ SameButLatches s t := by
  unfold saveBase at h
  split at h
  · next e he =>
    simp only [Except.error.injEq] at h
    subst h
    exact taskAddr_error he
  · simp at h

theorem loadCurrent_ok {s t : State} (h : loadCurrent s = .ok t) :
    ∃ p, taskAddr s (s.get .rct) = .ok p ∧ t = loadRegs Reg.all p s := by
  unfold loadCurrent at h
  split at h
  · simp at h
  · next p hp => exact ⟨p, hp, by simpa using h.symm⟩

theorem loadCurrent_error {s t : State} {k : FaultKind} (h : loadCurrent s = .error (.raise k t)) :
    k = .machineCheck ∧ SameButLatches s t := by
  unfold loadCurrent at h
  split at h
  · next e he =>
    simp only [Except.error.injEq] at h
    subst h
    exact taskAddr_error he
  · simp at h

/-- Everything the context switch of a trap can do when it completes (R222 (a), R233). -/
theorem trapSwitch_ok {s t : State} (h : trapSwitch s = .ok t) :
    (s.taskRegs = false ∧ t = s) ∨
    (s.taskRegs = true ∧ t.lowered = false ∧ ∃ p q, taskAddr s (s.get .rct) = .ok p ∧
      taskAddr (saveRegs Reg.all p s) (s.get .rbt) = .ok q ∧ t = loadRegs Reg.baseSet q (saveRegs Reg.all p s)) := by
  unfold trapSwitch at h
  split at h
  · next htr =>
    split at h
    · simp at h
    · next u hu =>
      obtain ⟨p, hp, rfl⟩ := saveCurrent_ok hu
      obtain ⟨q, hq, rfl, hl⟩ := loadBase_ok h
      rw [saveRegs_get] at hq
      exact .inr ⟨htr, hl, p, q, hp, hq, rfl⟩
  · next htr => exact .inl ⟨by simpa using htr, by simpa using h.symm⟩

/-- Where the context switch of a trap stops it is by a MachineCheck, with task registers enabled. -/
theorem trapSwitch_error {s t : State} {k : FaultKind} (h : trapSwitch s = .error (.raise k t)) :
    k = .machineCheck ∧ s.taskRegs = true ∧
    (SameButLatches s t ∨
      ∃ p, taskAddr s (s.get .rct) = .ok p ∧
        (SameButLatches (saveRegs Reg.all p s) t ∨
          ∃ q, taskAddr (saveRegs Reg.all p s) (s.get .rbt) = .ok q ∧ t = loadRegs Reg.baseSet q (saveRegs Reg.all p s))) := by
  unfold trapSwitch at h
  split at h
  · next htr =>
    split at h
    · next e he =>
      simp only [Except.error.injEq] at h
      subst h
      exact ⟨(saveCurrent_error he).1, htr, .inl (saveCurrent_error he).2⟩
    · next u hu =>
      obtain ⟨p, hp, rfl⟩ := saveCurrent_ok hu
      obtain ⟨hk, hc⟩ := loadBase_error h
      refine ⟨hk, htr, .inr ⟨p, hp, ?_⟩⟩
      simpa only [saveRegs_get] using hc
  · simp at h

/-- The trap switch stops where the current task does not resolve, with nothing saved (R240, R241). -/
theorem trapSwitch_current_error {s : State} {e : Trap} (ht : s.taskRegs = true) (h : taskAddr s (s.get .rct) = .error e) :
    trapSwitch s = .error e := by
  simp [trapSwitch, ht, saveCurrent, h]

/-- The trap switch stops where the base task does not resolve, with the context saved (R240, R243). -/
theorem trapSwitch_base_error {s : State} {p : Nat} {e : Trap} (ht : s.taskRegs = true)
    (h1 : taskAddr s (s.get .rct) = .ok p) (h2 : taskAddr (saveRegs Reg.all p s) (s.get .rbt) = .error e) :
    trapSwitch s = .error e := by
  simp [trapSwitch, ht, saveCurrent, h1, loadBase, h2]

@[simp] theorem trapSwitch_off {s : State} (h : s.taskRegs = false) : trapSwitch s = .ok s := by
  simp [trapSwitch, h]

/-! ## The fault controller -/

/-- Everything taking a fault can do when it gives a state (R222, R223). -/
theorem takeFault_next {k : FaultKind} {s t : State} (h : takeFault k s = .next t) :
    (k = .machineCheck ∧ t = machineCheck s) ∨
    (k ≠ .machineCheck ∧ ∃ u, trapSwitch s = .ok u ∧ t = redirect k (u.flagFault k)) ∨
    (k ≠ .machineCheck ∧ ∃ u, trapSwitch s = .error (.raise .machineCheck u) ∧ t = machineCheck u) := by
  unfold takeFault at h
  split at h
  · next hk => exact .inl ⟨hk, by simpa using h.symm⟩
  · next hk =>
    split at h
    · next u hu => exact .inr (.inl ⟨hk, u, hu, by simpa using h.symm⟩)
    · next k' u hu =>
      obtain ⟨rfl, -⟩ := trapSwitch_error hu
      exact .inr (.inr ⟨hk, u, hu, by simpa using h.symm⟩)
    · simp at h

/-- Taking a fault refuses nothing. -/
theorem takeFault_ne_refused (k : FaultKind) (s : State) (r : Refusal) : takeFault k s ≠ .refused r := by
  unfold takeFault
  split
  · simp
  · split <;> simp

/-- With task registers off, a fault sets its bit and is redirected or terminates (R222). -/
theorem takeFault_taskRegs_off {k : FaultKind} {s : State} (hk : k ≠ .machineCheck) (h : s.taskRegs = false) :
    takeFault k s = .next (redirect k (s.flagFault k)) := by
  simp [takeFault, hk, h]

@[simp] theorem settle_ok (s : State) : settle (.ok s) = .next s := rfl

@[simp] theorem settle_raise (k : FaultKind) (s : State) : settle (raise k s) = takeFault k s := rfl

@[simp] theorem settle_error (k : FaultKind) (s : State) : settle (.error (.raise k s)) = takeFault k s := rfl

@[simp] theorem settle_hang : settle (.error .hang) = .fault .pageWalkHang := rfl

theorem settle_ne_refused (c : Check State) (r : Refusal) : settle c ≠ .refused r := by
  match c with
  | .ok s => simp
  | .error (.raise k s) => exact takeFault_ne_refused k s r
  | .error .hang => simp

/-- An instruction's answer is its rule's, with the fault taken. -/
theorem exec_eq_settle_effect (i : Instr) (s : State) : exec i s = settle (effect i s) := by
  cases i <;> rfl

/-! ## Handler entry -/

theorem enter_ok {h : Word} {s t : State} (e : enter h s = .ok t) : ∃ u, trapSwitch s = .ok u ∧ t = u.set .rip h := by
  unfold enter at e
  split at e
  · simp at e
  · next u hu => exact ⟨u, hu, by simpa using e.symm⟩

theorem enter_error {h : Word} {s : State} {t : Trap} (e : enter h s = .error t) : trapSwitch s = .error t := by
  unfold enter at e
  split at e
  · next e' he => rw [he]; simpa using e
  · simp at e

theorem enter_taskRegs_off {s : State} (h : s.taskRegs = false) (a : Word) : enter a s = .ok (s.set .rip a) := by
  simp [enter, h]

end Sys2Proof.Machine
end

