-- ==== Sys2Proof/Laws/Decode.lean ====
section
/-!
SUPPORT. Byte order, the fields of the instruction word, and what the decoder and the fetch can do.
-/

namespace Sys2Proof

/-! ## Words and bytes -/

@[simp] theorem takeWord_wordBytes (v : Word) (rest : List Byte) : takeWord (wordBytes v ++ rest) = some (v, rest) := by
  simp [takeWord, wordBytes]

/-- The bits of a joined word, byte by byte. -/
theorem getLsbD_joinBytes (b3 b2 b1 b0 : Byte) (j : Nat) :
    (joinBytes b3 b2 b1 b0).getLsbD j =
      if j < 8 then b0.getLsbD j else if j < 16 then b1.getLsbD (j - 8) else if j < 24 then b2.getLsbD (j - 16)
      else b3.getLsbD (j - 24) := by
  unfold joinBytes
  simp only [BitVec.getLsbD_append]
  by_cases h1 : j < 8
  · simp [h1]
  · by_cases h2 : j < 16
    · have : j - 8 < 8 := by omega
      simp [h1, h2, this]
    · by_cases h3 : j < 24
      · have a : ¬ j - 8 < 8 := by omega
        have b : j - 16 < 8 := by omega
        simp [h1, h2, h3, a, b, show j - 8 - 8 = j - 16 by omega]
      · have a : ¬ j - 8 < 8 := by omega
        have b : ¬ j - 8 - 8 < 8 := by omega
        simp [h1, h2, h3, a, b, show j - 8 - 8 - 8 = j - 24 by omega]

@[simp] theorem opcodeField_joinBytes (b3 b2 b1 b0 : Byte) : opcodeField (joinBytes b3 b2 b1 b0) = b0 := by
  apply BitVec.eq_of_getLsbD_eq; intro j hj
  simp [opcodeField, getLsbD_joinBytes, hj]

@[simp] theorem id1Field_joinBytes (b3 b2 b1 b0 : Byte) : id1Field (joinBytes b3 b2 b1 b0) = b1 := by
  apply BitVec.eq_of_getLsbD_eq; intro j hj
  simp [id1Field, getLsbD_joinBytes, hj, show 8 + j < 16 by omega]

@[simp] theorem id2Field_joinBytes (b3 b2 b1 b0 : Byte) : id2Field (joinBytes b3 b2 b1 b0) = b2 := by
  apply BitVec.eq_of_getLsbD_eq; intro j hj
  simp [id2Field, getLsbD_joinBytes, hj, show ¬ 16 + j < 8 by omega, show 16 + j < 24 by omega]

@[simp] theorem wordBytes_joinBytes (b3 b2 b1 b0 : Byte) : wordBytes (joinBytes b3 b2 b1 b0) = [b3, b2, b1, b0] := by
  have h0 := opcodeField_joinBytes b3 b2 b1 b0
  have h1 := id1Field_joinBytes b3 b2 b1 b0
  have h2 := id2Field_joinBytes b3 b2 b1 b0
  unfold opcodeField id1Field id2Field at *
  have h3 : (joinBytes b3 b2 b1 b0).extractLsb' 24 8 = b3 := by
    apply BitVec.eq_of_getLsbD_eq; intro j hj
    simp [getLsbD_joinBytes, hj, show ¬ 24 + j < 8 by omega, show ¬ 24 + j < 16 by omega]
  simp only [wordBytes, h0, h1, h2, h3]

/-- The word taken off a list of bytes stands at its head. -/
theorem takeWord_some {bytes : List Byte} {v : Word} {rest : List Byte} (h : takeWord bytes = some (v, rest)) :
    bytes = wordBytes v ++ rest := by
  unfold takeWord at h
  split at h
  · simp at h; obtain ⟨rfl, rfl⟩ := h; simp
  · simp at h

theorem flatMap_wordBytes_length (l : List Word) : (l.flatMap wordBytes).length = 4 * l.length := by
  induction l with
  | nil => rfl
  | cons v r ih => simp [Machine.wordBytes_length, ih]; omega

/-! ## Operands and sizes -/

theorem countLiterals_le (ops : List Operand) : countLiterals ops ≤ ops.length := by
  induction ops with
  | nil => simp [countLiterals]
  | cons o r ih => cases o <;> simp [countLiterals] <;> omega

theorem operandLiterals_length (ops : List Operand) : (ops.flatMap operandLiterals).length = countLiterals ops := by
  induction ops with
  | nil => rfl
  | cons o r ih => cases o <;> simp [operandLiterals, countLiterals, ih]

theorem Instr.operands_length (i : Instr) : i.operands.length ≤ 2 := by cases i <;> simp [Instr.operands]

/-- An instruction's size as a number: 4, 8 or 12 (R105). -/
theorem Instr.size_toNat (i : Instr) : i.size.toNat = 4 * (1 + countLiterals i.operands) := by
  have := countLiterals_le i.operands
  have := Instr.operands_length i
  simp only [Instr.size, encodedSize, BitVec.toNat_ofNat]; omega

/-! ## The decoder -/

/-- An encoded operand is taken back. -/
theorem takeOperand_encoded (op : Operand) (rest : List Byte) (h : op.wellFormed = true) :
    takeOperand (operandId op) ((operandLiterals op).flatMap wordBytes ++ rest) = .ok (op, rest) := by
  cases op with
  | reg id => simp [Operand.wellFormed] at h; simp [takeOperand, operandId, operandLiterals, h]
  | lit v => simp [takeOperand, operandId, operandLiterals]

/-- What an operand is taken from, and how many literals its id announced. -/
theorem takeOperand_ok {id : Byte} {rest rest' : List Byte} {op : Operand} (h : takeOperand id rest = .ok (op, rest')) :
    rest = (operandLiterals op).flatMap wordBytes ++ rest' ∧ op.wellFormed = true ∧ operandId op = id ∧
      literalsOfId id = countLiterals [op] := by
  unfold takeOperand at h
  split at h
  · next hid =>
    split at h
    · next v r hv =>
      simp at h; obtain ⟨rfl, rfl⟩ := h
      simp [operandLiterals, takeWord_some hv, Operand.wellFormed, operandId, hid, literalsOfId, countLiterals]
    · simp at h
  · next hid =>
    simp at h; obtain ⟨rfl, rfl⟩ := h
    have h0 : ¬ id = 0#8 := hid
    simp [operandLiterals, Operand.wellFormed, operandId, literalsOfId, countLiterals, h0]

theorem takeTwo_ok {mk : Operand → Operand → Instr} {iw : Word} {rest rest' : List Byte} {i : Instr}
    (h : takeTwo mk iw rest = .ok (i, rest')) :
    ∃ a b, i = mk a b ∧ rest = (operandLiterals a ++ operandLiterals b).flatMap wordBytes ++ rest' ∧
      a.wellFormed = true ∧ b.wellFormed = true ∧ operandId a = id1Field iw ∧ operandId b = id2Field iw ∧
      literalsOfId (id1Field iw) + literalsOfId (id2Field iw) = countLiterals [a, b] := by
  unfold takeTwo at h
  split at h
  · simp at h
  · next a r1 h1 =>
    split at h
    · simp at h
    · next b r2 h2 =>
      simp at h; obtain ⟨rfl, rfl⟩ := h
      obtain ⟨e1, w1, i1, l1⟩ := takeOperand_ok h1
      obtain ⟨e2, w2, i2, l2⟩ := takeOperand_ok h2
      refine ⟨a, b, rfl, by rw [e1, e2]; simp, w1, w2, i1, i2, ?_⟩
      rw [l1, l2]
      cases a <;> cases b <;> rfl

theorem takeOne_ok {mk : Operand → Instr} {iw : Word} {rest rest' : List Byte} {i : Instr}
    (h : takeOne mk iw rest = .ok (i, rest')) :
    ∃ a, i = mk a ∧ rest = (operandLiterals a).flatMap wordBytes ++ rest' ∧ a.wellFormed = true ∧
      operandId a = id1Field iw ∧ literalsOfId (id1Field iw) = countLiterals [a] := by
  unfold takeOne at h
  split at h
  · simp at h
  · next a r1 h1 =>
    simp at h; obtain ⟨rfl, rfl⟩ := h
    obtain ⟨e1, w1, i1, l1⟩ := takeOperand_ok h1
    exact ⟨a, rfl, e1, w1, i1, l1⟩

/-- The literal words the instruction word announces are those of the instruction decoded (R105). -/
theorem literalWords_of_decodeWord {iw : Word} {rest rest' : List Byte} {i : Instr}
    (h : decodeWord iw rest = .ok (i, rest')) : literalWords iw = some (countLiterals i.operands) := by
  unfold decodeWord at h
  split at h <;> rename_i hn
  all_goals first
    | (obtain ⟨a, b, rfl, _, _, _, _, _, hc⟩ := takeTwo_ok h; simp only [literalWords, operandCount, hn, hc]; rfl)
    | (obtain ⟨a, rfl, _, _, _, hc⟩ := takeOne_ok h; simp only [literalWords, operandCount, hn, hc]; rfl)
    | (simp at h; done)
    | (simp only [Except.ok.injEq, Prod.mk.injEq] at h; obtain ⟨rfl, rfl⟩ := h; simp [literalWords, operandCount, hn]; rfl)

namespace Machine

/-! ## Fetch -/

theorem State.bytesAt_append (s : State) (p : Nat) {m n : Nat} (h : m ≤ n) :
    s.bytesAt p n = s.bytesAt p m ++ s.bytesAt (p + m) (n - m) := by
  simp only [State.bytesAt]
  apply List.ext_getElem
  · simp; omega
  · intro i h1 h2
    simp [List.getElem_append]
    intro hm; congr 1; omega

theorem State.bytesAt_four (s : State) (p : Nat) : s.bytesAt p 4 = wordBytes (s.wordAt p) := by
  simp [State.bytesAt, List.range, List.range.loop, State.wordAt]

/-- Where the fetch answers an instruction (R100, R104). -/
theorem fetch_ok {s : State} {i : Instr} {p : Word} (ht : translate s (s.get .rip) permX = .ok p)
    (hz : inZone s.cfg p.toNat i.size.toNat = true) (hd : decode (s.bytesAt p.toNat i.size.toNat) = .ok (i, [])) :
    fetch s = .ok i := by
  rw [Instr.size_toNat] at *
  have h4 : 4 ≤ 4 * (1 + countLiterals i.operands) := by omega
  have hz4 : inZone s.cfg p.toNat 4 = true := inZone_sub hz (Nat.le_refl _) (by omega)
  have hd2 := hd
  rw [State.bytesAt_append s p.toNat h4, State.bytesAt_four] at hd2
  simp only [decode, takeWord_wordBytes] at hd2
  simp only [fetch, ht, hz4, literalWords_of_decodeWord hd2, hz, hd, if_true]

/-- A fetch that raises a fault changes nothing but the latches. -/
theorem fetch_error {s t : State} {k : FaultKind} (h : fetch s = .error (.raise k t)) : SameButLatches s t := by
  unfold fetch at h
  split at h
  · next e he => simp at h; subst h; exact (translate_error he).2
  · split at h
    · split at h
      · simp at h; rw [h.2]; exact rfl
      · split at h
        · split at h
          · simp at h
          · simp at h; rw [h.2]; exact rfl
        · simp at h; rw [h.2]; exact rfl
    · simp at h; rw [h.2]; exact rfl

/-- With both queues empty the poll does nothing (R250). -/
theorem poll_quiet {s : State} (h1 : s.kbd = []) (h2 : s.tmr = []) : poll s = .next s := by
  simp [poll, h1, h2, drainKeys, drainTimers]

end Machine

end Sys2Proof
end

