-- ==== Sys2Proof/Laws/Instr.lean ====
section
/-!
SUPPORT. What the operations that instructions are made of can do, said once: operands, flags, arithmetic, the ports, the
interrupt paths, the page list; and how a rule's result gives an instruction's frame.
-/

namespace Sys2Proof.Machine

/-! ## Frames -/

theorem byteAt_of_mem {s t : State} (h : t.mem = s.mem) (a : Nat) : t.byteAt a = s.byteAt a := by
  simp [State.byteAt, h]

theorem wordAt_of_mem {s t : State} (h : t.mem = s.mem) (a : Nat) : t.wordAt a = s.wordAt a := by
  simp [State.wordAt, byteAt_of_mem h]

theorem SameElse.refl (s : State) : SameElse s s := rfl

theorem SameElse.trans {s t u : State} (h1 : SameElse s t) (h2 : SameElse t u) : SameElse s u := by
  unfold SameElse at *
  exact h2.trans (by rw [h1])

theorem SameElse.set (s : State) (r : Reg) (v : Word) : SameElse s (s.set r v) := rfl

theorem SameElse.storeWord (s : State) (p : Nat) (v : Word) : SameElse s (s.storeWord p v) := rfl

theorem SameElse.saveRegs (rs : List Reg) (p : Nat) (s : State) : SameElse s (Machine.saveRegs rs p s) := by
  unfold SameElse; rw [saveRegs_eq]

theorem SameElse.loadRegs (rs : List Reg) (p : Nat) (s : State) : SameElse s (Machine.loadRegs rs p s) := by
  unfold SameElse; rw [loadRegs_eq]

theorem SameRegsBut.set (s : State) (r : Reg) (v : Word) : SameRegsBut s (s.set r v) [r] := by
  intro q hq; simp at hq; simp [hq]

theorem exec_of_effect {i : Instr} {s t : State} (h : effect i s = .ok t) : exec i s = .next t := by
  rw [exec_eq_settle_effect, h]; rfl

theorem exec_of_raise {i : Instr} {s t : State} {k : FaultKind} (h : effect i s = raise k t) :
    exec i s = takeFault k t := by
  rw [exec_eq_settle_effect, h]; rfl

theorem WritesRegister.of_effect {i : Instr} {s : State} {r : Reg} {v : Word} (hr : r ≠ .rip)
    (h : effect i s = .ok ((s.set r v).set .rip (s.get .rip + i.size))) : WritesRegister i s r v := by
  refine ⟨_, exec_of_effect h, by simp [hr], by simp, ?_, fun _ => rfl, rfl⟩
  intro q hq; simp at hq; simp [hq]

theorem WritesWord.of_effect {i : Instr} {s : State} {p : Nat} {v : Word}
    (h : effect i s = .ok ((s.storeWord p v).set .rip (s.get .rip + i.size))) : WritesWord i s p v := by
  refine ⟨_, exec_of_effect h, by simp, by simp, ?_, ?_, rfl⟩
  · intro q hq; simp at hq; simp [hq]
  · intro a ha; simp; exact State.byteAt_storeWord_outside s p v ha

theorem OnlyMovesTo.of_effect {i : Instr} {s : State} {a : Word} (h : effect i s = .ok (s.set .rip a)) :
    OnlyMovesTo i s a :=
  ⟨_, exec_of_effect h, by simp, SameRegsBut.set s .rip a, fun _ => rfl, rfl⟩

/-! ## Operands -/

theorem decodeReg_some {id : Byte} {r : Reg} (h : decodeReg id = some r) : id ≠ 0 ∧ r.offset = id.toNat := by
  revert h; revert id r
  decide

/-- No operand names RIP (R22). -/
theorem decodeReg_ne_rip {id : Byte} {r : Reg} (h : decodeReg id = some r) : r ≠ .rip := by
  rintro rfl
  obtain ⟨h0, h1⟩ := decodeReg_some h
  exact h0 (BitVec.eq_of_toNat_eq h1.symm)

theorem regOf_some {s : State} {id : Byte} {r : Reg} (h : decodeReg id = some r) : regOf s id = .ok r := by
  simp [regOf, h]

theorem regOf_none {s : State} {id : Byte} (h : decodeReg id = none) : regOf s id = raise .badRegister s := by
  simp [regOf, h]

/-- A destination register, in one equation: its id, then the level (R108 checks 5 and 6). -/
theorem destOf_eq (s : State) (id : Byte) :
    destOf s id =
      match decodeReg id with
      | none => raise .badRegister s
      | some r => if canWrite s.lowered r then .ok r else raise .noPrivilege s := by
  unfold destOf
  cases h : decodeReg id with
  | none => simp [regOf_none h]; rfl
  | some r => simp [regOf_some h]

theorem destOf_ok {s : State} {id : Byte} {r : Reg} (h : decodeReg id = some r) (hw : canWrite s.lowered r = true) :
    destOf s id = .ok r := by
  simp [destOf_eq, h, hw]

theorem valueOf_reg {s : State} {id : Byte} {r : Reg} (h : decodeReg id = some r) : valueOf s (.reg id) = .ok (s.get r) := by
  simp [valueOf, regOf_some h]

theorem valueOf_of_names {op : Operand} (h : Operand.names op = true) (s : State) : ∃ v, valueOf s op = .ok v := by
  cases op with
  | lit v => exact ⟨v, rfl⟩
  | reg id =>
    simp only [Operand.names, Option.isSome_iff_exists] at h
    obtain ⟨r, h⟩ := h
    exact ⟨s.get r, valueOf_reg h⟩

theorem valueOf_of_not_names {op : Operand} (h : Operand.names op = false) (s : State) :
    valueOf s op = raise .badRegister s := by
  cases op with
  | lit v => simp [Operand.names] at h
  | reg id =>
    simp only [Operand.names, Option.isSome_eq_false_iff, Option.isNone_iff_eq_none] at h
    simp [valueOf, regOf_none h]; rfl

/-! ## Flags and arithmetic -/

theorem withBit_getLsbD (v : Word) {i : Nat} (hi : i < 32) (b : Bool) (k : Nat) :
    (withBit v i b).getLsbD k = if k = i then b else v.getLsbD k := by
  unfold withBit
  cases b
  · simp only [Bool.false_eq_true, if_false, BitVec.getLsbD_and, BitVec.getLsbD_not, BitVec.getLsbD_twoPow]
    by_cases h : k = i
    · subst h; simp [hi]
    · have : ¬ i = k := fun e => h e.symm
      simp [h, this]
      intro hk; exact BitVec.lt_of_getLsbD hk
  · simp only [if_true, BitVec.getLsbD_or, BitVec.getLsbD_twoPow]
    by_cases h : k = i
    · subst h; simp [hi]
    · have : ¬ i = k := fun e => h e.symm
      simp [h, this]

/-- What a floating or integer operation changes: registers, and the count of NaN results drawn. -/
theorem arithmetic_ok {m : ArithMode} {a d : Word} {rd : Reg} {s t : State} (h : arithmetic m a d rd s = .ok t) :
    t = { s with regs := t.regs, draws := t.draws } := by
  unfold arithmetic at h
  split at h
  · unfold aluOp at h
    split at h
    · unfold aluDivide at h; split at h <;> simp at h; subst h; rfl
    · unfold aluDivide at h; split at h <;> simp at h; subst h; rfl
    · split at h <;> simp at h <;> subst h <;> rfl
  · split at h
    · unfold fpuSingle at h; split at h
      · simp at h
      · split at h <;> simp at h <;> subst h <;> rfl
    · unfold fpuDoubleOp at h; split at h
      · simp at h
      · split at h <;> simp at h <;> subst h <;> rfl

/-- What `arth` raises past the mode check, with nothing written (R159, R172). -/
theorem arithmetic_error {m : ArithMode} {a d : Word} {rd : Reg} {s t : State} {k : FaultKind}
    (h : arithmetic m a d rd s = .error (.raise k t)) : t = s ∧ (k = .aluFault ∨ k = .fpuFault) := by
  unfold arithmetic at h
  split at h
  · unfold aluOp at h
    split at h
    · unfold aluDivide at h; split at h <;> simp at h; simp [h]
    · unfold aluDivide at h; split at h <;> simp at h; simp [h]
    · split at h <;> simp at h
  · split at h
    · unfold fpuSingle at h; split at h
      · simp at h; simp [h]
      · split at h <;> simp at h
    · unfold fpuDoubleOp at h; split at h
      · simp at h; simp [h]
      · split at h <;> simp at h

/-- `arth` once its operands, the level and the mode are in order (R150). -/
theorem effect_arth {s : State} {op1 : Operand} {a : Word} {id2 : Byte} {rd : Reg} {m : ArithMode}
    (ha : valueOf s op1 = .ok a) (hd : decodeReg id2 = some rd) (hw : canWrite s.lowered rd = true)
    (hm : arithMode (s.get .rarth) = some m) :
    effect (.arth op1 (.reg id2)) s =
      (arithmetic m a (s.get rd) rd s >>= fun t => .ok (t.set .rip (nextAddr s [op1, .reg id2]))) := by
  simp [effect, arthEffect, needReg, ha, destOf_ok hd hw, modeOf, hm]

/-- `lgic` once its operands, the level and the mode are in order (R180). -/
theorem effect_lgic {s : State} {op1 : Operand} {a : Word} {id2 : Byte} {rd : Reg} {m : LogicMode}
    (ha : valueOf s op1 = .ok a) (hd : decodeReg id2 = some rd) (hw : canWrite s.lowered rd = true)
    (hm : logicMode (s.get .rlgic) = some m) :
    effect (.lgic op1 (.reg id2)) s =
      .ok ((s.set rd (m.eval (s.get rd) a)).set .rip (nextAddr s [op1, .reg id2])) := by
  simp [effect, lgicEffect, needReg, ha, destOf_ok hd hw, modeOf, hm]

/-! ## Interrupts and ports -/

theorem inlineOf_eq_none {v : Word} : inlineOf v = none ↔ inlineNumber v = false := by
  unfold inlineOf inlineNumber
  constructor
  · intro h; split at h <;> simp_all
  · intro h; split <;> simp_all

/-- `intr` with an inline vector at the elevated level (R190, R195). -/
theorem effect_intr_inline {s : State} {v : Word} {f : InlineVector} (hl : s.lowered = false) (hf : inlineOf v = some f) :
    effect (.intr (.lit v)) s = inlineEffect f (s.get .rip + 8) s := by
  simp only [effect, intrEffect, needLit, Check.bind_ok, hf, hl, Bool.false_eq_true, if_false]; rfl

/-- `intr` with any other number (R190). -/
theorem effect_intr_table {s : State} {v : Word} (hv : inlineNumber v = false) :
    effect (.intr (.lit v)) s = dispatchVectored v (s.get .rip + 8) s := by
  simp only [effect, intrEffect, needLit, Check.bind_ok, inlineOf_eq_none.mpr hv]; rfl

theorem installable_iff (n : Nat) : installable n = true ↔ (32 ≤ n ∧ n ≤ 127) ∨ n = 0x09 ∨ n = 0x10 := by
  simp [installable, or_assoc]

theorem storageInRange_iff {s : State} {dev off len : Nat} :
    storageInRange s dev off len = true ↔ dev < s.cfg.ndev ∧ ∃ d, s.storage[dev]? = some d ∧ off + len ≤ d.size := by
  unfold storageInRange
  cases s.storage[dev]? <;> simp

/-- What reading a storage device gives after a transfer to one (R264). -/
theorem storageByteAt_storagePut (s : State) (dev off : Nat) (bytes : List Byte) {d : Device}
    (hd : s.storage[dev]? = some d) (dev' k : Nat) :
    storageByteAt (storagePut s dev off bytes) dev' k =
      if dev' = dev ∧ off ≤ k ∧ k < off + bytes.length then (bytes[k - off]?).getD 0 else storageByteAt s dev' k := by
  unfold storageByteAt storagePut
  simp only [List.getElem?_modify]
  by_cases h : dev' = dev
  · subst h
    simp [hd, Memory.find_store]
    split
    · next hh => rw [List.getElem?_eq_getElem (by omega)]; simp
    · rfl
  · have : ¬ dev = dev' := fun e => h e.symm
    simp [this, h]

/-! ## Traps -/

theorem taskRegs_of_rst {s t : State} (h : t.get .rst = s.get .rst) : t.taskRegs = s.taskRegs := by
  simp [State.taskRegs, h]

theorem lowered_of_rst {s t : State} (h : t.get .rst = s.get .rst) : t.lowered = s.lowered := by
  simp [State.lowered, h]

/-- The trap switch with task registers on and both task pointers in order (R241, R243). -/
theorem trapSwitch_on {s : State} {p q : Nat} (ht : s.taskRegs = true) (h1 : taskAddr s (s.get .rct) = .ok p)
    (h2 : taskAddr (saveRegs Reg.all p s) (s.get .rbt) = .ok q) :
    trapSwitch s =
      if (loadRegs Reg.baseSet q (saveRegs Reg.all p s)).lowered then
        raise .machineCheck (loadRegs Reg.baseSet q (saveRegs Reg.all p s))
      else .ok (loadRegs Reg.baseSet q (saveRegs Reg.all p s)) := by
  simp only [trapSwitch, ht, if_true, saveCurrent, h1, loadBase, saveRegs_get, h2]

/-- A trap switch leaves the queues and RUN as they were. -/
theorem trapSwitch_queues {s t : State} (h : trapSwitch s = .ok t) : t.kbd = s.kbd ∧ t.tmr = s.tmr ∧ t.run = s.run := by
  rcases trapSwitch_ok h with ⟨-, rfl⟩ | ⟨-, -, p, q, -, -, rfl⟩
  · simp
  · rw [loadRegs_eq, saveRegs_eq]; simp

theorem takeFault_of_switch {s t : State} {k : FaultKind} (hk : k ≠ .machineCheck) (h : trapSwitch s = .ok t) :
    takeFault k s = .next (redirect k (t.flagFault k)) := by
  simp [takeFault, hk, h]

theorem takeFault_of_failure {s t : State} {k j : FaultKind} (hk : k ≠ .machineCheck)
    (h : trapSwitch s = .error (.raise j t)) : takeFault k s = .next (machineCheck t) := by
  simp [takeFault, hk, h]

@[simp] theorem takeFault_machineCheck (s : State) : takeFault .machineCheck s = .next (machineCheck s) := by
  simp [takeFault]

theorem deliver_uninstalled {v : Nat} {s : State} (h : (s.slot v).handler = 0) (c : Word) :
    deliver v c s = .ok (s.set .rgp1 c) := by
  simp [deliver, h]

theorem deliver_installed {v : Nat} {s : State} (h : (s.slot v).handler ≠ 0) (c : Word) :
    deliver v c s = enter (s.slot v).handler (s.set .rgp1 c) := by
  have h' : (s.slot v).handler ≠ 0#32 := h
  simp [deliver, h']

/-- Nothing but a MachineCheck can come of a delivery that raises a fault. -/
theorem deliver_error {v : Nat} {c : Word} {s t : State} {k : FaultKind} (h : deliver v c s = .error (.raise k t)) :
    k = .machineCheck := by
  unfold deliver at h
  simp only at h
  split at h
  · simp at h
  · exact (trapSwitch_error (enter_error h)).1

theorem rffMask_eq (k : FaultKind) : rffMask k = k.mask := by cases k <;> rfl

/-- What a MachineCheck leaves, raised where the trap of `u` had got to (R223). -/
theorem MachineChecked.of_raised {u w : State}
    (h : w = { u with regs := w.regs, mem := w.mem, fltAddr := w.fltAddr, fltPerm := w.fltPerm })
    (hr : w.get .rff = u.get .rff) : MachineChecked u (machineCheck w) := by
  refine ⟨by simp [machineCheck, State.flagFault, rffMask_eq, hr], ?_⟩
  rw [h]; rfl

/-- A MachineCheck adds its bit to RFF and changes no other register (R223). -/
theorem machineCheck_get {w : State} {q : Reg} (h : q ≠ .rff) : (machineCheck w).get q = w.get q := by
  simp [machineCheck, State.flagFault, h]

@[simp] theorem machineCheck_mem (w : State) : (machineCheck w).mem = w.mem := rfl

/-- Every way the task switch of a trap fails, where its failure ends in MachineCheck (R223, R240, R243). -/
theorem SwitchFails.of_trapSwitch {u : State} {answer : Result} (ht : u.taskRegs = true)
    (h : ∀ j t, trapSwitch u = .error (.raise j t) → answer = .next (machineCheck t)) : SwitchFails u answer := by
  refine ⟨?_, ?_, ?_⟩
  · intro j w hw
    have hl := (taskAddr_error hw).2
    refine ⟨_, h _ _ (trapSwitch_current_error ht hw), .of_raised (by rw [hl]) (hl.get _), ?_, fun a => hl.byteAt a⟩
    intro q hq
    rw [machineCheck_get (by simpa using hq), hl.get]
  · intro p j w hp hw
    have hl := (taskAddr_error hw).2
    refine ⟨_, h _ _ (trapSwitch_base_error ht hp hw), .of_raised (by rw [hl, saveRegs_eq]) (by simp [hl.get]), ?_,
      (SavedAt.saveRegs u p).of_mem (by rw [machineCheck_mem, hl.mem])⟩
    intro q hq
    rw [machineCheck_get (by simpa using hq), hl.get, saveRegs_get]
  · intro p q hp hq hb
    have hs := trapSwitch_on ht hp hq
    rw [if_pos (by unfold State.lowered; rw [loadRegs_get, if_pos (by decide)]; exact hb)] at hs
    refine ⟨_, h _ _ hs, .of_raised (by rw [loadRegs_eq, saveRegs_eq]) ?_, ?_, ?_, (SavedAt.saveRegs u p).of_mem ?_⟩
    · rw [loadRegs_get, if_neg (by decide), saveRegs_get]
    · intro r hr
      rw [machineCheck_get (by rintro rfl; exact absurd hr (by decide)), loadRegs_get, if_pos hr]; rfl
    · intro r hr
      simp only [List.mem_cons, not_or] at hr
      rw [machineCheck_get hr.1, loadRegs_get, if_neg hr.2, saveRegs_get]
    · rw [machineCheck_mem, loadRegs_mem]

/-- Entering a handler with task registers on, for task pointers that resolve or do not (R233). -/
theorem TaskTrap.of_enter {u : State} {h : Word} (ht : u.taskRegs = true) : TaskTrap u h (settle (enter h u)) := by
  refine ⟨?_, .of_trapSwitch ht fun j t e => ?_⟩
  · intro p q hp hq hb
    have hs := trapSwitch_on ht hp hq
    have hl : (loadRegs Reg.baseSet q (saveRegs Reg.all p u)).lowered = false := by
      unfold State.lowered; rw [loadRegs_get, if_pos (by decide)]; exact hb
    have he : SameElse u (loadRegs Reg.baseSet q (saveRegs Reg.all p u)) :=
      (SameElse.saveRegs ..).trans (SameElse.loadRegs ..)
    rw [hl, if_neg Bool.false_ne_true] at hs
    refine ⟨(loadRegs Reg.baseSet q (saveRegs Reg.all p u)).set .rip h, by simp only [enter, hs, settle_ok],
      State.get_set_same .., ?_, ?_, (SavedAt.saveRegs u p).of_mem (by rw [State.set_mem, loadRegs_mem]),
      he.trans (SameElse.set ..)⟩
    · intro r hr
      rw [State.get_set_ne _ _ (by rintro rfl; exact absurd hr (by decide)), loadRegs_get, if_pos hr]; rfl
    · intro r hr
      simp only [List.mem_cons, not_or] at hr
      rw [State.get_set_ne _ _ hr.1, loadRegs_get, if_neg hr.2, saveRegs_get]
  · obtain ⟨rfl, -⟩ := trapSwitch_error e
    simp [enter, e]

/-! ## The page list -/

/-- A walk passes over descriptors that do not cover the address (R76). -/
theorem walk_linked {s : State} {a : Word} {perm : BitVec 3} (ds : List Word) (r d : Word) (n : Nat)
    (h : Linked s r ds d) (hn : NoneCovers s ds a) (hl : ds.length ≤ n) :
    walk s a perm n r = walk s a perm (n - ds.length) d := by
  induction ds generalizing r n with
  | nil => simp [Linked] at h; subst h; simp
  | cons x xs ih =>
    obtain ⟨rfl, h0, hz, h⟩ := h
    simp at hl
    obtain ⟨m, rfl⟩ : ∃ m, n = m + 1 := ⟨n - 1, by omega⟩
    have hx := hn x (by simp)
    rw [walk, if_neg h0, if_pos hz]
    simp only [hx, Bool.false_eq_true, if_false]
    rw [ih _ m h (fun y hy => hn y (by simp [hy])) (by omega)]
    congr 1; simp

theorem Linked.append {s : State} {ds es : List Word} {r d e : Word} (h1 : Linked s r ds d) (h2 : Linked s d es e) :
    Linked s r (ds ++ es) e := by
  induction ds generalizing r with
  | nil => simp [Linked] at h1; subst h1; exact h2
  | cons x xs ih => exact ⟨h1.1, h1.2.1, h1.2.2.1, ih h1.2.2.2⟩

end Sys2Proof.Machine
end

