-- ==== Sys2Proof/Laws/Fpu.lean ====
section
/-!
SUPPORT. Flags, and the exact arithmetic that rounding is made of.
-/

namespace Sys2Proof.Machine

@[simp] theorem State.setFlags_overflow (s : State) (o u : Bool) : (s.setFlags o u).overflow = o := by
  simp only [State.overflow, State.setFlags, State.get_set_same]
  rw [withBit_getLsbD _ (by omega), withBit_getLsbD _ (by omega)]; simp

@[simp] theorem State.setFlags_underflow (s : State) (o u : Bool) : (s.setFlags o u).underflow = u := by
  simp only [State.underflow, State.setFlags, State.get_set_same]
  rw [withBit_getLsbD _ (by omega)]; simp

/-- The other bits of RARTH stay (R36, R158). -/
theorem State.setFlags_rarth (s : State) (o u : Bool) {k : Nat} (h1 : k ≠ 16) (h2 : k ≠ 17) :
    ((s.setFlags o u).get .rarth).getLsbD k = (s.get .rarth).getLsbD k := by
  simp only [State.setFlags, State.get_set_same]
  rw [withBit_getLsbD _ (by omega), withBit_getLsbD _ (by omega)]; simp [h1, h2]

@[simp] theorem State.setRes_res (s : State) (r : Bool) : (s.setRes r).res = r := by
  simp only [State.res, State.setRes, State.get_set_same]
  rw [withBit_getLsbD _ (by omega)]; simp

/-- The other bits of RCMP stay (R141). -/
theorem State.setRes_rcmp (s : State) (r : Bool) {k : Nat} (h : k ≠ 8) :
    ((s.setRes r).get .rcmp).getLsbD k = (s.get .rcmp).getLsbD k := by
  simp only [State.setRes, State.get_set_same]
  rw [withBit_getLsbD _ (by omega)]; simp [h]

/-- A power of two as two natural ones. -/
theorem twoPow_split (e : Int) : (2 : ℚ) ^ e = (twoPowPos e : ℚ) / twoPowPos (-e) := by
  unfold twoPowPos
  rcases Int.le_total 0 e with h | h
  · obtain ⟨n, rfl⟩ := Int.eq_ofNat_of_zero_le h
    simp
  · obtain ⟨n, hn⟩ := Int.eq_ofNat_of_zero_le (a := -e) (by omega)
    obtain rfl : e = -(n : Int) := by omega
    simp

theorem atLeastTwoPow_iff {num den : Nat} (hd : 0 < den) (e : Int) :
    atLeastTwoPow num den e = true ↔ (2 : ℚ) ^ e ≤ (num : ℚ) / den := by
  have hp : (0 : ℚ) < twoPowPos (-e) := by unfold twoPowPos; positivity
  have hd' : (0 : ℚ) < den := by exact_mod_cast hd
  rw [twoPow_split, div_le_div_iff₀ hp hd']
  simp only [atLeastTwoPow, decide_eq_true_eq]
  rw [← Nat.cast_mul, ← Nat.cast_mul, Nat.cast_le, Nat.mul_comm den]

/-- The leading bit of a positive number. -/
theorem leadingExp_spec {num den : Nat} (hn : 0 < num) (hd : 0 < den) :
    (2 : ℚ) ^ leadingExp num den ≤ (num : ℚ) / den ∧ (num : ℚ) / den < 2 ^ (leadingExp num den + 1) := by
  have hd' : (0 : ℚ) < den := by exact_mod_cast hd
  have n1 : (2 : ℚ) ^ (num.log2 : Int) ≤ num := by
    rw [zpow_natCast]; exact_mod_cast Nat.log2_self_le (by omega)
  have n2 : (num : ℚ) < 2 ^ ((num.log2 : Int) + 1) := by
    have : num < 2 ^ (num.log2 + 1) := Nat.lt_log2_self
    rw [show (num.log2 : Int) + 1 = ((num.log2 + 1 : Nat) : Int) by simp, zpow_natCast]; exact_mod_cast this
  have d1 : (2 : ℚ) ^ (den.log2 : Int) ≤ den := by
    rw [zpow_natCast]; exact_mod_cast Nat.log2_self_le (by omega)
  have d2 : (den : ℚ) < 2 ^ ((den.log2 : Int) + 1) := by
    have : den < 2 ^ (den.log2 + 1) := Nat.lt_log2_self
    rw [show (den.log2 : Int) + 1 = ((den.log2 + 1 : Nat) : Int) by simp, zpow_natCast]; exact_mod_cast this
  have two : (2 : ℚ) ≠ 0 := by norm_num
  unfold leadingExp
  simp only
  split
  · next h =>
    rw [atLeastTwoPow_iff hd] at h
    refine ⟨h, ?_⟩
    rw [div_lt_iff₀ hd']
    calc (num : ℚ) < 2 ^ ((num.log2 : Int) + 1) := n2
      _ = 2 ^ ((num.log2 : Int) - den.log2 + 1) * 2 ^ (den.log2 : Int) := by rw [← zpow_add₀ two]; congr 1; omega
      _ ≤ 2 ^ ((num.log2 : Int) - den.log2 + 1) * den := by gcongr
  · next h =>
    rw [atLeastTwoPow_iff hd, not_le] at h
    refine ⟨?_, by rw [sub_add_cancel]; exact h⟩
    rw [le_div_iff₀ hd']
    calc (2 : ℚ) ^ ((num.log2 : Int) - den.log2 - 1) * den
        ≤ 2 ^ ((num.log2 : Int) - den.log2 - 1) * 2 ^ ((den.log2 : Int) + 1) := by gcongr
      _ = 2 ^ (num.log2 : Int) := by rw [← zpow_add₀ two]; congr 1; omega
      _ ≤ num := n1

end Sys2Proof.Machine
end

