-- ==== Sys2Proof/Laws/PerInstr.lean ====
section
/-!
SUPPORT. Statements for all instructions, one lemma per constructor.
-/

namespace Sys2Proof.Laws.EncodedSize

/-- The encoder writes as many bytes as R105 gives the instruction. -/
def Statement (i : Instr) : Prop := 4 * (encode i).length = i.size.toNat

/-- The size is one word and one more for each literal operand (R104, R105). -/
theorem statement_of_operands (i : Instr) : Statement i := by
  unfold Statement
  rw [Instr.size_toNat, encode, List.length_cons, operandLiterals_length, Nat.add_comm]

theorem cpr (op1 op2 : Operand) : Statement (.cpr op1 op2) := statement_of_operands _

theorem cpl (op1 op2 : Operand) : Statement (.cpl op1 op2) := statement_of_operands _

theorem cpf (op1 op2 : Operand) : Statement (.cpf op1 op2) := statement_of_operands _

theorem cpx (op1 op2 : Operand) : Statement (.cpx op1 op2) := statement_of_operands _

theorem cmp (op1 op2 : Operand) : Statement (.cmp op1 op2) := statement_of_operands _

theorem jmp (op1 : Operand) : Statement (.jmp op1) := statement_of_operands _

theorem call (op1 : Operand) : Statement (.call op1) := statement_of_operands _

theorem ret : Statement .ret := statement_of_operands _

theorem arth (op1 op2 : Operand) : Statement (.arth op1 op2) := statement_of_operands _

theorem lgic (op1 op2 : Operand) : Statement (.lgic op1 op2) := statement_of_operands _

theorem intr (op1 : Operand) : Statement (.intr op1) := statement_of_operands _

theorem rsv : Statement .rsv := statement_of_operands _

theorem nop : Statement .nop := statement_of_operands _

theorem ltsk : Statement .ltsk := statement_of_operands _

end Sys2Proof.Laws.EncodedSize
end

