-- ==== Sys2Proof/Tests/Slice0.lean ====
section
/-!
SUPPORT. Tests. Expected values are those of spec/95_test_vectors.md (the section is named) or worked by hand from the rule
named. The witnesses at the end show, for each statement that has hypotheses, a state and operands that meet them.
-/

open Sys2Proof Sys2Proof.Machine

namespace Sys2Proof.Tests

/-- Reset with some registers set and some words at the boot base. -/
def boot (regs : List (Reg × Word)) (code : List Word) : State :=
  (regs.foldl (fun s p => s.set p.1 p.2) State.reset).storeBytes 0x400 (code.flatMap wordBytes)

/-- The state after one step, if there is one. -/
def after (s : State) : Option State :=
  match step s with
  | .next t => some t
  | _ => none

/-- The state an instruction gives, if it gives one. -/
def ran (i : Instr) (s : State) : State :=
  match exec i s with
  | .next t => t
  | _ => s

/-- Some registers after one step. -/
def regsAfter (s : State) (rs : List Reg) : Option (List Word) := (after s).map fun t => rs.map t.get

/-! ## Well-formedness: a register operand of id 0 is no operand (R102) -/

theorem test_wellFormed_refuses_id_zero : (Instr.cpr (.reg 0x30) (.reg 0)).wellFormed = false := by decide

theorem test_wellFormed_refuses_id_zero_first : (Instr.jmp (.reg 0)).wellFormed = false := by decide

theorem test_wellFormed_accepts : (Instr.cpl (.lit 0) (.reg 0xFF)).wellFormed = true := by decide

/-! ## Decoding: words written out from the fields of R101, `{RSV, ID2, ID1, OPC}` -/

theorem test_decode_cpr : decode [0x00, 0x34, 0x30, 0x01] = .ok (.cpr (.reg 0x30) (.reg 0x34), []) := by decide

theorem test_decode_cpl : decode [0xAB, 0x30, 0x00, 0x02, 0, 0, 0, 5] = .ok (.cpl (.lit 5) (.reg 0x30), []) := by decide

theorem test_decode_cpf :
    decode [0, 0, 0, 3, 0, 0, 0x20, 0, 0, 0, 0x20, 4] = .ok (.cpf (.lit 0x2000) (.lit 0x2004), []) := by decide

theorem test_decode_cpx : decode [0x00, 0x34, 0x30, 0x04] = .ok (.cpx (.reg 0x30) (.reg 0x34), []) := by decide

theorem test_decode_cmp : decode [0, 0, 0x24, 5, 0, 0, 1, 2] = .ok (.cmp (.reg 0x24) (.lit 0x102), []) := by decide

theorem test_decode_jmp : decode [0x00, 0xFF, 0x30, 0x06, 9] = .ok (.jmp (.reg 0x30), [9]) := by decide

theorem test_decode_call : decode [0, 0, 0, 7, 0, 0, 5, 0] = .ok (.call (.lit 0x500), []) := by decide

theorem test_decode_ret : decode [0xFF, 0x12, 0x34, 0x08] = .ok (.ret, []) := by decide

theorem test_decode_arth : decode [0, 0x34, 0, 9, 0, 0, 0, 7] = .ok (.arth (.lit 7) (.reg 0x34), []) := by decide

theorem test_decode_lgic : decode [0x00, 0x34, 0x30, 0x0A] = .ok (.lgic (.reg 0x30) (.reg 0x34), []) := by decide

theorem test_decode_intr : decode [0, 0, 0, 0x0B, 0, 0, 0, 0x22] = .ok (.intr (.lit 0x22), []) := by decide

theorem test_decode_rsv : decode [0, 0, 0, 0x0C] = .ok (.rsv, []) := by decide

theorem test_decode_nop : decode [0xFF, 0xFF, 0xFF, 0x0D] = .ok (.nop, []) := by decide

theorem test_decode_ltsk : decode [0, 0, 0, 0x0E] = .ok (.ltsk, []) := by decide

theorem test_decode_refuses_15 : decode [0, 0, 0, 0x0F] = .error (.illegalOpcode 15) := by decide

theorem test_decode_refuses_short : decode [0, 0, 0, 0x06, 1] = .error .truncated := by decide

theorem test_encode : encode (.cpl (.lit 0x11223344) (.lit 0x2000)) = [2, 0x11223344, 0x2000] := by decide

/-- The host's two questions, on one row (30_encoding.md, R110). -/
theorem test_table_word : decodeTableWord 32 0x00343009 = some (.arth (.reg 0x30) (.reg 0x34)) := by decide

theorem test_fetch_word :
    regsAfter (State.reset.withFetchWord 32 0x0000000D) [.rip, .rff] = some [0x404, 0] := by decide

/-! ## Boot -/

/-- The smallest machine that boots: 64 bytes, the zone above 16, an image of 8 bytes at 16. -/
def tiny : Config := { ram := 64, ivtZone := 16, bootBase := 16, bootSize := 8, timerPool := 0, ndev := 0, double := .widen }

/-- R271: the image is in memory before the first step, which runs the instruction it begins with. -/
theorem test_boot_image :
    (after (State.start tiny #v[0, 0, 0, 0x0D, 0xAA, 0xBB, 0xCC, 0xDD])).map
      (fun t => (t.get .rip, t.get .rff, t.bytesAt 20 4)) = some (20, 0, [0xAA, 0xBB, 0xCC, 0xDD]) := by decide

/-- The image may reach to the end of RAM, and begin with an instruction that fills it. -/
theorem witness_ResetState :
    tiny.legal ∧ Config.legal { tiny with bootBase := 56 } ∧ (Instr.nop).wellFormed = true ∧
    (#v[0, 0, 0, 0x0D, 1, 2, 3, 4] : Vector Byte tiny.bootSize).toList = encodeBytes .nop ++ [1, 2, 3, 4] ∧
    (Instr.jmp (.lit 5)).wellFormed = true ∧
    (#v[0, 0, 0, 0x06, 0, 0, 0, 5] : Vector Byte tiny.bootSize).toList = encodeBytes (.jmp (.lit 5)) ++ [] := by decide

/-! ## One step of each instruction -/

/-- Section 3: `cpr RGP1, [0x2001]`, unaligned. -/
theorem test_cpr_unaligned :
    (after (boot [(.rgp1, 0xAABBCCDD)] [0x00003001, 0x2001])).map (fun t => t.bytesAt 0x2001 4) =
      some [0xAA, 0xBB, 0xCC, 0xDD] := by decide

/-- Section 3: `cpr RGP1, [0xFFFD]` is BadMemory. -/
theorem test_cpr_beyond_ram :
    regsAfter (boot [] [0x00003001, 0xFFFD]) [.rip, .rff] = some [0x400, 2] := by decide

/-- Section 3, lowered: RRA is protected. -/
theorem test_cpl_protected :
    regsAfter (boot [(.rst, 1)] [0x001C0002, 1]) [.rip, .rra, .rff] = some [0x400, 0, 0x800] := by decide

/-- Section 3, lowered: RSA is not. -/
theorem test_cpl_unprotected :
    regsAfter (boot [(.rst, 1)] [0x00200002, 1]) [.rip, .rsa, .rff] = some [0x408, 1, 0] := by decide

/-- Section 3: `cpf [0x2000], [0x2002]`, overlapping: the old source word lands. -/
theorem test_cpf_overlap :
    (after ((boot [] [0x00000003, 0x2000, 0x2002]).storeBytes 0x2000 [1, 2, 3, 4, 5, 6, 7, 8])).map
      (fun t => t.bytesAt 0x2000 8) = some [1, 2, 1, 2, 3, 4, 7, 8] := by decide

/-- Section 3: `cpf [RGP1], RGP1`. -/
theorem test_cpf_own_address :
    regsAfter ((boot [(.rgp1, 0x2000)] [0x00303003]).storeWord 0x2000 0xCAFEF00D) [.rgp1, .rip] =
      some [0xCAFEF00D, 0x404] := by decide

/-- Section 3: `cpx RGP1, [RGP2]`. -/
theorem test_cpx :
    (after (boot [(.rgp1, 7), (.rgp2, 0x3000)] [0x00343004])).map (fun t => t.bytesAt 0x3000 4) =
      some [0, 0, 0, 7] := by decide

/-- Section 4: unsigned LT, RCMP's other bits kept. -/
theorem test_cmp_unsigned :
    regsAfter (boot [(.rcmp, 0xFFFFFE03), (.rgp1, 0xFFFFFFFF), (.rgp2, 1)] [0x00343005]) [.rcmp, .rip] =
      some [0xFFFFFE03, 0x404] := by decide

/-- Section 4: mode 5 on (5, 8). -/
theorem test_cmp_le :
    regsAfter (boot [(.rcmp, 5), (.rgp1, 5), (.rgp2, 8)] [0x00343005]) [.rcmp] = some [0x105] := by decide

/-- Section 4: an odd target, not checked. -/
theorem test_jmp_taken :
    regsAfter (boot [(.rcmp, 0x101), (.rgp1, 0x1235)] [0x00003006]) [.rip] = some [0x1235] := by decide

/-- Section 4: the id is checked even if the jump is not taken. -/
theorem test_jmp_bad_id : regsAfter (boot [] [0x00003306]) [.rip, .rff] = some [0x400, 4] := by decide

/-- Section 4: `call RRA` goes to the old RRA. -/
theorem test_call_rra :
    (after (boot [(.rra, 0x3000)] [0x00001C07])).map (fun t => (t.get .rip, t.get .rra, t.bytesAt 0x3000 4)) =
      some (0x3000, 0x3004, [0, 0, 4, 4]) := by decide

/-- Section 4: `ret`. -/
theorem test_ret :
    regsAfter ((boot [(.rra, 0x3004)] [8]).storeWord 0x3000 0x12345678) [.rip, .rra] =
      some [0x12345678, 0x3000] := by decide

/-- Section 5: s16 multiplication beyond the maximum, OF set. -/
theorem test_arth_s16_mul :
    regsAfter (boot [(.rarth, 0x2B), (.rgp2, 0x100), (.rgp1, 0x80)] [0x00343009]) [.rgp2, .rarth] =
      some [0xFFFF8000, 0x1002B] := by decide

/-- Section 5: binary32 division, rounded to nearest. -/
theorem test_arth_f32_div :
    regsAfter (boot [(.rarth, 0x94), (.rgp2, 0x3F800000), (.rgp1, 0x40400000)] [0x00343009]) [.rgp2, .rarth] =
      some [0x3EAAAAAB, 0x94] := by decide

/-- Section 6: a rotation in 64 bits, whose top bit is dropped. -/
theorem test_lgic_rol64 :
    regsAfter (boot [(.rlgic, 0x340), (.rgp2, 0x80000001), (.rgp1, 1)] [0x0034300A]) [.rgp2, .rip] =
      some [2, 0x404] := by decide

/-- Section 6: AND then NOT. -/
theorem test_lgic_nand :
    regsAfter (boot [(.rlgic, 0x205), (.rgp2, 0x12345678), (.rgp1, 0x0F0F0F0F)] [0x0034300A]) [.rgp2] =
      some [0xFDFBF9F7] := by decide

/-- Section 8: vector-install takes bit 0 of RGP3 alone. -/
theorem test_intr_install :
    (after (boot [(.rgp1, 0x22), (.rgp2, 0x900), (.rgp3, 0xFFFFFFFF)] [0xB, 1])).map (fun t => t.slot 0x22) =
      some ⟨true, 0x900⟩ := by decide

/-- Section 8: two keyboard codes, the first delivered by the instruction and the second by the poll. -/
theorem test_intr_keyboard :
    regsAfter { (boot [] [0xB, 9]).setSlot 9 ⟨false, 0xA00⟩ with kbd := [0x61, 0x62] } [.rgp1, .rip] =
      some [0x62, 0xA00] := by decide

theorem test_rsv : regsAfter (boot [(.rst, 1)] [0x0000000C]) [.rip, .rst, .rff] = some [0x404, 1, 0] := by decide

/-- Section 8: the event is absorbed, RGP1 is written all the same. -/
theorem test_nop_event_absorbed :
    regsAfter { boot [(.rgp1, 0x77)] [0x0000000D] with kbd := [0x61] } [.rgp1, .rip] = some [0x61, 0x404] := by decide

/-- Section 8: `ltsk` at the lowered level with task registers off. -/
theorem test_ltsk_off : regsAfter (boot [(.rst, 1)] [0x0000000E]) [.rip, .rff] = some [0x404, 0] := by decide

/-- Section 8: `ltsk` with RBT = RCT: the save overwrites words before the load reads them. -/
theorem test_ltsk_same_structure :
    regsAfter ((boot [(.rst, 8), (.rbt, 0x6000), (.rct, 0x6000), (.rfa, 0x700)] [0x0000000E]).storeBytes 0x6000
        (([0x800, 0xD] ++ (List.range 26).map fun k => BitVec.ofNat 32 (0x1002 + k)).flatMap wordBytes))
      [.rip, .rst, .rfa, .rbt, .rff, .rct, .rgp1, .rfp4] =
      some [0x800, 8, 0x700, 0x6000, 0x1002, 0x1005, 0x100C, 0x101B] := by decide +kernel

/-- Section 7: the last byte of an inclusive range. -/
theorem test_paging_inclusive_end :
    (match translate ((boot [(.rst, 2), (.rpa, 0x1000)] []).storeBytes 0x1000
        ([0x9000, 0x4000, 3, 1, 0].flatMap wordBytes)) 0x9003 permR with
      | .ok p => some p
      | .error _ => none) = some 0x4003 := by decide

/-! ## Witnesses: the hypotheses of each statement can be met -/

/-- A task structure at 0x5000 whose RST word is `rst` (section 8: RFA 0x700), task registers on, the tasks at 0x6000 and
0x5000. -/
def tasks (rst : Word) (regs : List (Reg × Word)) (code : List Word) : State :=
  (boot ([(.rst, 8), (.rbt, 0x5000), (.rct, 0x6000), (.rra, 0x3000)] ++ regs) code).storeBytes 0x5000
    (([0, rst, 0, 0x700, 0x5000, 0, 0, 0x3800] ++ List.replicate 20 0).flatMap wordBytes)

/-- The four outcomes of a trap's task switch, in the states that `f` makes of four: both task pointers in order; a current
task outside the normal zone; a base task outside it; a base task at the lowered level. -/
def SwitchCases (f : State → State) : Prop :=
  (taskAddr (f (tasks 0xC [] [])) ((f (tasks 0xC [] [])).get .rct) = .ok 0x6000 ∧
    taskAddr (saveRegs Reg.all 0x6000 (f (tasks 0xC [] []))) ((f (tasks 0xC [] [])).get .rbt) = .ok 0x5000 ∧
    (baseWord (f (tasks 0xC [] [])) 0x6000 0x5000 .rst).getLsbD 0 = false) ∧
  (∃ j w, taskAddr (f (tasks 0 [(.rct, 0xFF91)] [])) ((f (tasks 0 [(.rct, 0xFF91)] [])).get .rct) = .error (.raise j w)) ∧
  (taskAddr (f (tasks 0 [(.rbt, 0x3FF)] [])) ((f (tasks 0 [(.rbt, 0x3FF)] [])).get .rct) = .ok 0x6000 ∧
    ∃ j w, taskAddr (saveRegs Reg.all 0x6000 (f (tasks 0 [(.rbt, 0x3FF)] []))) ((f (tasks 0 [(.rbt, 0x3FF)] [])).get .rbt) =
      .error (.raise j w)) ∧
  (taskAddr (f (tasks 0xD [] [])) ((f (tasks 0xD [] [])).get .rct) = .ok 0x6000 ∧
    taskAddr (saveRegs Reg.all 0x6000 (f (tasks 0xD [] []))) ((f (tasks 0xD [] [])).get .rbt) = .ok 0x5000 ∧
    (baseWord (f (tasks 0xD [] [])) 0x6000 0x5000 .rst).getLsbD 0 = true)

/-- The tasks of `SwitchCases` with a handler for vector 0x09 and one key pending. -/
def keyed (s : State) : State := { s.setSlot 0x09 ⟨false, 0xA00⟩ with kbd := [0x61] }

/-- The tasks of `SwitchCases` with a handler for vector 0x10 and one timer pending. -/
def timed (s : State) : State := { s.setSlot 0x10 ⟨false, 0xB00⟩ with tmr := [7] }

theorem witness_DecodeInvertsEncode :
    (Instr.cpf (.reg 1) (.lit 0)).wellFormed = true ∧ (Instr.arth (.lit 0xFFFFFFFF) (.reg 0xFF)).wellFormed = true := by
  decide

theorem witness_DecodedBytesAreTheEncoding :
    decode [0xAA, 0x55, 0x30, 0x06, 7] = .ok (.jmp (.reg 0x30), [7]) ∧
    decode [0xFF, 0, 0, 5, 0, 0, 0, 1, 0, 0, 0, 2] = .ok (.cmp (.lit 1) (.lit 2), []) := by decide

theorem witness_IllegalOpcodesExactly :
    (translate (boot [] [0xFFFFFF00]) 0x400 permX = .ok 0x400 ∧ inZone (boot [] [0xFFFFFF00]).cfg 0x400 4 = true ∧
      ((boot [] [0xFFFFFF00]).wordAt 0x400).toNat % 256 = 0) ∧
    (translate (boot [] [15]) 0x400 permX = .ok 0x400 ∧ 14 < ((boot [] [15]).wordAt 0x400).toNat % 256) ∧
    (8 ≤ [(0 : Byte), 0, 0, 0, 0, 0, 0, 0].length ∧ 1 ≤ (1 : Word).toNat % 256 ∧ (14 : Word).toNat % 256 ≤ 14) :=
  ⟨⟨rfl, by decide, by decide⟩, ⟨rfl, by decide⟩, by decide⟩

theorem witness_RegisterIdsExactly :
    ((0x04 : Byte) ≠ 0 ∧ (0x04 : Byte).toNat % 4 = 0 ∧ (0x6C : Byte).toNat % 4 = 0 ∧ (0x6C : Byte).toNat < 0x70) ∧
    ((0x05 : Byte).toNat % 4 ≠ 0 ∧ 0x70 ≤ (0x70 : Byte).toNat ∧ 0x70 ≤ (0xFF : Byte).toNat) ∧
    (kindsAccepted (.cpr (.reg 0x70) (.lit 0)) = true ∧ registersNamed (.cpr (.reg 0x70) (.lit 0)) = false) ∧
    (kindsAccepted (.cpr (.reg 0x6C) (.lit 0)) = true ∧ registersNamed (.cpr (.reg 0x6C) (.lit 0)) = true) := by
  decide

/-- A 4-byte instruction, a 12-byte one that ends at the end of RAM, and a machine that has stopped. -/
theorem witness_StepRunsDecodedInstruction :
    ((boot [] [13]).run = .running ∧ translate (arriveBefore (boot [] [13])) 0x400 permX = .ok 0x400 ∧
      inZone (arriveBefore (boot [] [13])).cfg 0x400 4 = true ∧
      decode ((arriveBefore (boot [] [13])).bytesAt 0x400 4) = .ok (.nop, []) ∧ (boot [] [13]).arrivals = [] ∧
      exec .nop (boot [] [13]) = .next ((boot [] [13]).set .rip 0x404)) ∧
    (inZone State.reset.cfg 0xFFF4 (Instr.cpl (.lit 1) (.lit 2)).size.toNat = true ∧
      decode ((State.reset.storeBytes 0xFFF4 ([2, 1, 2].flatMap wordBytes)).bytesAt 0xFFF4 12) =
        .ok (.cpl (.lit 1) (.lit 2), [])) ∧
    ({ State.reset with run := .halted } : State).run ≠ .running :=
  ⟨⟨rfl, rfl, by decide, by decide, rfl, rfl⟩, by decide, by decide⟩

theorem witness_FetchFaultsAreTaken :
    (∃ u, translate (boot [(.rst, 2)] []) ((boot [(.rst, 2)] []).get .rip) permX = .error (.raise .noPage u)) ∧
    (translate State.reset 0x3FF permX = .ok 0x3FF ∧ inZone State.reset.cfg 0x3FF 4 = false ∧
      inZone State.reset.cfg 0xFFFD 4 = false) ∧
    (inZone State.reset.cfg 0xFFFC 4 = true ∧ literalWords ((State.reset.storeWord 0xFFFC 0x00300002).wordAt 0xFFFC) = some 1 ∧
      inZone State.reset.cfg 0xFFFC 8 = false) :=
  ⟨⟨_, rfl⟩, ⟨rfl, by decide⟩, by decide⟩

theorem witness_CopyWritesRegister :
    decodeReg 0x04 = some .rst ∧ canWrite State.reset.lowered .rst = true ∧
    decodeReg 0x20 = some .rsa ∧ canWrite (boot [(.rst, 1)] []).lowered .rsa = true ∧ decodeReg 0x6C = some .rfp4 := by
  decide

theorem witness_CopyFromMemory :
    valueOf (boot [(.rgp1, 0x400)] []) (.reg 0x30) = .ok 0x400 ∧ dataAddr (boot [(.rgp1, 0x400)] []) 0x400 permR = .ok 0x400 ∧
    dataAddr (boot [(.rgp1, 0x400)] []) 0xFFFC permW = .ok 0xFFFC ∧ decodeReg 0x30 = some .rgp1 ∧
    canWrite (boot [(.rgp1, 0x400)] []).lowered .rgp1 = true ∧
    dataAddr State.reset 0x3FF permR = .error (.raise .badMemory State.reset) ∧
    dataAddr State.reset 0xFFFD permW = .error (.raise .badMemory State.reset) :=
  ⟨rfl, rfl, rfl, by decide, by decide, rfl, rfl⟩

theorem witness_StoresWriteOneWord :
    decodeReg 0x04 = some .rst ∧ decodeReg 0x34 = some .rgp2 ∧ dataAddr (boot [(.rgp2, 0xFFFC)] []) 0x400 permW = .ok 0x400 ∧
    dataAddr (boot [(.rgp2, 0xFFFC)] []) ((boot [(.rgp2, 0xFFFC)] []).get .rgp2) permW = .ok 0xFFFC ∧
    dataAddr (boot [(.rgp2, 0xFFFD)] []) 0xFFFD permW = .error (.raise .badMemory (boot [(.rgp2, 0xFFFD)] [])) ∧
    (boot [(.rgp2, 0xFFFD)] []).get .rgp2 = 0xFFFD :=
  ⟨by decide, by decide, rfl, rfl, rfl, by decide⟩

theorem witness_WrongOperandKindExactly :
    kindsAccepted (.cpr (.lit 0) (.reg 0x30)) = false ∧ kindsAccepted (.intr (.reg 0x30)) = false ∧
    kindsAccepted (.cpl (.lit 0) (.lit 0)) = true := by decide

theorem witness_NoPrivilegeExactly :
    (kindsAccepted (.cpl (.lit 1) (.reg 0x1C)) = true ∧ registersNamed (.cpl (.lit 1) (.reg 0x1C)) = true ∧
      (boot [(.rst, 1)] []).lowered = true ∧ privilegeRefused (.cpl (.lit 1) (.reg 0x1C)) (boot [(.rst, 1)] []) = true ∧
      privilegeRefused (.intr (.lit 0x10)) (boot [(.rst, 1)] []) = true ∧ privilegeRefused .ltsk (boot [(.rst, 9)] []) = true) ∧
    (privilegeRefused (.cpl (.lit 1) (.reg 0x20)) (boot [(.rst, 1)] []) = false ∧ State.reset.lowered = false) := by
  decide

theorem witness_FaultingInstructionWritesNothing :
    effect (.cpr (.reg 0x70) (.lit 0)) State.reset = .error (.raise .badRegister State.reset) ∧
    ∃ t, effect (.intr (.lit 0x0F)) { State.reset with timerRefusals := [true] } = .error (.raise .machineCheck t) :=
  ⟨rfl, _, rfl⟩

theorem witness_InvalidModeRaisesBadRegisterValue :
    (valueOf (boot [(.rcmp, 7)] []) (.lit 1) = .ok 1 ∧ ((boot [(.rcmp, 7)] []).get .rcmp).toNat % 8 = 7 ∧
      (State.reset.get .rcmp).toNat % 8 = 0) ∧
    (decodeReg 0x30 = some .rgp1 ∧ canWrite State.reset.lowered .rgp1 = true ∧ arithMode (State.reset.get .rarth) = none ∧
      logicMode (State.reset.get .rlgic) = none) :=
  ⟨⟨rfl, by decide⟩, by decide⟩

theorem witness_CompareWritesRelation :
    valueOf State.reset (.lit 5) = .ok 5 ∧ ((boot [(.rcmp, 1)] []).get .rcmp).toNat % 8 = 1 ∧
    ((boot [(.rcmp, 0xFFFFFFFE)] []).get .rcmp).toNat % 8 = 6 := ⟨rfl, by decide⟩

theorem witness_JumpFollowsResultBit :
    valueOf State.reset (.lit 5) = .ok 5 ∧ (boot [(.rcmp, 0x100)] []).res = true ∧ State.reset.res = false ∧
    decodeReg 0x70 = none := ⟨rfl, by decide⟩

theorem witness_CallPushesReturnAddress :
    (valueOf (boot [(.rra, 0xFFFC)] []) (.lit 5) = .ok 5 ∧
      dataAddr (boot [(.rra, 0xFFFC)] []) ((boot [(.rra, 0xFFFC)] []).get .rra) permW = .ok 0xFFFC) ∧
    decodeReg 0x33 = none ∧
    dataAddr (boot [(.rra, 0x3FF)] []) ((boot [(.rra, 0x3FF)] []).get .rra) permW =
      .error (.raise .badMemory (boot [(.rra, 0x3FF)] [])) :=
  ⟨⟨rfl, rfl⟩, by decide, rfl⟩

theorem witness_ReturnPopsAddress :
    dataAddr (boot [(.rra, 0x404)] []) ((boot [(.rra, 0x404)] []).get .rra - 4) permR = .ok 0x400 ∧
    dataAddr (boot [(.rra, 0x403)] []) ((boot [(.rra, 0x403)] []).get .rra - 4) permR =
      .error (.raise .badMemory (boot [(.rra, 0x403)] [])) := ⟨rfl, rfl⟩

theorem witness_CallThenReturn :
    ∃ t, valueOf (boot [(.rra, 0x3000)] []) (.lit 0x500) = .ok 0x500 ∧
      dataAddr (boot [(.rra, 0x3000)] []) ((boot [(.rra, 0x3000)] []).get .rra) permW = .ok 0x3000 ∧
      exec (.call (.lit 0x500)) (boot [(.rra, 0x3000)] []) = .next t ∧
      dataAddr t ((boot [(.rra, 0x3000)] []).get .rra) permR = .ok 0x3000 := ⟨_, rfl, rfl, rfl, rfl⟩

theorem witness_AddSubMulResultAndFlags :
    (decodeReg 0x34 = some .rgp2 ∧ canWrite State.reset.lowered .rgp2 = true ∧
      arithMode ((boot [(.rarth, 0x31)] []).get .rarth) = some ⟨.add, .int .w32 true, none⟩ ∧
      (ArithType.int .w32 true).shape = some ⟨32, true⟩) ∧
    (arithMode ((boot [(.rarth, 0x42)] []).get .rarth) = some ⟨.sub, .ulong, none⟩ ∧ ArithType.ulong.shape = some ⟨32, false⟩) ∧
    arithMode ((boot [(.rarth, 0x863)] []).get .rarth) = some ⟨.mul, .slong, some 4⟩ ∧
    (valueOf State.reset (.lit 1) = .ok 1) := ⟨by decide, by decide, by decide, rfl⟩

theorem witness_ExtensionCapture :
    decodeReg 0x34 = some .rgp2 ∧ canWrite State.reset.lowered .rgp2 = true ∧
    arithMode ((boot [(.rarth, 0x141)] []).get .rarth) = some ⟨.add, .ulong, some 1⟩ ∧
    arithMode ((boot [(.rarth, 0x842)] []).get .rarth) = some ⟨.sub, .ulong, some 4⟩ ∧
    arithMode ((boot [(.rarth, 0x443)] []).get .rarth) = some ⟨.mul, .ulong, some 3⟩ := by decide

theorem witness_DivisionTowardZero :
    decodeReg 0x34 = some .rgp2 ∧ canWrite State.reset.lowered .rgp2 = true ∧
    arithMode ((boot [(.rarth, 0x34)] []).get .rarth) = some ⟨.div, .int .w32 true, none⟩ ∧
    arithMode ((boot [(.rarth, 0x05)] []).get .rarth) = some ⟨.mod, .int .w8 false, none⟩ ∧
    IntShape.read ⟨32, true⟩ 0xFFFFFFFF ≠ 0 ∧ IntShape.read ⟨8, false⟩ 0x101 ≠ 0 := by decide

theorem witness_ZeroDivisorFaults :
    (arithMode ((boot [(.rarth, 0x04)] []).get .rarth) = some ⟨.div, .int .w8 false, none⟩ ∧
      IntShape.read ⟨8, false⟩ 0x100 = 0 ∧
      arithMode ((boot [(.rarth, 0x3D)] []).get .rarth) = some ⟨.mod, .int .w64 true, none⟩) ∧
    (arithMode ((boot [(.rarth, 0x94)] []).get .rarth) = some ⟨.div, .f32, none⟩ ∧
      arithMode ((boot [(.rarth, 0x19C)] []).get .rarth) = some ⟨.div, .f64, some 1⟩ ∧
      valueOf State.reset (.lit 0x80000000) = .ok 0x80000000) ∧
    decodeReg 0x34 = some .rgp2 ∧ canWrite State.reset.lowered .rgp2 = true :=
  ⟨by decide, ⟨by decide, by decide, rfl⟩, by decide⟩

/-- Invalid fields, each at a boundary; and a valid mode for each clause: plain, LONG and FLOAT types, with and without EXT. -/
theorem witness_ModeRegistersExactly :
    (arithMode 0 = none ∧ arithMode 6 = none ∧ arithMode 0x301 = none ∧ arithMode 0xD1 = none ∧ arithMode 0x89 = none ∧
      arithMode 0x95 = none) ∧
    (arithMode 0x01 = some ⟨.add, .int .w8 false, none⟩ ∧ arithMode 0x13D = some ⟨.mod, .int .w64 true, some 1⟩ ∧
      arithMode 0x242 = some ⟨.sub, .ulong, some 2⟩ ∧ arithMode 0x47B = some ⟨.mul, .slong, some 3⟩ ∧
      arithMode 0x94 = some ⟨.div, .f32, none⟩ ∧ arithMode 0x899 = some ⟨.add, .f64, some 4⟩) ∧
    (logicMode 0 = none ∧ logicMode 0x06 = none ∧ logicMode 0xC0 = none) ∧
    (logicMode 0x01 = some ⟨none, true, .w8⟩ ∧ logicMode 0x102 = some ⟨some .xor, false, .w16⟩ ∧
      logicMode 0x381 = some ⟨some .ror, true, .w64⟩) := by decide

/-- A result that is a number, one that is an infinity, and one that is a NaN. -/
theorem witness_SinglePrecisionResult :
    arithMode ((boot [(.rarth, 0x91)] []).get .rarth) = some ⟨.add, .f32, none⟩ ∧
    binary32.compute .add (readFloat 0x3F800000) (readFloat 0x40000000) = some 0x40400000 ∧
    binary32.compute .mul (readFloat 0x7F7FFFFF) (readFloat 0x40000000) = some 0x7F800000 ∧
    binary32.compute .sub (readFloat 0x7F800000) (readFloat 0x7F800000) = none := by decide

/-- The least and the greatest pattern of each kind, and the two formats' infinities. -/
theorem witness_SpecialFloatOperations :
    (∀ c e, FloatValue.infinite true ≠ .finite c 0 e) ∧
    ((0x7F800000 : Word).toNat / 2 ^ 23 % 256 = 255 ∧ (0xFFFFFFFF : Word).toNat / 2 ^ 23 % 256 = 255 ∧
      (0x807FFFFF : Word).toNat / 2 ^ 23 % 256 = 0 ∧ (0x00800000 : Word).toNat / 2 ^ 23 % 256 = 1 ∧
      (0x7F7FFFFF : Word).toNat / 2 ^ 23 % 256 = 254) ∧
    (binary32.infinity = 0x7F800000 ∧ binary64.infinity = 0x7FF0000000000000) :=
  ⟨fun _ _ => nofun, by decide, by decide⟩

theorem witness_RoundsToNearestEven :
    readFloat 0x3F800000 = .finite false 0x800000 (-23) ∧ readFloat 0x80000000 = .finite true 0 (-149) ∧
    readFloat 0x007FFFFF = .finite false 0x7FFFFF (-149) ∧ readFloat 0x7F7FFFFF = .finite false 0xFFFFFF 104 := by decide

/-- A sum that overflows to an infinity, a quotient that does not, and a zero sum. -/
theorem witness_FloatResultIsNearest :
    ((readFloat 0x7F7FFFFF).isFinite = true ∧
      (2 : ℚ) ^ 128 - 2 ^ (128 - binary32.prec - 1) ≤ |(readFloat 0x7F7FFFFF).value + (readFloat 0x7F7FFFFF).value|) ∧
    ((readFloat 0x3F800000).isFinite = true ∧ (readFloat 0x40400000).isFinite = true ∧ (readFloat 0x40400000).value ≠ 0 ∧
      |(readFloat 0x3F800000).value / (readFloat 0x40400000).value| < (2 : ℚ) ^ 128 - 2 ^ (128 - binary32.prec - 1)) ∧
    (readFloat 0x3F800000).value - (readFloat 0x3F800000).value = 0 := by
  have h1 : readFloat 0x7F7FFFFF = .finite false 0xFFFFFF 104 := by decide
  have h2 : readFloat 0x3F800000 = .finite false 0x800000 (-23) := by decide
  have h3 : readFloat 0x40400000 = .finite false 0xC00000 (-22) := by decide
  rw [h1, h2, h3]
  refine ⟨⟨rfl, ?_⟩, ⟨rfl, rfl, ?_, ?_⟩, ?_⟩ <;> norm_num [FloatValue.value, abs_of_nonneg, binary32]

theorem witness_DoublePrecisionSplit :
    decodeReg 0x34 = some .rgp2 ∧ canWrite State.reset.lowered .rgp2 = true ∧
    arithMode ((boot [(.rarth, 0x9C)] []).get .rarth) = some ⟨.div, .f64, none⟩ ∧
    arithMode ((boot [(.rarth, 0x199)] []).get .rarth) = some ⟨.add, .f64, some 1⟩ ∧
    arithMode ((boot [(.rarth, 0x89B)] []).get .rarth) = some ⟨.mul, .f64, some 4⟩ ∧
    ¬ ((0x40000000 : Word) = 0x00000000 ∨ (0x40000000 : Word) = 0x80000000) ∧ State.reset.cfg.double = .widen ∧
    binary64.compute .mul (readFloat 0x40000000) (readFloat 0x40400000) = some 0x4018000000000000 ∧
    binary64.compute .mul (readFloat 0x7F800000) (readFloat 0x80000000) = none := by decide

theorem witness_LogicWritesResult :
    decodeReg 0x34 = some .rgp2 ∧ canWrite State.reset.lowered .rgp2 = true ∧
    logicMode ((boot [(.rlgic, 0x01)] []).get .rlgic) = some ⟨none, true, .w8⟩ ∧
    logicMode ((boot [(.rlgic, 0x380)] []).get .rlgic) = some ⟨some .ror, false, .w64⟩ := by decide

theorem witness_NoOperationsOnlyAdvance :
    (boot [(.rst, 1)] []).taskRegs = false ∧ (boot [(.rst, 8)] []).lowered = false := by decide

theorem witness_VectorInstall :
    State.reset.lowered = false ∧ ((boot [(.rgp1, 32)] []).get .rgp1).toNat = 32 ∧
    ((boot [(.rgp1, 127)] []).get .rgp1).toNat = 127 ∧ ((boot [(.rgp1, 0x10)] []).get .rgp1).toNat = 0x10 ∧
    ¬ ((32 ≤ 31 ∧ 31 ≤ 127) ∨ 31 = 0x09 ∨ 31 = 0x10) ∧ ¬ ((32 ≤ 128 ∧ 128 ≤ 127) ∨ 128 = 0x09 ∨ 128 = 0x10) := by decide

theorem witness_HaltAndDisplay : State.reset.lowered = false := by decide

/-- The registers of a storage transfer of the last 0x10 bytes of device 3, to or from 0x2000. -/
def transfer (mode dev off : Word) : State :=
  boot [(.rgp1, mode), (.rgp2, dev), (.rgp3, 0x2000), (.rgp4, 0x10), (.rgp5, off)] []

theorem witness_StorageReadFillsMemory :
    (transfer 0 3 0xFF0).lowered = false ∧ ((transfer 0 3 0xFF0).get .rgp1).getLsbD 0 = false ∧
    ((transfer 2 3 0xFF0).get .rgp1).getLsbD 1 = true ∧
    translate (transfer 0 3 0xFF0) ((transfer 0 3 0xFF0).get .rgp3) permW = .ok 0x2000 ∧
    inZone (transfer 0 3 0xFF0).cfg 0x2000 0x10 = true ∧ 3 < (transfer 0 3 0xFF0).cfg.ndev ∧
    (transfer 0 3 0xFF0).storage[3]? = some ⟨0x1000, []⟩ ∧ 0xFF0 + 0x10 ≤ 0x1000 ∧
    (transfer 0 3 0xFF0).storageErrors.head? ≠ some true :=
  ⟨by decide, by decide, by decide, rfl, by decide⟩

theorem witness_StorageWriteFillsDevice :
    (transfer 1 0 0xFF0).lowered = false ∧ ((transfer 1 0 0xFF0).get .rgp1).getLsbD 0 = true ∧
    translate (transfer 1 0 0xFF0) ((transfer 1 0 0xFF0).get .rgp3) permR = .ok 0x2000 ∧
    inZone (transfer 1 0 0xFF0).cfg 0x2000 0x10 = true ∧ 0 < (transfer 1 0 0xFF0).cfg.ndev ∧
    (transfer 1 0 0xFF0).storage[0]? = some ⟨0x1000, []⟩ ∧ 0xFF0 + 0x10 ≤ 0x1000 ∧
    (transfer 1 0 0xFF0).storageErrors.head? ≠ some true :=
  ⟨by decide, by decide, rfl, by decide⟩

/-- A device id that names none, a range one byte too long, an error of the host's, a buffer one byte too long for RAM, and
a buffer that no descriptor maps. -/
theorem witness_StorageFailureIsIoFault :
    (translate (transfer 0 4 0) ((transfer 0 4 0).get .rgp3) permW = .ok 0x2000 ∧ (transfer 0 4 0).cfg.ndev ≤ 4) ∧
    (translate (transfer 1 0 0xFF1) ((transfer 1 0 0xFF1).get .rgp3) permR = .ok 0x2000 ∧
      ∃ d, (transfer 1 0 0xFF1).storage[0]? = some d ∧ d.size < 0xFF1 + 0x10) ∧
    ({ transfer 0 0 0 with storageErrors := [true] } : State).storageErrors.head? = some true ∧
    (translate ((transfer 0 0 0).set .rgp3 0xFFF1) 0xFFF1 permW = .ok 0xFFF1 ∧
      inZone (transfer 0 0 0).cfg (0xFFF1 : Word).toNat ((transfer 0 0 0).get .rgp4).toNat = false) ∧
    (∃ u, translate ((transfer 1 0 0).set .rst 2) 0x2000 permR = .error (.raise .noPage u)) :=
  ⟨⟨rfl, by decide⟩, ⟨rfl, ⟨0x1000, []⟩, by decide⟩, rfl, ⟨rfl, by decide⟩, _, rfl⟩

theorem witness_TimerArm :
    State.reset.lowered = false ∧ ({ State.reset with armed := [⟨1, 1⟩] } : State).armed.length < State.reset.cfg.timerPool ∧
    State.reset.timerRefusals.head? ≠ some true ∧
    State.reset.cfg.timerPool ≤ ({ State.reset with armed := [⟨1, 1⟩, ⟨2, 2⟩] } : State).armed.length ∧
    ({ State.reset with timerRefusals := [true] } : State).timerRefusals.head? = some true := by decide

theorem witness_EventVectorsBySoftware :
    (State.reset.lowered = false ∧ State.reset.kbd = [] ∧ State.reset.tmr = [] ∧
      ({ State.reset with kbd := [0x61], tmr := [7] } : State).kbd = [0x61] ∧ (State.reset.slot 0x09).handler = 0 ∧
      ((State.reset.setSlot 0x10 ⟨false, 0xB00⟩).slot 0x10).handler ≠ 0 ∧
      (State.reset.setSlot 0x10 ⟨false, 0xB00⟩).taskRegs = false) ∧
    ((keyed (tasks 0xC [] [])).lowered = false ∧ (keyed (tasks 0xC [] [])).kbd = [0x61] ∧
      ((keyed (tasks 0xC [] [])).slot 0x09).handler ≠ 0 ∧ (keyed (tasks 0xC [] [])).taskRegs = true) ∧
    SwitchCases (fun s => (({ keyed s with kbd := [] } : State).set .rip (s.get .rip + 8)).set .rgp1 0x61) ∧
    ((timed (tasks 0xC [] [])).lowered = false ∧ (timed (tasks 0xC [] [])).tmr = [7] ∧
      ((timed (tasks 0xC [] [])).slot 0x10).handler ≠ 0 ∧ (timed (tasks 0xC [] [])).taskRegs = true) ∧
    SwitchCases (fun s => (({ timed s with tmr := [] } : State).set .rip (s.get .rip + 8)).set .rgp1 7) :=
  ⟨by decide, by decide, ⟨⟨rfl, rfl, by decide⟩, ⟨_, _, rfl⟩, ⟨rfl, _, _, rfl⟩, rfl, rfl, by decide⟩, by decide,
    ⟨rfl, rfl, by decide⟩, ⟨_, _, rfl⟩, ⟨rfl, _, _, rfl⟩, rfl, rfl, by decide⟩

theorem witness_TableVectors :
    (inlineNumber 127 = false ∧ ((State.reset.setSlot 127 ⟨true, 0x900⟩).slot 127).handler ≠ 0 ∧
      ((State.reset.setSlot 127 ⟨true, 0x900⟩).slot 127).priv = true ∧
      (State.reset.setSlot 127 ⟨true, 0x900⟩).taskRegs = false) ∧
    (inlineNumber 0 = false ∧ inlineNumber 128 = false ∧ 127 < (128 : Word).toNat ∧ inlineNumber 0x1F = false ∧
      (State.reset.slot 0x1F).handler = 0) := by decide

/-- A slot open to the lowered level, called from there; and every outcome of the switch, from the elevated level. -/
theorem witness_TableVectorSwitchesTasks :
    (inlineNumber 0x22 = false ∧ inlineNumber 127 = false ∧
      ((tasks 0xC [(.rst, 9)] []).setSlot 0x22 ⟨true, 0x900⟩).lowered = true ∧
      (((tasks 0xC [(.rst, 9)] []).setSlot 0x22 ⟨true, 0x900⟩).slot 0x22).priv = true ∧
      ((tasks 0xC [(.rst, 9)] []).setSlot 0x22 ⟨true, 0x900⟩).taskRegs = true) ∧
    ((((tasks 0xC [] []).setSlot 127 ⟨false, 0x900⟩).slot 127).handler ≠ 0 ∧
      ((tasks 0xC [] []).setSlot 127 ⟨false, 0x900⟩).lowered = false ∧
      ((tasks 0xC [] []).setSlot 127 ⟨false, 0x900⟩).taskRegs = true) ∧
    SwitchCases (fun s => (s.setSlot 127 ⟨false, 0x900⟩).set .rip (s.get .rip + 8)) :=
  ⟨by decide, by decide, ⟨rfl, rfl, by decide⟩, ⟨_, _, rfl⟩, ⟨rfl, _, _, rfl⟩, rfl, rfl, by decide⟩

theorem witness_LoadTask :
    (tasks 0 [(.rct, 0xFF90)] []).taskRegs = true ∧ (tasks 0 [(.rct, 0xFF90)] []).lowered = false ∧
    taskAddr (tasks 0 [(.rct, 0xFF90)] []) 0x5000 = .ok 0x5000 ∧
    taskAddr (saveRegs Reg.baseSet 0x5000 (tasks 0 [(.rct, 0xFF90)] [])) 0xFF90 = .ok 0xFF90 ∧
    (∃ u, taskAddr (tasks 0 [(.rbt, 0x3FF)] []) 0x3FF = .error (.raise .machineCheck u)) ∧
    (∃ u, taskAddr (saveRegs Reg.baseSet 0x5000 (tasks 0 [(.rct, 0xFF91)] [])) 0xFF91 = .error (.raise .machineCheck u)) :=
  ⟨by decide, by decide, rfl, rfl, ⟨_, rfl⟩, _, rfl⟩

theorem witness_FaultWithoutTaskRegisters :
    FaultKind.badMemory ≠ .machineCheck ∧ State.reset.taskRegs = false ∧ State.reset.faultHandling = false ∧
    (boot [(.rst, 5)] []).taskRegs = false ∧ (boot [(.rst, 5)] []).faultHandling = true := by decide

theorem witness_FaultSwitchesTasks :
    FaultKind.aluFault ≠ .machineCheck ∧ (tasks 0xC [(.rst, 9)] []).taskRegs = true ∧
    taskAddr (tasks 0xC [(.rst, 9)] []) 0x6000 = .ok 0x6000 ∧
    taskAddr (saveRegs Reg.all 0x6000 (tasks 0xC [(.rst, 9)] [])) 0x5000 = .ok 0x5000 ∧
    (baseWord (tasks 0xC [(.rst, 9)] []) 0x6000 0x5000 .rst).getLsbD 0 = false ∧
    (baseWord (tasks 0xC [] []) 0x6000 0x5000 .rst).getLsbD 2 = true ∧
    (baseWord (tasks 0x8 [] []) 0x6000 0x5000 .rst).getLsbD 2 = false :=
  ⟨by decide, by decide, rfl, rfl, by decide⟩

theorem witness_MachineCheckTerminates :
    FaultKind.badMemory ≠ .machineCheck ∧ (tasks 0xD [] []).taskRegs = true ∧ SwitchCases id :=
  ⟨by decide, by decide, ⟨rfl, rfl, by decide⟩, ⟨_, _, rfl⟩, ⟨rfl, _, _, rfl⟩, rfl, rfl, by decide⟩

theorem witness_DeliverEvent :
    (State.reset.slot 0x09).handler = 0 ∧
    (((State.reset.setSlot 0x09 ⟨false, 0xA00⟩).slot 0x09).handler ≠ 0 ∧
      (State.reset.setSlot 0x09 ⟨false, 0xA00⟩).taskRegs = false) ∧
    (((keyed (tasks 0xC [] [])).slot 0x09).handler ≠ 0 ∧ (keyed (tasks 0xC [] [])).taskRegs = true) ∧
    SwitchCases (fun s => (keyed s).set .rgp1 0x61) :=
  ⟨by decide, by decide, by decide, ⟨rfl, rfl, by decide⟩, ⟨_, _, rfl⟩, ⟨rfl, _, _, rfl⟩, rfl, rfl, by decide⟩

/-- A key before a timer, a timer alone, both queues empty, a machine that has stopped; two timers of which the second fires. -/
theorem witness_PollDeliversInOrder :
    (({ State.reset with kbd := [0x61], tmr := [7] } : State).run = .running ∧
      ({ State.reset with tmr := [7] } : State).kbd = [] ∧ State.reset.kbd = [] ∧ State.reset.tmr = [] ∧
      ({ State.reset with kbd := [0x61], run := .halted } : State).run ≠ .running) ∧
    (∃ t, poll { State.reset with kbd := [0x61], tmr := [7] } = .next t ∧ t.run = .running ∧ t.get .rgp1 = 7) ∧
    ({ State.reset with armed := [⟨1, 1⟩, ⟨2, 2⟩] } : State).armed[1]? = some ⟨2, 2⟩ ∧
    keyCodes [.key 5, .fire 1, .key 6] = [5, 6] :=
  ⟨by decide, ⟨_, rfl, rfl, rfl⟩, rfl, rfl⟩

/-- A page list of one descriptor at 0x1000 for 0x9000 to 0x9003, readable (section 7). -/
def paged (next : Word) : State :=
  (boot [(.rst, 2), (.rpa, 0x1000)] []).storeBytes 0x1000 ([0x9000, 0x4000, 3, 1, next].flatMap wordBytes)

theorem witness_FirstMatchDecides :
    (State.reset.paging = false) ∧
    ((paged 0).paging = true ∧ Linked (paged 0) ((paged 0).get .rpa) [] 0x1000 ∧ NoneCovers (paged 0) [] 0x9003 ∧
      inZone (paged 0).cfg (0x1000 : Word).toNat 24 = true ∧ (readDesc (paged 0) 0x1000).covers 0x9000 = true ∧
      (readDesc (paged 0) 0x1000).covers 0x9003 = true ∧ (readDesc (paged 0) 0x1000).allows permR = true ∧
      (readDesc (paged 0) 0x1000).allows permW = false) ∧
    (Linked (paged 0) ((paged 0).get .rpa) [0x1000] 0 ∧ NoneCovers (paged 0) [0x1000] 0x9004) ∧
    (Linked (paged 0x100) ((paged 0x100).get .rpa) [0x1000] 0x100 ∧ inZone (paged 0x100).cfg (0x100 : Word).toNat 24 = false) ∧
    (translate State.reset 0x400 permR = .ok 0x400 ∧ translate State.reset 0xFFFC permR = .ok 0xFFFC ∧
      translate State.reset 0xFFFD permR = .ok 0xFFFD ∧ State.reset.cfg.ram < (0xFFFD : Word).toNat + 4) := by
  refine ⟨by decide, ⟨by decide, rfl, ?_, by decide, by decide, by decide, by decide, by decide⟩,
    ⟨⟨by decide, by decide, by decide, by show (_ : Word) = _; decide⟩, ?_⟩,
    ⟨⟨by decide, by decide, by decide, by show (_ : Word) = _; decide⟩, by decide⟩, rfl, rfl, rfl, by decide⟩
  · intro d hd; cases hd
  · intro d hd; rw [List.mem_singleton.mp hd]; decide

/-- With paging off; and with paging on, by a descriptor at 0x1000 that maps 0x9000 to 0x90FF at 0x4000. -/
theorem witness_SavedContextIsRestored :
    (taskAddr (boot [(.rct, 0x6000)] []) ((boot [(.rct, 0x6000)] []).get .rct) = .ok 0x6000 ∧
      ∃ t, saveCurrent (boot [(.rct, 0x6000)] []) = .ok t ∧ (t.set .rgp1 5).mem = t.mem ∧
        taskAddr (t.set .rgp1 5) ((t.set .rgp1 5).get .rct) = .ok 0x6000) ∧
    taskAddr ((boot [(.rst, 2), (.rpa, 0x1000), (.rct, 0x9000)] []).storeBytes 0x1000
      ([0x9000, 0x4000, 0xFF, 0, 0].flatMap wordBytes)) 0x9000 = .ok 0x4000 :=
  ⟨⟨rfl, _, rfl, rfl, rfl⟩, rfl⟩

/-- A page list of one descriptor, at 32, whose NEXT is itself; it covers the addresses 0 to 3. -/
def cyclic : State :=
  ((((State.resetWith tiny).set .rst 2).set .rpa 32).set .rra 8).storeBytes 32 ([0, 16, 3, 7, 32, 0].flatMap wordBytes)

theorem cyclic_linked (n : Nat) : Linked cyclic 32 (List.replicate n 32) 32 := by
  induction n with
  | zero => rfl
  | succ n ih =>
    have h : (readDesc cyclic (32 : Word).toNat).next = 32 := by decide
    exact ⟨rfl, by decide, by decide, h ▸ ih⟩

theorem cyclic_hangs (perm : BitVec 3) : translate cyclic 4 perm = .error .hang := by
  have h : ∀ n, walk cyclic 4 perm n 32 = .error .hang := by
    intro n
    induction n with
    | zero => rfl
    | succ n ih =>
      have hz : inZone cyclic.cfg (32 : Word).toNat 24 = true := by decide
      have hc : (readDesc cyclic (32 : Word).toNat).covers 4 = false := by decide
      have hn : (readDesc cyclic (32 : Word).toNat).next = 32 := by decide
      simp only [walk, hz, hc, hn, ih]; rfl
  have hp : cyclic.paging = true := by decide
  have hr : cyclic.get .rpa = 32 := by decide
  simp only [Machine.translate, hp, hr, h, if_true]

/-- A walk round the cycle that never ends, and one that finds the address in its first descriptor. -/
theorem witness_HangExactlyWithoutEnd :
    (translate cyclic 4 permR = .error .hang ∧ cyclic.paging = true ∧
      ∀ n, ∃ ds d, ds.length = n ∧ Linked cyclic (cyclic.get .rpa) ds d ∧ NoneCovers cyclic ds 4) ∧
    translate cyclic 3 permR = .ok 19 := by
  refine ⟨⟨cyclic_hangs _, by decide, fun n => ⟨List.replicate n 32, 32, List.length_replicate, cyclic_linked n, ?_⟩⟩, rfl⟩
  intro d hd
  rw [(List.mem_replicate.mp hd).2]; decide

/-- A running machine with an instruction in memory meets the invariant and has a next state; a step from it that stores. -/
theorem witness_StepKeepsInvariant : Inv (boot [] [2, 5, 0x2000]) ∧ ∃ t, step (boot [] [2, 5, 0x2000]) = .next t := by
  refine ⟨⟨by decide, by decide, by decide, by decide, by decide, by decide, by decide⟩, _, rfl⟩

theorem witness_ResetHasInvariant :
    Config.standard.legal ∧ Config.legal ⟨2 ^ 32, 0, 0, 2 ^ 32, 0, 0, .implementation⟩ ∧ tiny.legal := by decide

theorem witness_OnlyTheNormalZoneIsWritten :
    (∃ t, step (boot [] [2, 5, 0x2000]) = .next t) ∧ 0x3FF < (boot [] []).cfg.ivtZone ∧ (boot [] []).cfg.ram ≤ 0x10000 :=
  ⟨⟨_, rfl⟩, by decide⟩

/-- An instruction that completes, `call`, and one that is refused. -/
theorem witness_LoweredLevelIsConfined :
    (boot [(.rst, 1), (.rra, 0x3000)] []).lowered = true ∧ (boot [(.rst, 1), (.rra, 0x3000)] []).taskRegs = false ∧
    (∃ t, exec (.cpl (.lit 7) (.reg 0x20)) (boot [(.rst, 1), (.rra, 0x3000)] []) = .next t) ∧
    (∃ t, exec (.call (.lit 7)) (boot [(.rst, 1), (.rra, 0x3000)] []) = .next t) ∧
    (∃ t, exec (.cpl (.lit 7) (.reg 0x1C)) (boot [(.rst, 1), (.rra, 0x3000)] []) = .next t) :=
  ⟨by decide, by decide, ⟨_, rfl⟩, ⟨_, rfl⟩, ⟨_, rfl⟩⟩

/-- Section 8: `intr 0x03` at the lowered level, with task registers on, is refused and enters the base task; a step with task
registers off; an instruction, a fault of the fetch and an event, each from the lowered level with task registers on. -/
theorem witness_LevelRisesOnlyByTaskSwitch :
    ((tasks 0xC [(.rst, 9)] [0xB, 3]).lowered = true ∧
      ((after (tasks 0xC [(.rst, 9)] [0xB, 3])).map fun t => (t.lowered, t.get .rip, t.get .rff)) =
        some (false, 0x700, 0x800)) ∧
    ((boot [(.rst, 1)] [13]).lowered = true ∧ (boot [(.rst, 1)] [13]).taskRegs = false ∧
      ∃ t, step (boot [(.rst, 1)] [13]) = .next t) ∧
    (∃ t, exec (.jmp (.reg 1)) (tasks 0xC [(.rst, 9)] []) = .next t ∧ t.get .rst = 0xC ∧ t.wordAt 0x6004 = 9) ∧
    ((tasks 0xC [(.rst, 9), (.rip, 0x3FF)] []).lowered = true ∧
      ∃ t, fetchAndExecute (tasks 0xC [(.rst, 9), (.rip, 0x3FF)] []) = .next t ∧ t.get .rst = 0xC) ∧
    ((keyed (tasks 0xC [(.rst, 9)] [])).lowered = true ∧
      ∃ t, settle (deliver 0x09 0x61 (keyed (tasks 0xC [(.rst, 9)] []))) = .next t ∧ t.get .rst = 0xC) :=
  ⟨by decide, ⟨by decide, by decide, _, rfl⟩, ⟨_, rfl, by decide, by decide +kernel⟩, ⟨by decide, _, rfl, by decide⟩,
    by decide, _, rfl, by decide⟩

/-- A store, and the bytes on both sides of its word; a storage read; a fault that saves to the current task's structure. -/
theorem witness_MemoryChangesOnlyWhereStored :
    ((∃ t, exec (.cpl (.lit 5) (.lit 0x404)) (boot [] [1]) = .next t) ∧
      storeAddress (.cpl (.lit 5) (.lit 0x404)) (boot [] [1]) = some 0x404 ∧
      dataAddr (boot [] [1]) 0x404 permW = .ok 0x404 ∧ (0x403 < 0x404 ∧ 0x404 + 4 ≤ 0x408) ∧
      (ran (.cpl (.lit 5) (.lit 0x404)) (boot [] [1])).byteAt 0x407 = 5) ∧
    ((transfer 0 3 0xFF0).lowered = false ∧ ((transfer 0 3 0xFF0).get .rgp1).getLsbD 0 = false ∧
      translate (transfer 0 3 0xFF0) ((transfer 0 3 0xFF0).get .rgp3) permW = .ok 0x2000 ∧
      (∃ t, exec (.intr (.lit 0x0B)) (transfer 0 3 0xFF0) = .next t)) ∧
    ((tasks 0xC [] []).taskRegs = true ∧ taskAddr (tasks 0xC [] []) ((tasks 0xC [] []).get .rct) = .ok 0x6000 ∧
      taskAddr (tasks 0xC [] []) ((tasks 0xC [] []).get .rbt) = .ok 0x5000 ∧
      (∃ t, exec (.jmp (.reg 1)) (tasks 0xC [] []) = .next t)) ∧
    storeAddress (.cpx (.reg 0x30) (.reg 0x34)) (boot [(.rgp2, 0x3000)] []) = some 0x3000 ∧
    storeAddress (.call (.lit 0)) (boot [(.rra, 0x3000)] []) = some 0x3000 :=
  ⟨⟨⟨_, rfl⟩, by decide, rfl, by decide, by decide⟩, ⟨by decide, by decide, rfl, _, rfl⟩, ⟨by decide, rfl, rfl, _, rfl⟩,
    by decide, by decide⟩

/-- An instruction that gives no next state, since its address is on a list without an end. -/
theorem witness_OnlyEndlessPageListsHang :
    State.reset.paging = false ∧ cyclic.paging = true ∧ exec .ret cyclic = .fault .pageWalkHang ∧
    ∀ t, exec .ret cyclic ≠ .next t := by
  have h : exec .ret cyclic = .fault .pageWalkHang := by
    have hr : cyclic.get .rra - 4 = 4 := by decide
    rw [exec_eq_settle_effect]; simp only [effect, retEffect, dataAddr, hr, cyclic_hangs]; rfl
  exact ⟨by decide, by decide, h, fun t => by rw [h]; exact nofun⟩

end Sys2Proof.Tests
end

section
/-!
SUPPORT. What a step can do to the parts of the state that the invariant speaks of: a finite sequence of guarded updates, each
under the check that the spec puts before it (R62, R196, R255, R264). `step_evolves` says it once for every step from any
state; an invariant of a step is then one lemma per update.
-/

namespace Sys2Proof.Machine

/-! ## The guarded updates -/

/-- The two states agree on the parameters, memory, the vector table, the storage devices and the armed timers; registers,
latches, queues, RUN, the display and the model's own lists may differ. -/
structure SameGuarded (s t : State) : Prop where
  cfg : t.cfg = s.cfg
  mem : t.mem = s.mem
  ivt : t.ivt = s.ivt
  storage : t.storage = s.storage
  armed : t.armed = s.armed

/-- One update a step may make, with the check that guards it. -/
inductive Update : State → State → Prop
  /-- anything that no check guards -/
  | free {s t : State} (h : SameGuarded s t) : Update s t
  /-- bytes stored in the normal zone (R62) -/
  | store {s : State} {p : Nat} {bytes : List Byte} (h : inZone s.cfg p bytes.length = true) :
      Update s (s.storeBytes p bytes)
  /-- a slot written by vector-install (R196) -/
  | install {s : State} {n : Nat} (e : IvtSlot) (h : installable n = true) : Update s (s.setSlot n e)
  /-- bytes written to a storage device, within it (R264) -/
  | transfer {s : State} {dev off : Nat} {bytes : List Byte} (h : storageInRange s dev off bytes.length = true) :
      Update s (storagePut s dev off bytes)
  /-- a timer armed with a place free in the pool (R255, R265) -/
  | arm {s : State} (x : Timer) (h : s.armed.length < s.cfg.timerPool) : Update s { s with armed := s.armed ++ [x] }
  /-- an armed timer that fires and is free again (R205) -/
  | disarm (s : State) (n : Nat) : Update s { s with armed := s.armed.eraseIdx n }

/-- Finitely many guarded updates, one after the other. -/
def Evolves : State → State → Prop := Relation.ReflTransGen Update

namespace Evolves

theorem refl (s : State) : Evolves s s := Relation.ReflTransGen.refl

theorem trans {s t u : State} (h1 : Evolves s t) (h2 : Evolves t u) : Evolves s u := Relation.ReflTransGen.trans h1 h2

theorem of_update {s t : State} (h : Update s t) : Evolves s t := Relation.ReflTransGen.single h

theorem then_update {s t u : State} (h : Evolves s t) (hu : Update t u) : Evolves s u := h.trans (of_update hu)

theorem of_sameGuarded {s t : State} (h : SameGuarded s t) : Evolves s t := of_update (.free h)

theorem of_sameButLatches {s t : State} (h : SameButLatches s t) : Evolves s t := by
  rw [h]; exact of_sameGuarded ⟨rfl, rfl, rfl, rfl, rfl⟩

theorem set (s : State) (r : Reg) (v : Word) : Evolves s (s.set r v) := of_sameGuarded ⟨rfl, rfl, rfl, rfl, rfl⟩

theorem withKbd (s : State) (codes : List Word) : Evolves s { s with kbd := codes } :=
  of_sameGuarded ⟨rfl, rfl, rfl, rfl, rfl⟩

theorem withTmr (s : State) (ids : List Byte) : Evolves s { s with tmr := ids } :=
  of_sameGuarded ⟨rfl, rfl, rfl, rfl, rfl⟩

/-- A register written last, as every instruction writes RIP. -/
theorem then_set {s t : State} (h : Evolves s t) (r : Reg) (v : Word) : Evolves s (t.set r v) := h.trans (set t r v)

theorem storeWord {s : State} {p : Nat} (v : Word) (h : inZone s.cfg p 4 = true) : Evolves s (s.storeWord p v) :=
  of_update (.store h)

theorem foldl_storeWord {p : Nat} (g : Reg → Word) (rs : List Reg) {s : State} (hz : inZone s.cfg p 112 = true) :
    Evolves s (rs.foldl (fun t r => t.storeWord (p + r.offset) (g r)) s) := by
  induction rs generalizing s with
  | nil => exact refl s
  | cons r rest ih =>
    have hr := Reg.offset_lt r
    exact (storeWord (g r) (inZone_sub hz (by omega) (by omega))).trans (ih hz)

/-- A save to a task structure, whose 112 bytes lie in the normal zone (R240). -/
theorem saveRegs (rs : List Reg) {p : Nat} {s : State} (hz : inZone s.cfg p 112 = true) :
    Evolves s (saveRegs rs p s) :=
  foldl_storeWord s.get rs hz

theorem loadRegs (rs : List Reg) (p : Nat) (s : State) : Evolves s (loadRegs rs p s) := by
  rw [loadRegs_eq]; exact of_sameGuarded ⟨rfl, rfl, rfl, rfl, rfl⟩

theorem machineCheck (s : State) : Evolves s (machineCheck s) := of_sameGuarded ⟨rfl, rfl, rfl, rfl, rfl⟩

theorem redirect (k : FaultKind) (s : State) : Evolves s (redirect k s) := by
  unfold Machine.redirect
  split
  · exact set ..
  · exact of_sameGuarded ⟨rfl, rfl, rfl, rfl, rfl⟩

end Evolves

/-! ## Operations that complete or raise -/

/-- Wherever the operation raises a fault, guarded updates have led there from `s`. -/
structure RaisesFrom {α : Type} (s : State) (c : Check α) : Prop where
  evolves : ∀ (k : FaultKind) (t : State), c = .error (.raise k t) → Evolves s t

/-- The state the operation leaves, or raises a fault in, is reached from `s` by guarded updates. -/
structure Runs (s : State) (c : Check State) : Prop extends RaisesFrom s c where
  ok : ∀ t, c = .ok t → Evolves s t

theorem RaisesFrom.of_ok {α : Type} (s : State) (a : α) : RaisesFrom s (.ok a : Check α) := ⟨nofun⟩

theorem RaisesFrom.raise {α : Type} {s t : State} (h : Evolves s t) (k : FaultKind) :
    RaisesFrom s (raise k t : Check α) := by
  refine ⟨fun k' u e => ?_⟩
  simp only [raise_eq_error, Trap.raise.injEq] at e
  obtain ⟨-, rfl⟩ := e
  exact h

theorem Runs.of_ok {s t : State} (h : Evolves s t) : Runs s (.ok t) :=
  { RaisesFrom.of_ok s t with ok := fun _ e => by cases e; exact h }

theorem Runs.raise {s t : State} (h : Evolves s t) (k : FaultKind) : Runs s (raise k t) :=
  { RaisesFrom.raise h k with ok := fun _ e => absurd e (raise_ne_ok k t _) }

/-- One operation after another that yields a value: what the first answers is known to the second. -/
theorem Runs.bind {α : Type} {s : State} {x : Check α} {f : α → Check State} (hx : RaisesFrom s x)
    (hf : ∀ a, x = .ok a → Runs s (f a)) : Runs s (x >>= f) := by
  refine ⟨⟨fun k t h => ?_⟩, fun t h => ?_⟩
  · rcases Check.bind_eq_error.mp h with h | ⟨a, ha, hfa⟩
    · exact hx.evolves k t h
    · exact (hf a ha).evolves k t hfa
  · obtain ⟨a, ha, hfa⟩ := Check.bind_eq_ok.mp h
    exact (hf a ha).ok t hfa

/-- Updates before an operation are part of what it did. -/
theorem Runs.after {s u : State} {c : Check State} (hu : Evolves s u) (h : Runs u c) : Runs s c :=
  ⟨⟨fun k t e => hu.trans (h.evolves k t e)⟩, fun t e => hu.trans (h.ok t e)⟩

/-- One operation after another that leaves a state. -/
theorem Runs.andThen {s : State} {x : Check State} {f : State → Check State} (hx : Runs s x)
    (hf : ∀ u, x = .ok u → Runs u (f u)) : Runs s (x >>= f) :=
  .bind hx.toRaisesFrom fun u hu => (hf u hu).after (hx.ok u hu)

/-! ## Checks on operands and addresses -/

theorem regOf_raises (s : State) (id : Byte) : RaisesFrom s (regOf s id) := by
  unfold regOf
  split
  · exact .of_ok ..
  · exact .raise (.refl s) _

theorem destOf_raises (s : State) (id : Byte) : RaisesFrom s (destOf s id) := by
  rw [destOf_eq]
  split
  · exact .raise (.refl s) _
  · split
    · exact .of_ok ..
    · exact .raise (.refl s) _

theorem needReg_raises (s : State) (op : Operand) : RaisesFrom s (needReg s op) := by
  cases op with
  | reg id => exact .of_ok ..
  | lit v => exact .raise (.refl s) _

theorem needLit_raises (s : State) (op : Operand) : RaisesFrom s (needLit s op) := by
  cases op with
  | reg id => exact .raise (.refl s) _
  | lit v => exact .of_ok ..

theorem valueOf_raises (s : State) (op : Operand) : RaisesFrom s (valueOf s op) := by
  cases hn : Operand.names op with
  | true => obtain ⟨v, hv⟩ := valueOf_of_names hn s; rw [hv]; exact .of_ok ..
  | false => rw [valueOf_of_not_names hn]; exact .raise (.refl s) _

theorem modeOf_raises {α : Type} (s : State) (m : Option α) : RaisesFrom s (modeOf s m) := by
  cases m with
  | none => exact .raise (.refl s) _
  | some x => exact .of_ok ..

theorem ensure_raises (b : Bool) (k : FaultKind) (s : State) : RaisesFrom s (ensure b k s) := by
  cases b with
  | false => exact .raise (.refl s) _
  | true => exact .of_ok ..

theorem translate_raises (s : State) (a : Word) (perm : BitVec 3) : RaisesFrom s (translate s a perm) :=
  ⟨fun _ _ h => .of_sameButLatches (translate_error h).2⟩

theorem dataAddr_raises (s : State) (a : Word) (perm : BitVec 3) : RaisesFrom s (dataAddr s a perm) :=
  ⟨fun _ _ h => .of_sameButLatches (dataAddr_error h).2⟩

theorem fetch_raises (s : State) : RaisesFrom s (fetch s) := ⟨fun _ _ h => .of_sameButLatches (fetch_error h)⟩

/-! ## The task switch, faults and handler entry -/

theorem evolves_saveRegs_of_taskAddr {s : State} {ptr : Word} {p : Nat} (rs : List Reg) (h : taskAddr s ptr = .ok p) :
    Evolves s (saveRegs rs p s) :=
  .saveRegs rs (taskAddr_ok h).1

theorem trapSwitch_runs (s : State) : Runs s (trapSwitch s) := by
  refine ⟨⟨fun k t h => ?_⟩, fun t h => ?_⟩
  · obtain ⟨-, -, hl | ⟨p, hp, hl | ⟨q, -, rfl⟩⟩⟩ := trapSwitch_error h
    · exact .of_sameButLatches hl
    · exact (evolves_saveRegs_of_taskAddr _ hp).trans (.of_sameButLatches hl)
    · exact (evolves_saveRegs_of_taskAddr _ hp).trans (.loadRegs ..)
  · rcases trapSwitch_ok h with ⟨-, rfl⟩ | ⟨-, -, p, q, hp, -, rfl⟩
    · exact .refl t
    · exact (evolves_saveRegs_of_taskAddr _ hp).trans (.loadRegs ..)

theorem saveBase_runs (s : State) : Runs s (saveBase s) := by
  refine ⟨⟨fun k t h => .of_sameButLatches (saveBase_error h).2⟩, fun t h => ?_⟩
  obtain ⟨p, hp, rfl⟩ := saveBase_ok h
  exact evolves_saveRegs_of_taskAddr _ hp

theorem loadCurrent_runs (s : State) : Runs s (loadCurrent s) := by
  refine ⟨⟨fun k t h => .of_sameButLatches (loadCurrent_error h).2⟩, fun t h => ?_⟩
  obtain ⟨p, -, rfl⟩ := loadCurrent_ok h
  exact .loadRegs ..

/-- The return from a trap as a sequence of its two halves (R212, R245). -/
theorem trapReturn_eq_bind (s : State) : trapReturn s = saveBase s >>= loadCurrent := by
  unfold trapReturn
  cases saveBase s <;> rfl

theorem trapReturn_runs (s : State) : Runs s (trapReturn s) := by
  rw [trapReturn_eq_bind]
  exact .andThen (saveBase_runs s) fun u _ => loadCurrent_runs u

theorem takeFault_evolves {k : FaultKind} {s t : State} (h : takeFault k s = .next t) : Evolves s t := by
  rcases takeFault_next h with ⟨-, rfl⟩ | ⟨-, u, hu, rfl⟩ | ⟨-, u, hu, rfl⟩
  · exact .machineCheck s
  · exact (((trapSwitch_runs s).ok u hu).then_set ..).trans (.redirect ..)
  · exact ((trapSwitch_runs s).evolves _ u hu).trans (.machineCheck u)

theorem settle_evolves {c : Check State} {s t : State} (hc : Runs s c) (h : settle c = .next t) : Evolves s t := by
  match c, hc with
  | .ok u, hc => cases h; exact hc.ok t rfl
  | .error (.raise k u), hc => exact (hc.evolves k u rfl).trans (takeFault_evolves h)
  | .error .hang, _ => cases h

theorem enter_runs (a : Word) (s : State) : Runs s (enter a s) := by
  refine ⟨⟨fun k t h => (trapSwitch_runs s).evolves k t (enter_error h)⟩, fun t h => ?_⟩
  obtain ⟨u, hu, rfl⟩ := enter_ok h
  exact ((trapSwitch_runs s).ok u hu).then_set ..

theorem deliver_runs (v : Nat) (c : Word) (s : State) : Runs s (deliver v c s) := by
  by_cases h : (s.slot v).handler = 0
  · rw [deliver_uninstalled h]; exact .of_ok (.set ..)
  · rw [deliver_installed h]; exact (enter_runs ..).after (.set ..)

theorem dispatchVectored_runs (v next : Word) (s : State) : Runs s (dispatchVectored v next s) := by
  unfold dispatchVectored
  split
  · exact .raise (.refl s) _
  · split
    · exact .raise (.refl s) _
    · exact (enter_runs ..).after (.set ..)

/-! ## Copies, compare and control transfer -/

theorem copyTo_runs (v : Word) (op2 : Operand) (next : Word) (s : State) : Runs s (copyTo v op2 next s) := by
  cases op2 with
  | reg id2 => exact .bind (destOf_raises ..) fun rb _ => .of_ok ((Evolves.set ..).then_set ..)
  | lit a =>
    exact .bind (dataAddr_raises ..) fun p hp => .of_ok ((Evolves.storeWord v (dataAddr_inZone hp)).then_set ..)

theorem cprEffect_runs (op1 op2 : Operand) (s : State) : Runs s (cprEffect op1 op2 s) :=
  .bind (needReg_raises ..) fun _ _ => .bind (regOf_raises ..) fun _ _ => copyTo_runs ..

theorem cplEffect_runs (op1 op2 : Operand) (s : State) : Runs s (cplEffect op1 op2 s) :=
  .bind (needLit_raises ..) fun _ _ => copyTo_runs ..

theorem cpfEffect_runs (op1 op2 : Operand) (s : State) : Runs s (cpfEffect op1 op2 s) := by
  refine .bind (valueOf_raises ..) fun sa _ => ?_
  cases op2 with
  | reg id2 =>
    exact .bind (destOf_raises ..) fun rb _ => .bind (dataAddr_raises ..) fun ps _ =>
      .of_ok ((Evolves.set ..).then_set ..)
  | lit a2 =>
    exact .bind (dataAddr_raises ..) fun ps _ => .bind (dataAddr_raises ..) fun pd hd =>
      .of_ok ((Evolves.storeWord _ (dataAddr_inZone hd)).then_set ..)

theorem cpxEffect_runs (op1 op2 : Operand) (s : State) : Runs s (cpxEffect op1 op2 s) :=
  .bind (needReg_raises ..) fun _ _ => .bind (needReg_raises ..) fun _ _ =>
    .bind (regOf_raises ..) fun _ _ => .bind (regOf_raises ..) fun _ _ =>
      .bind (dataAddr_raises ..) fun _ hp => .of_ok ((Evolves.storeWord _ (dataAddr_inZone hp)).then_set ..)

theorem cmpEffect_runs (op1 op2 : Operand) (s : State) : Runs s (cmpEffect op1 op2 s) := by
  refine .bind (valueOf_raises ..) fun a _ => .bind (valueOf_raises ..) fun b _ => ?_
  split
  · exact .raise (.refl s) _
  · exact .of_ok ((Evolves.set ..).then_set ..)

theorem jmpEffect_runs (op1 : Operand) (s : State) : Runs s (jmpEffect op1 s) :=
  .bind (valueOf_raises ..) fun _ _ => .of_ok (.set ..)

theorem callEffect_runs (op1 : Operand) (s : State) : Runs s (callEffect op1 s) :=
  .bind (valueOf_raises ..) fun _ _ => .bind (dataAddr_raises ..) fun _ hp =>
    .of_ok (((Evolves.storeWord _ (dataAddr_inZone hp)).then_set ..).then_set ..)

theorem retEffect_runs (s : State) : Runs s (retEffect s) :=
  .bind (dataAddr_raises ..) fun _ _ => .of_ok ((Evolves.set ..).then_set ..)

/-! ## Arithmetic and logic -/

theorem arithmetic_runs (m : ArithMode) (a d : Word) (rd : Reg) (s : State) : Runs s (arithmetic m a d rd s) := by
  refine ⟨⟨fun k t h => ?_⟩, fun t h => ?_⟩
  · obtain ⟨rfl, -⟩ := arithmetic_error h
    exact .refl t
  · rw [arithmetic_ok h]; exact .of_sameGuarded ⟨rfl, rfl, rfl, rfl, rfl⟩

theorem arthEffect_runs (op1 op2 : Operand) (s : State) : Runs s (arthEffect op1 op2 s) :=
  .bind (needReg_raises ..) fun _ _ => .bind (valueOf_raises ..) fun _ _ => .bind (destOf_raises ..) fun _ _ =>
    .bind (modeOf_raises ..) fun _ _ => .andThen (arithmetic_runs ..) fun _ _ => .of_ok (.set ..)

theorem lgicEffect_runs (op1 op2 : Operand) (s : State) : Runs s (lgicEffect op1 op2 s) :=
  .bind (needReg_raises ..) fun _ _ => .bind (valueOf_raises ..) fun _ _ => .bind (destOf_raises ..) fun _ _ =>
    .bind (modeOf_raises ..) fun _ _ => .of_ok ((Evolves.set ..).then_set ..)

/-! ## The ports and the inline vectors -/

theorem drawStorageError_evolves (s : State) : Evolves s (drawStorageError s).2 :=
  .of_sameGuarded ⟨rfl, rfl, rfl, rfl, rfl⟩

/-- A read is stored where `storageIo` has checked the buffer (R202). -/
theorem storageRead_runs (dev off : Nat) {len p : Nat} {s : State} (hz : inZone s.cfg p len = true) :
    Runs s (storageRead dev off len p s) := by
  have hlen : (storageBytesAt s dev off len).length = len := by simp [storageBytesAt]
  unfold storageRead
  simp only
  split
  · exact .of_ok ((drawStorageError_evolves s).then_update (.store (by rw [hlen]; exact hz)))
  · exact .raise (drawStorageError_evolves s) _

theorem storageWrite_runs (dev off len p : Nat) (s : State) : Runs s (storageWrite dev off len p s) := by
  unfold storageWrite
  simp only
  split
  · next hr =>
    obtain ⟨hrange, -⟩ := Bool.and_eq_true_iff.mp hr
    refine .of_ok ((drawStorageError_evolves s).then_update (.transfer ?_))
    rw [State.bytesAt_length]
    exact hrange
  · exact .raise (drawStorageError_evolves s) _

theorem storageTransfer_runs (write : Bool) (dev off : Nat) {len p : Nat} {s : State} (hz : inZone s.cfg p len = true) :
    Runs s (storageTransfer write dev off len p s) := by
  cases write with
  | false => exact storageRead_runs dev off hz
  | true => exact storageWrite_runs ..

theorem storageIo_runs (next : Word) (s : State) : Runs s (storageIo next s) :=
  .bind (translate_raises ..) fun _ _ => .bind (ensure_raises ..) fun _ hz =>
    .andThen (storageTransfer_runs _ _ _ ((ensure_eq_ok ..).mp hz)) fun _ _ => .of_ok (.set ..)

theorem timerArm_runs (id : Byte) (delay : Word) (s : State) : Runs s (timerArm id delay s) := by
  have hdraw : Evolves s { s with timerRefusals := s.timerRefusals.tail } := .of_sameGuarded ⟨rfl, rfl, rfl, rfl, rfl⟩
  unfold timerArm
  split
  · exact .raise hdraw _
  · next h =>
    simp only [Bool.or_eq_true, decide_eq_true_eq, not_or, Nat.not_le] at h
    obtain ⟨-, hfree⟩ := h
    exact .of_ok (hdraw.then_update (.arm ⟨id, delay⟩ hfree))

theorem timerArmVector_runs (next : Word) (s : State) : Runs s (timerArmVector next s) :=
  .andThen (timerArm_runs ..) fun _ _ => .of_ok (.set ..)

theorem vectorInstall_runs (next : Word) (s : State) : Runs s (vectorInstall next s) := by
  unfold vectorInstall
  simp only
  split
  · next hn => exact .of_ok ((Evolves.of_update (.install _ hn)).then_set ..)
  · exact .raise (.refl s) _

theorem keyboardVector_runs (next : Word) (s : State) : Runs s (keyboardVector next s) := by
  unfold keyboardVector
  split
  · exact .of_ok (.set ..)
  · exact (deliver_runs ..).after ((Evolves.withKbd ..).then_set ..)

theorem timerVector_runs (next : Word) (s : State) : Runs s (timerVector next s) := by
  unfold timerVector
  split
  · exact .of_ok (.set ..)
  · exact (deliver_runs ..).after ((Evolves.withTmr ..).then_set ..)

theorem inlineEffect_runs (v : InlineVector) (next : Word) (s : State) : Runs s (inlineEffect v next s) := by
  cases v with
  | install => exact vectorInstall_runs ..
  | halt => exact .of_ok (.of_sameGuarded ⟨rfl, rfl, rfl, rfl, rfl⟩)
  | keyboard => exact keyboardVector_runs ..
  | display => exact .of_ok (.of_sameGuarded ⟨rfl, rfl, rfl, rfl, rfl⟩)
  | storage => exact storageIo_runs ..
  | invalidate => exact .of_ok (.set ..)
  | timerArm => exact timerArmVector_runs ..
  | timerExpired => exact timerVector_runs ..

theorem intrEffect_runs (op1 : Operand) (s : State) : Runs s (intrEffect op1 s) := by
  refine .bind (needLit_raises ..) fun v _ => ?_
  split
  · split
    · exact .raise (.refl s) _
    · exact inlineEffect_runs ..
  · exact dispatchVectored_runs ..

theorem ltskEffect_runs (s : State) : Runs s (ltskEffect s) := by
  unfold ltskEffect
  split
  · split
    · exact .raise (.refl s) _
    · exact trapReturn_runs s
  · exact .of_ok (.set ..)

/-! ## Instructions -/

theorem effect_runs (i : Instr) (s : State) : Runs s (effect i s) := by
  cases i with
  | cpr op1 op2 => exact cprEffect_runs ..
  | cpl op1 op2 => exact cplEffect_runs ..
  | cpf op1 op2 => exact cpfEffect_runs ..
  | cpx op1 op2 => exact cpxEffect_runs ..
  | cmp op1 op2 => exact cmpEffect_runs ..
  | jmp op1 => exact jmpEffect_runs ..
  | call op1 => exact callEffect_runs ..
  | ret => exact retEffect_runs s
  | arth op1 op2 => exact arthEffect_runs ..
  | lgic op1 op2 => exact lgicEffect_runs ..
  | intr op1 => exact intrEffect_runs ..
  | rsv => exact .of_ok (.set ..)
  | nop => exact .of_ok (.set ..)
  | ltsk => exact ltskEffect_runs s

theorem exec_evolves {i : Instr} {s t : State} (h : exec i s = .next t) : Evolves s t := by
  rw [exec_eq_settle_effect] at h
  exact settle_evolves (effect_runs i s) h

theorem fetchAndExecute_of_fetch {s : State} {i : Instr} (h : fetch s = .ok i) : fetchAndExecute s = exec i s := by
  simp only [fetchAndExecute, h]

theorem fetchAndExecute_evolves {s t : State} (h : fetchAndExecute s = .next t) : Evolves s t := by
  unfold fetchAndExecute at h
  split at h
  · exact exec_evolves h
  · next e he =>
    have hraise := fetch_raises s
    rw [he] at hraise
    match e, hraise with
    | .raise k u, hraise => exact (hraise.evolves k u rfl).trans (takeFault_evolves h)
    | .hang, _ => cases h

/-! ## Events and the step -/

theorem arrive_evolves (s : State) (e : Event) : Evolves s (arrive s e) := by
  cases e with
  | key c => exact .withKbd ..
  | fire n =>
    simp only [arrive]
    split
    · next x _ => exact (Evolves.withTmr s (s.tmr ++ [x.id])).then_update (.disarm _ n)
    · exact .refl s

theorem foldl_arrive_evolves (evs : List Event) (s : State) : Evolves s (evs.foldl arrive s) := by
  induction evs generalizing s with
  | nil => exact .refl s
  | cons e rest ih => exact (arrive_evolves s e).trans (ih _)

theorem arriveBefore_evolves (s : State) : Evolves s (arriveBefore s) := by
  unfold arriveBefore
  split
  · exact .refl s
  · exact foldl_arrive_evolves ..

theorem arriveBeforePoll_evolves (s : State) : Evolves s (arriveBeforePoll s) := by
  unfold arriveBeforePoll
  split
  · exact .refl s
  · next now later _ =>
    have hused : Evolves s { s with arrivals := later } := .of_sameGuarded ⟨rfl, rfl, rfl, rfl, rfl⟩
    exact hused.trans (foldl_arrive_evolves ..)

theorem drainKeys_evolves {keys : List Word} {s t : State} (h : drainKeys keys s = .next t) : Evolves s t := by
  induction keys generalizing s with
  | nil => cases h; exact .refl _
  | cons c rest ih =>
    simp only [drainKeys] at h
    split at h
    · split at h
      · next u hu =>
        exact (settle_evolves ((deliver_runs ..).after (.withKbd _ rest)) hu).trans (ih h)
      · next hstop => exact absurd h (hstop t)
    · cases h; exact .refl _

theorem drainTimers_evolves {ids : List Byte} {s t : State} (h : drainTimers ids s = .next t) : Evolves s t := by
  induction ids generalizing s with
  | nil => cases h; exact .refl _
  | cons c rest ih =>
    simp only [drainTimers] at h
    split at h
    · split at h
      · next u hu =>
        exact (settle_evolves ((deliver_runs ..).after (.withTmr _ rest)) hu).trans (ih h)
      · next hstop => exact absurd h (hstop t)
    · cases h; exact .refl _

theorem poll_evolves {s t : State} (h : poll s = .next t) : Evolves s t := by
  unfold poll at h
  split at h
  · next u hu => exact (drainKeys_evolves hu).trans (drainTimers_evolves h)
  · next hstop => exact absurd h (hstop t)

theorem afterInstr_next {r : Result} {t : State} (h : afterInstr r = .next t) :
    ∃ u, r = .next u ∧ poll (arriveBeforePoll u) = .next t := by
  cases r with
  | next u => exact ⟨u, rfl, h⟩
  | fault e => cases h
  | refused e => cases h

theorem step_running {s : State} (h : s.run = .running) : step s = afterInstr (fetchAndExecute (arriveBefore s)) :=
  if_pos h

/-- With no arrivals scheduled and both queues empty, nothing follows the instruction (R10, R250). -/
theorem afterInstr_quiet {t : State} (ha : t.arrivals = []) (hk : t.kbd = []) (ht : t.tmr = []) :
    afterInstr (.next t) = .next t := by
  simp only [afterInstr, arriveBeforePoll, ha, poll_quiet hk ht]

/-- A machine that does not run takes no step (R10, R45). -/
theorem step_not_running {s : State} (h : s.run ≠ .running) : step s = .next s := if_neg h

/-- Every step, from any state at all, is a sequence of guarded updates. -/
theorem step_evolves {s t : State} (h : step s = .next t) : Evolves s t := by
  by_cases hr : s.run = .running
  · rw [step_running hr] at h
    obtain ⟨u, hu, hp⟩ := afterInstr_next h
    have hexec : Evolves s u := (arriveBefore_evolves s).trans (fetchAndExecute_evolves hu)
    exact hexec.trans ((arriveBeforePoll_evolves u).trans (poll_evolves hp))
  · rw [step_not_running hr] at h
    cases h
    exact .refl s

end Sys2Proof.Machine
end

section
/-!
SUPPORT. The invariant under each guarded update, and the statements about the machine as a whole that rest on it.
-/

namespace Sys2Proof.Machine

/-! ## The invariant under each update -/

theorem Inv.of_sameGuarded {s t : State} (h : Inv s) (hst : SameGuarded s t) : Inv t where
  legal := by rw [hst.cfg]; exact h.legal
  memWf := by rw [hst.mem]; exact h.memWf
  memZone := by rw [hst.mem, hst.cfg]; exact h.memZone
  devices := by rw [hst.storage, hst.cfg]; exact h.devices
  deviceWf := by rw [hst.storage]; exact h.deviceWf
  pool := by rw [hst.armed, hst.cfg]; exact h.pool
  reserved := by unfold State.slot; rw [hst.ivt]; exact h.reserved

theorem Inv.storeBytes {s : State} (h : Inv s) {p : Nat} {bytes : List Byte}
    (hz : inZone s.cfg p bytes.length = true) : Inv (s.storeBytes p bytes) where
  legal := h.legal
  memWf := State.storeBytes_wf h.memWf p bytes
  memZone := by
    intro c hc
    rw [inZone_iff] at hz
    rcases Memory.mem_store hc with ⟨hm, -⟩ | hnew
    · exact h.memZone c hm
    · simp only [State.storeBytes_cfg]; omega
  devices := h.devices
  deviceWf := h.deviceWf
  pool := h.pool
  reserved := h.reserved

/-- An installable number is no reserved slot's (R41, R196). -/
theorem Inv.setSlot {s : State} (h : Inv s) {n : Nat} (e : IvtSlot) (hn : installable n = true) : Inv (s.setSlot n e) := by
  rw [State.setSlot_eq]
  refine { h with reserved := ?_ }
  intro v hv h9 h16
  rw [installable_iff] at hn
  rw [← State.setSlot_eq, State.slot_setSlot, if_neg (by omega)]
  exact h.reserved v hv h9 h16

/-- The device's canonical form, and its bytes within it (R264). -/
def Device.wf (d : Device) : Prop := Memory.wf d.cells ∧ ∀ c ∈ d.cells, c.1 < d.size

theorem Device.store_wf {d : Device} (h : d.wf) {off : Nat} {bytes : List Byte} (hr : off + bytes.length ≤ d.size) :
    Device.wf { d with cells := Memory.store d.cells off bytes } := by
  obtain ⟨hcells, hwithin⟩ := h
  refine ⟨Memory.store_wf hcells off bytes, fun c hc => ?_⟩
  rcases Memory.mem_store hc with ⟨hm, -⟩ | hnew
  · exact hwithin c hm
  · show c.1 < d.size
    omega

theorem Inv.storagePut {s : State} (h : Inv s) {dev off : Nat} {bytes : List Byte}
    (hr : storageInRange s dev off bytes.length = true) : Inv (storagePut s dev off bytes) := by
  obtain ⟨-, d, hd, hsize⟩ := storageInRange_iff.mp hr
  refine { h with devices := (List.length_modify ..).trans h.devices, deviceWf := ?_ }
  intro d' hd'
  obtain ⟨j, hj⟩ := List.mem_iff_getElem?.mp hd'
  rw [Machine.storagePut, List.getElem?_modify] at hj
  obtain ⟨x, hx, rfl⟩ := Option.map_eq_some_iff.mp hj
  have hxwf : x.wf := h.deviceWf x (List.mem_of_getElem? hx)
  by_cases hdev : dev = j
  · subst hdev
    rw [hd] at hx
    cases hx
    rw [if_pos rfl]
    exact Device.store_wf hxwf hsize
  · rw [if_neg hdev]
    exact hxwf

theorem Inv.arm {s : State} (h : Inv s) (x : Timer) (hp : s.armed.length < s.cfg.timerPool) :
    Inv { s with armed := s.armed ++ [x] } :=
  { h with pool := by simp only [List.length_append, List.length_singleton]; omega }

theorem Inv.disarm {s : State} (h : Inv s) (n : Nat) : Inv { s with armed := s.armed.eraseIdx n } :=
  { h with pool := (List.eraseIdx_sublist s.armed n).length_le.trans h.pool }

theorem Inv.update {s t : State} (h : Inv s) (hu : Update s t) : Inv t := by
  cases hu with
  | free hst => exact h.of_sameGuarded hst
  | store hz => exact h.storeBytes hz
  | install e hn => exact h.setSlot e hn
  | transfer hr => exact h.storagePut hr
  | arm x hp => exact h.arm x hp
  | disarm n => exact h.disarm n

theorem Inv.evolves {s t : State} (h : Inv s) (hst : Evolves s t) : Inv t := by
  induction hst with
  | refl => exact h
  | tail _ hu ih => exact ih.update hu

/-! ## Reset -/

theorem resetWith_slot (c : Config) (v : Nat) : (State.resetWith c).slot v = ⟨false, 0⟩ := by
  unfold State.slot
  split
  · exact Vector.getElem_replicate ..
  · rfl

theorem inv_resetWith {c : Config} (hc : c.legal) : Inv (State.resetWith c) where
  legal := hc
  memWf := List.Pairwise.nil
  memZone := nofun
  devices := List.length_replicate
  deviceWf := by
    intro d hd
    rw [(List.mem_replicate.mp hd).2]
    exact ⟨List.Pairwise.nil, nofun⟩
  pool := Nat.zero_le _
  reserved := by intro v _ _ _; rw [resetWith_slot]

/-- The boot image lies in the normal zone (R6, R271). -/
theorem inZone_bootImage {c : Config} (hc : c.legal) : inZone c c.bootBase c.bootSize = true := by
  obtain ⟨hbase, hend, -⟩ := hc
  exact (inZone_iff ..).mpr ⟨hbase, hend⟩

theorem inv_start {c : Config} (hc : c.legal) (image : Vector Byte c.bootSize) : Inv (State.start c image) := by
  refine (inv_resetWith hc).storeBytes ?_
  rw [Vector.length_toList]
  exact inZone_bootImage hc

/-! ## The statements -/

/-- Settles O54: a step is a sequence of guarded updates, and each of them keeps the invariant. -/
theorem stepKeepsInvariant : Obligations.StepKeepsInvariant := by
  intro s t hs hstep
  exact hs.evolves (step_evolves hstep)

/-- Settles O8, from what the fetch answers where the instruction's bytes lie. -/
theorem stepRunsDecodedInstruction : Obligations.StepRunsDecodedInstruction := by
  refine ⟨fun s i p hrun htr hz hd => ?_, fun s hrun => step_not_running hrun⟩
  have hstep : step s = afterInstr (exec i (arriveBefore s)) := by
    rw [step_running hrun, fetchAndExecute_of_fetch (fetch_ok htr hz hd)]
  refine ⟨hstep, fun t hs ht hta hk htm => ?_⟩
  have hbefore : arriveBefore s = s := by simp only [arriveBefore, hs]
  rw [hstep, hbefore, ht, afterInstr_quiet hta hk htm]

/-- Settles O55: reset has the invariant, and the boot image is stored in the normal zone. -/
theorem resetHasInvariant : Obligations.ResetHasInvariant := by
  intro c hc
  exact ⟨inv_resetWith hc, fun image => inv_start hc image⟩

end Sys2Proof.Machine
end

section
/-!
SUPPORT. What an instruction's rule can raise, said once for all 14 instructions: each kind of fault with the condition it comes
from and the state it is raised in (R108). Statements about which faults an instruction raises are read off `RuleFault`.
-/

namespace Sys2Proof.Machine

/-! ## Registers by index and by id -/

theorem exists_reg_of_index {n : Nat} (h : n < 28) : ∃ r, Reg.ofIndex n = some r ∧ r.index.val = n := by
  have hall : ∀ k : Fin 28, ∃ r ∈ Reg.all, Reg.ofIndex k.val = some r ∧ r.index.val = k.val := by decide
  obtain ⟨r, -, hr⟩ := hall ⟨n, h⟩
  exact ⟨r, hr⟩

theorem Reg.ofIndex_of_le {n : Nat} (h : 28 ≤ n) : Reg.ofIndex n = none := by
  obtain ⟨k, rfl⟩ := Nat.exists_eq_add_of_le' h
  rfl

/-- The ids that name a register (R21). -/
theorem decodeReg_of_valid {id : Byte} (h0 : id ≠ 0) (h4 : id.toNat % 4 = 0) (hlt : id.toNat < 0x70) :
    ∃ r, decodeReg id = some r ∧ r.offset = id.toNat := by
  obtain ⟨r, hr, hi⟩ := exists_reg_of_index (n := id.toNat / 4) (by omega)
  refine ⟨r, by rw [decodeReg, if_neg h0, if_pos h4, hr], ?_⟩
  rw [Reg.offset, hi]
  omega

/-- The ids that name none: misaligned, or out of range (R21). -/
theorem decodeReg_of_invalid {id : Byte} (h0 : id ≠ 0) (h : id.toNat % 4 ≠ 0 ∨ 0x70 ≤ id.toNat) :
    decodeReg id = none := by
  rw [decodeReg, if_neg h0]
  split
  · next h4 => exact Reg.ofIndex_of_le (by omega)
  · rfl

/-- The registers the lowered level may not write are those below RSA (R23). -/
theorem canWrite_eq_false {l : Bool} {r : Reg} : canWrite l r = false ↔ l = true ∧ r.offset < 0x20 := by
  rw [canWrite, Bool.or_eq_false_iff, Bool.not_eq_false', decide_eq_false_iff_not, Nat.not_le]
  exact Iff.rfl

theorem registersNamed_eq_false {i : Instr} {op : Operand} (hm : op ∈ i.operands) (hn : Operand.names op = false) :
    registersNamed i = false :=
  List.all_eq_false.mpr ⟨op, hm, by simp [hn]⟩

/-! ## What each check answers -/

theorem needReg_eq_ok {s : State} {op : Operand} {id : Byte} : needReg s op = .ok id ↔ op = .reg id := by
  cases op <;> simp [needReg]

theorem needLit_eq_ok {s : State} {op : Operand} {v : Word} : needLit s op = .ok v ↔ op = .lit v := by
  cases op <;> simp [needLit]

theorem destOf_eq_ok {s : State} {id : Byte} {r : Reg} :
    destOf s id = .ok r ↔ decodeReg id = some r ∧ canWrite s.lowered r = true := by
  rw [destOf_eq]
  split
  · next hd => simp [hd]
  · next q hd =>
    split
    · next hw =>
      rw [hd, Except.ok.injEq, Option.some.injEq]
      exact ⟨fun h => ⟨h, h ▸ hw⟩, fun h => h.1⟩
    · next hw =>
      rw [hd, Option.some.injEq]
      exact ⟨fun h => (raise_ne_ok _ _ _ h).elim, fun ⟨h, hr⟩ => absurd (h ▸ hr) hw⟩

/-! ## The faults of a rule -/

/-- The faults the rule of `i` can raise from `s`, each with the state it is raised in, in the order of R108's checks. -/
inductive RuleFault (i : Instr) (s : State) : FaultKind → State → Prop
  /-- an operand of a kind outside the table of R113 -/
  | operandKind (h : kindsAccepted i = false) : RuleFault i s .badOperandValue s
  /-- an id that names no register (R21) -/
  | register (h : registersNamed i = false) : RuleFault i s .badRegister s
  /-- an operation of R247's table at the lowered level -/
  | privilege (hl : s.lowered = true) (h : privilegeRefused i s = true) : RuleFault i s .noPrivilege s
  /-- an invalid mode register (R141, R151, R180) -/
  | mode : RuleFault i s .badRegisterValue s
  /-- an address that does not resolve, with nothing but the latches changed (R76, R62) -/
  | address {k : FaultKind} {t : State} (hk : k = .noPage ∨ k = .pagePermission ∨ k = .badMemory)
      (ht : SameButLatches s t) : RuleFault i s k t
  /-- a zero divisor (R159, R172) -/
  | divisor {k : FaultKind} (hk : k = .aluFault ∨ k = .fpuFault) : RuleFault i s k s
  /-- a vector that is not installed or cannot be (R196, R230) -/
  | vector : RuleFault i s .illegalInterrupt s
  /-- a storage transfer that fails, the host's answer used up (R202) -/
  | port : RuleFault i s .ioFault { s with storageErrors := s.storageErrors.tail }
  /-- a timer pool that is exhausted, at the elevated level, or a task switch that cannot be made (R205, R223) -/
  | machineCheck {t : State} (hi : i = .ltsk ∨ ∃ v, i = .intr (.lit v)) (hs : s.taskRegs = true ∨ s.lowered = false) :
      RuleFault i s .machineCheck t

/-- Each fault the operation raises is related by `P` to the state it is raised in. -/
structure RaisesOnly {α : Type} (P : FaultKind → State → Prop) (c : Check α) : Prop where
  fault : ∀ k t, c = .error (.raise k t) → P k t

namespace RaisesOnly

variable {α β : Type} {P : FaultKind → State → Prop}

theorem of_ok (a : α) : RaisesOnly P (.ok a : Check α) := ⟨nofun⟩

theorem raise {k : FaultKind} {s : State} (h : P k s) : RaisesOnly P (raise k s : Check α) := by
  refine ⟨fun k' t e => ?_⟩
  simp only [raise_eq_error, Trap.raise.injEq] at e
  obtain ⟨rfl, rfl⟩ := e
  exact h

/-- One operation after another: what the first answers is known to the second. -/
theorem bind {x : Check α} {f : α → Check β} (hx : RaisesOnly P x) (hf : ∀ a, x = .ok a → RaisesOnly P (f a)) :
    RaisesOnly P (x >>= f) := by
  refine ⟨fun k t h => ?_⟩
  rcases Check.bind_eq_error.mp h with h | ⟨a, ha, hfa⟩
  · exact hx.fault k t h
  · exact (hf a ha).fault k t hfa

end RaisesOnly

section Checks

variable {i : Instr} {s : State}

theorem needReg_ruleFault {op : Operand} (h : Operand.isReg op = false → kindsAccepted i = false) :
    RaisesOnly (RuleFault i s) (needReg s op) := by
  cases op with
  | reg id => exact .of_ok id
  | lit v => exact .raise (.operandKind (h rfl))

theorem needLit_ruleFault {op : Operand} (h : Operand.isReg op = true → kindsAccepted i = false) :
    RaisesOnly (RuleFault i s) (needLit s op) := by
  cases op with
  | reg id => exact .raise (.operandKind (h rfl))
  | lit v => exact .of_ok v

theorem regOf_ruleFault {id : Byte} (h : .reg id ∈ i.operands) : RaisesOnly (RuleFault i s) (regOf s id) := by
  unfold regOf
  split
  · exact .of_ok _
  · next hd => exact .raise (.register (registersNamed_eq_false h (by rw [Operand.names, hd]; rfl)))

theorem valueOf_ruleFault {op : Operand} (h : op ∈ i.operands) : RaisesOnly (RuleFault i s) (valueOf s op) := by
  cases hn : Operand.names op with
  | true => obtain ⟨v, hv⟩ := valueOf_of_names hn s; rw [hv]; exact .of_ok v
  | false => rw [valueOf_of_not_names hn]; exact .raise (.register (registersNamed_eq_false h hn))

theorem destOf_ruleFault {id : Byte} (h : .reg id ∈ i.operands)
    (hp : Operand.isControl (.reg id) = true → privilegeRefused i s = true) :
    RaisesOnly (RuleFault i s) (destOf s id) := by
  rw [destOf_eq]
  split
  · next hd => exact .raise (.register (registersNamed_eq_false h (by rw [Operand.names, hd]; rfl)))
  · next r hd =>
    split
    · exact .of_ok r
    · next hw =>
      obtain ⟨hl, hr⟩ := canWrite_eq_false.mp (Bool.eq_false_iff.mpr hw)
      exact .raise (.privilege hl (hp (by simp [Operand.isControl, hd, hr])))

theorem modeOf_ruleFault {α : Type} (m : Option α) : RaisesOnly (RuleFault i s) (modeOf s m) := by
  cases m with
  | none => exact .raise .mode
  | some x => exact .of_ok x

theorem translate_ruleFault (a : Word) (perm : BitVec 3) : RaisesOnly (RuleFault i s) (translate s a perm) :=
  ⟨fun _ _ h => .address (translate_error h).1 (translate_error h).2⟩

theorem dataAddr_ruleFault (a : Word) (perm : BitVec 3) : RaisesOnly (RuleFault i s) (dataAddr s a perm) :=
  ⟨fun _ _ h => .address (dataAddr_error h).1 (dataAddr_error h).2⟩

theorem arithmetic_ruleFault (m : ArithMode) (a d : Word) (rd : Reg) :
    RaisesOnly (RuleFault i s) (arithmetic m a d rd s) := by
  refine ⟨fun k t h => ?_⟩
  obtain ⟨rfl, hk⟩ := arithmetic_error h
  exact .divisor hk

theorem copyTo_ruleFault (v : Word) {op2 : Operand} (next : Word) (h : op2 ∈ i.operands)
    (hp : Operand.isControl op2 = true → privilegeRefused i s = true) :
    RaisesOnly (RuleFault i s) (copyTo v op2 next s) := by
  cases op2 with
  | reg id2 => exact .bind (destOf_ruleFault h hp) fun _ _ => .of_ok _
  | lit a => exact .bind (dataAddr_ruleFault ..) fun _ _ => .of_ok _

theorem storageRead_ruleFault (dev off len p : Nat) : RaisesOnly (RuleFault i s) (storageRead dev off len p s) := by
  unfold storageRead
  simp only
  split
  · exact .of_ok _
  · exact .raise .port

theorem storageWrite_ruleFault (dev off len p : Nat) : RaisesOnly (RuleFault i s) (storageWrite dev off len p s) := by
  unfold storageWrite
  simp only
  split
  · exact .of_ok _
  · exact .raise .port

theorem storageTransfer_ruleFault (write : Bool) (dev off len p : Nat) :
    RaisesOnly (RuleFault i s) (storageTransfer write dev off len p s) := by
  cases write with
  | false => exact storageRead_ruleFault ..
  | true => exact storageWrite_ruleFault ..

theorem storageIo_ruleFault (next : Word) : RaisesOnly (RuleFault i s) (storageIo next s) := by
  refine .bind (translate_ruleFault ..) fun p _ => .bind ⟨fun k t h => ?_⟩ fun _ _ =>
    .bind (storageTransfer_ruleFault ..) fun _ _ => .of_ok _
  simp only [ensure_eq_error, Trap.raise.injEq] at h
  obtain ⟨-, rfl, rfl⟩ := h
  exact .address (.inr (.inr rfl)) (.refl t)

theorem timerArm_error {id : Byte} {delay : Word} {k : FaultKind} {t : State}
    (h : timerArm id delay s = .error (.raise k t)) : k = .machineCheck := by
  unfold timerArm at h
  split at h
  · simp only [raise_eq_error, Trap.raise.injEq] at h
    exact h.1
  · cases h

end Checks

/-! ## The system instructions -/

/-- At the elevated level, which the inline vectors ask for (R195). -/
theorem inlineEffect_ruleFault {s : State} {v : Word} (hl : s.lowered = false) (f : InlineVector) (next : Word) :
    RaisesOnly (RuleFault (.intr (.lit v)) s) (inlineEffect f next s) := by
  have hdeliver (n : Nat) (c : Word) (u : State) : RaisesOnly (RuleFault (.intr (.lit v)) s) (deliver n c u) := by
    refine ⟨fun k t h => ?_⟩
    obtain rfl := deliver_error h
    exact .machineCheck (.inr ⟨v, rfl⟩) (.inr hl)
  cases f with
  | install =>
    simp only [inlineEffect, vectorInstall]
    split
    · exact .of_ok _
    · exact .raise .vector
  | halt => exact .of_ok _
  | keyboard =>
    simp only [inlineEffect, keyboardVector]
    split
    · exact .of_ok _
    · exact hdeliver ..
  | display => exact .of_ok _
  | storage => exact storageIo_ruleFault next
  | invalidate => exact .of_ok _
  | timerArm =>
    refine .bind ⟨fun k t h => ?_⟩ fun _ _ => .of_ok _
    obtain rfl := timerArm_error h
    exact .machineCheck (.inr ⟨v, rfl⟩) (.inr hl)
  | timerExpired =>
    simp only [inlineEffect, timerVector]
    split
    · exact .of_ok _
    · exact hdeliver ..

theorem dispatchVectored_ruleFault (v next : Word) (s : State) :
    RaisesOnly (RuleFault (.intr (.lit v)) s) (dispatchVectored v next s) := by
  unfold dispatchVectored
  split
  · exact .raise .vector
  · next hh =>
    split
    · next hp =>
      obtain ⟨hl, hpriv⟩ := Bool.and_eq_true_iff.mp hp
      refine .raise (.privilege hl ?_)
      show (inlineNumber v || ((s.slot v.toNat).handler != 0 && !(s.slot v.toNat).priv)) = true
      rw [hpriv, Bool.and_true, bne_iff_ne.mpr hh, Bool.or_true]
    · refine ⟨fun k t h => ?_⟩
      obtain ⟨rfl, htr, -⟩ := trapSwitch_error (enter_error h)
      rw [taskRegs_of_rst (State.get_set_ne s next (by decide))] at htr
      exact .machineCheck (.inr ⟨v, rfl⟩) (.inl htr)

theorem intrEffect_ruleFault (op1 : Operand) (s : State) : RaisesOnly (RuleFault (.intr op1) s) (intrEffect op1 s) := by
  refine .bind (needLit_ruleFault fun h => by simp [kindsAccepted, h]) fun v hv => ?_
  obtain rfl := needLit_eq_ok.mp hv
  split
  · next f hf =>
    have hn : inlineNumber v = true := by
      rw [← Bool.not_eq_false, ← inlineOf_eq_none, hf]
      exact nofun
    split
    · next hl =>
      exact .raise (.privilege hl (by simp only [privilegeRefused, Operand.isRefusedVector, hn, Bool.true_or]))
    · next hl => exact inlineEffect_ruleFault (Bool.eq_false_iff.mpr hl) f _
  · exact dispatchVectored_ruleFault ..

theorem trapReturn_error {s t : State} {k : FaultKind} (h : trapReturn s = .error (.raise k t)) : k = .machineCheck := by
  rw [trapReturn_eq_bind] at h
  rcases Check.bind_eq_error.mp h with h | ⟨u, -, h⟩
  · exact (saveBase_error h).1
  · exact (loadCurrent_error h).1

theorem ltskEffect_ruleFault (s : State) : RaisesOnly (RuleFault .ltsk s) (ltskEffect s) := by
  unfold ltskEffect
  split
  · next htr =>
    split
    · next hl => exact .raise (.privilege hl htr)
    · refine ⟨fun k t h => ?_⟩
      obtain rfl := trapReturn_error h
      exact .machineCheck (.inl rfl) (.inl htr)
  · exact .of_ok _

/-! ## Every instruction -/

theorem cpfEffect_ruleFault (op1 op2 : Operand) (s : State) :
    RaisesOnly (RuleFault (.cpf op1 op2) s) (cpfEffect op1 op2 s) := by
  refine .bind (valueOf_ruleFault (by simp [Instr.operands])) fun _ _ => ?_
  cases op2 with
  | reg id2 =>
    exact .bind (destOf_ruleFault (by simp [Instr.operands]) fun h => h) fun _ _ =>
      .bind (dataAddr_ruleFault ..) fun _ _ => .of_ok _
  | lit a2 => exact .bind (dataAddr_ruleFault ..) fun _ _ => .bind (dataAddr_ruleFault ..) fun _ _ => .of_ok _

theorem cpxEffect_ruleFault (op1 op2 : Operand) (s : State) :
    RaisesOnly (RuleFault (.cpx op1 op2) s) (cpxEffect op1 op2 s) := by
  refine .bind (needReg_ruleFault fun h => by simp [kindsAccepted, h]) fun id1 h1 =>
    .bind (needReg_ruleFault fun h => by simp [kindsAccepted, h]) fun id2 h2 => ?_
  obtain rfl := needReg_eq_ok.mp h1
  obtain rfl := needReg_eq_ok.mp h2
  exact .bind (regOf_ruleFault (by simp [Instr.operands])) fun _ _ =>
    .bind (regOf_ruleFault (by simp [Instr.operands])) fun _ _ => .bind (dataAddr_ruleFault ..) fun _ _ => .of_ok _

theorem cmpEffect_ruleFault (op1 op2 : Operand) (s : State) :
    RaisesOnly (RuleFault (.cmp op1 op2) s) (cmpEffect op1 op2 s) := by
  refine .bind (valueOf_ruleFault (by simp [Instr.operands])) fun _ _ =>
    .bind (valueOf_ruleFault (by simp [Instr.operands])) fun _ _ => ?_
  split
  · exact .raise .mode
  · exact .of_ok _

/-- Every fault an instruction's rule raises, with the condition it comes from and the state it is raised in (R108). -/
theorem effect_ruleFault (i : Instr) (s : State) : RaisesOnly (RuleFault i s) (effect i s) := by
  cases i with
  | cpr op1 op2 =>
    refine .bind (needReg_ruleFault fun h => h) fun id1 h1 => ?_
    obtain rfl := needReg_eq_ok.mp h1
    exact .bind (regOf_ruleFault (by simp [Instr.operands])) fun _ _ =>
      copyTo_ruleFault _ _ (by simp [Instr.operands]) fun h => h
  | cpl op1 op2 =>
    exact .bind (needLit_ruleFault fun h => by simp [kindsAccepted, h]) fun _ _ =>
      copyTo_ruleFault _ _ (by simp [Instr.operands]) fun h => h
  | cpf op1 op2 => exact cpfEffect_ruleFault ..
  | cpx op1 op2 => exact cpxEffect_ruleFault ..
  | cmp op1 op2 => exact cmpEffect_ruleFault ..
  | jmp op1 => exact .bind (valueOf_ruleFault (by simp [Instr.operands])) fun _ _ => .of_ok _
  | call op1 =>
    exact .bind (valueOf_ruleFault (by simp [Instr.operands])) fun _ _ => .bind (dataAddr_ruleFault ..) fun _ _ => .of_ok _
  | ret => exact .bind (dataAddr_ruleFault ..) fun _ _ => .of_ok _
  | arth op1 op2 =>
    refine .bind (needReg_ruleFault fun h => h) fun id2 h2 => ?_
    obtain rfl := needReg_eq_ok.mp h2
    exact .bind (valueOf_ruleFault (by simp [Instr.operands])) fun _ _ =>
      .bind (destOf_ruleFault (by simp [Instr.operands]) fun h => h) fun _ _ =>
        .bind (modeOf_ruleFault _) fun _ _ => .bind (arithmetic_ruleFault ..) fun _ _ => .of_ok _
  | lgic op1 op2 =>
    refine .bind (needReg_ruleFault fun h => h) fun id2 h2 => ?_
    obtain rfl := needReg_eq_ok.mp h2
    exact .bind (valueOf_ruleFault (by simp [Instr.operands])) fun _ _ =>
      .bind (destOf_ruleFault (by simp [Instr.operands]) fun h => h) fun _ _ =>
        .bind (modeOf_ruleFault _) fun _ _ => .of_ok _
  | intr op1 => exact intrEffect_ruleFault ..
  | rsv => exact .of_ok _
  | nop => exact .of_ok _
  | ltsk => exact ltskEffect_ruleFault s

end Sys2Proof.Machine
end

section
/-!
SUPPORT. Operand ids that name no register (R21): an instruction with one, its operand kinds accepted, raises BadRegister and no
other instruction does.
-/

namespace Sys2Proof.Machine

/-! ## A check that finds no register -/

section Checks

variable {α : Type} {s : State}

theorem decodeReg_of_not_names {id : Byte} (h : Operand.names (.reg id) = false) : decodeReg id = none :=
  Option.isNone_iff_eq_none.mp (Option.isSome_eq_false_iff.mp h)

theorem regOf_bind_badRegister {id : Byte} {f : Reg → Check α}
    (h : Operand.names (.reg id) = true → ∀ r, f r = raise .badRegister s) :
    (regOf s id >>= f) = raise .badRegister s := by
  cases hn : Operand.names (.reg id) with
  | true =>
    obtain ⟨r, hr⟩ := Option.isSome_iff_exists.mp hn
    rw [regOf_some hr, Check.bind_ok, h hn r]
  | false => rw [regOf_none (decodeReg_of_not_names hn), Check.bind_raise]

theorem valueOf_bind_badRegister {op : Operand} {f : Word → Check α}
    (h : Operand.names op = true → ∀ v, f v = raise .badRegister s) : (valueOf s op >>= f) = raise .badRegister s := by
  cases hn : Operand.names op with
  | true =>
    obtain ⟨v, hv⟩ := valueOf_of_names hn s
    rw [hv, Check.bind_ok, h hn v]
  | false => rw [valueOf_of_not_names hn, Check.bind_raise]

theorem destOf_bind_badRegister {id : Byte} (f : Reg → Check α) (h : Operand.names (.reg id) = false) :
    (destOf s id >>= f) = raise .badRegister s := by
  rw [destOf_eq, decodeReg_of_not_names h]
  rfl

theorem copyTo_badRegister {op2 : Operand} (v next : Word) (h : Operand.names op2 = false) :
    copyTo v op2 next s = raise .badRegister s := by
  cases op2 with
  | reg id2 => exact destOf_bind_badRegister _ h
  | lit a => cases h

end Checks

/-! ## Every instruction -/

/-- The second operand names no register where the first one does and the instruction is not wholly in order. -/
theorem names_right_eq_false {a b : Operand} (h : [a, b].all Operand.names = false) (ha : Operand.names a = true) :
    Operand.names b = false := by
  simpa [ha] using h

theorem names_eq_false {a : Operand} (h : [a].all Operand.names = false) : Operand.names a ≠ true := by
  simpa using h

/-- An id that names no register is BadRegister once the operand kinds are accepted, whichever operand it is (R21, R108). -/
theorem effect_badRegister {i : Instr} (s : State) (hk : kindsAccepted i = true) (h : registersNamed i = false) :
    effect i s = raise .badRegister s := by
  cases i with
  | cpr op1 op2 =>
    cases op1 with
    | lit v => cases hk
    | reg id1 => exact regOf_bind_badRegister fun h1 _ => copyTo_badRegister _ _ (names_right_eq_false h h1)
  | cpl op1 op2 =>
    cases op1 with
    | lit v => exact copyTo_badRegister _ _ (names_right_eq_false h rfl)
    | reg id1 => cases hk
  | cpf op1 op2 =>
    refine valueOf_bind_badRegister fun h1 _ => ?_
    cases op2 with
    | reg id2 => exact destOf_bind_badRegister _ (names_right_eq_false h h1)
    | lit a => cases names_right_eq_false h h1
  | cpx op1 op2 =>
    obtain ⟨hk1, hk2⟩ := Bool.and_eq_true_iff.mp hk
    cases op1 with
    | lit v => cases hk1
    | reg id1 =>
      cases op2 with
      | lit v => cases hk2
      | reg id2 =>
        exact regOf_bind_badRegister fun h1 _ => regOf_bind_badRegister fun h2 _ =>
          absurd h2 (Bool.eq_false_iff.mp (names_right_eq_false h h1))
  | cmp op1 op2 =>
    exact valueOf_bind_badRegister fun h1 _ => valueOf_bind_badRegister fun h2 _ =>
      absurd h2 (Bool.eq_false_iff.mp (names_right_eq_false h h1))
  | jmp op1 => exact valueOf_bind_badRegister fun h1 _ => absurd h1 (names_eq_false h)
  | call op1 => exact valueOf_bind_badRegister fun h1 _ => absurd h1 (names_eq_false h)
  | arth op1 op2 =>
    cases op2 with
    | lit v => cases hk
    | reg id2 =>
      exact valueOf_bind_badRegister fun h1 _ => destOf_bind_badRegister _ (names_right_eq_false h h1)
  | lgic op1 op2 =>
    cases op2 with
    | lit v => cases hk
    | reg id2 =>
      exact valueOf_bind_badRegister fun h1 _ => destOf_bind_badRegister _ (names_right_eq_false h h1)
  | intr op1 =>
    cases op1 with
    | lit v => cases h
    | reg id => cases hk
  | ret => cases h
  | rsv => cases h
  | nop => cases h
  | ltsk => cases h

/-- Settles O5: the ids by R20's layout, and BadRegister from what each rule checks and can raise. -/
theorem registerIdsExactly : Obligations.RegisterIdsExactly := by
  refine ⟨fun _ => decodeReg_of_valid, fun _ => decodeReg_of_invalid,
    fun i s hk hn => exec_of_raise (effect_badRegister s hk hn), fun i s t _ hn h => ?_⟩
  cases (effect_ruleFault i s).fault _ _ h with
  | register hbad => exact absurd (hn.symm.trans hbad) (by decide)
  | address hk _ => simp at hk
  | divisor hk => simp at hk

end Sys2Proof.Machine
end

section
/-!
SUPPORT. What an instruction leaves of the control state, the registers below RSA and what only the elevated level may change
(R23, R195, R247): at the lowered level with task registers off each rule is a sequence of writes outside it.
-/

namespace Sys2Proof.Machine

/-- The control registers but those in `rs`, the vector table, the storage devices, the display and the armed timers are the
same in both states. -/
structure ControlKept (rs : List Reg) (s t : State) : Prop where
  regs : ∀ r, r.offset < 0x20 → r ∉ rs → t.get r = s.get r
  ivt : t.ivt = s.ivt
  storage : t.storage = s.storage
  display : t.display = s.display
  armed : t.armed = s.armed

namespace ControlKept

variable {rs : List Reg} {s t u : State}

theorem refl (rs : List Reg) (s : State) : ControlKept rs s s := ⟨fun _ _ _ => rfl, rfl, rfl, rfl, rfl⟩

theorem trans (h1 : ControlKept rs s t) (h2 : ControlKept rs t u) : ControlKept rs s u where
  regs r hr hn := (h2.regs r hr hn).trans (h1.regs r hr hn)
  ivt := h2.ivt.trans h1.ivt
  storage := h2.storage.trans h1.storage
  display := h2.display.trans h1.display
  armed := h2.armed.trans h1.armed

theorem mono {rs' : List Reg} (h : ControlKept rs s t) (hsub : rs ⊆ rs') : ControlKept rs' s t :=
  { h with regs := fun r hr hn => h.regs r hr fun hm => hn (hsub hm) }

/-- A write to a register from RSA on, or to one of the list. -/
theorem then_set (h : ControlKept rs s t) {r : Reg} (hr : r ∈ rs ∨ 0x20 ≤ r.offset) (v : Word) :
    ControlKept rs s (t.set r v) where
  regs q hq hn := by
    have hne : q ≠ r := by
      rintro rfl
      rcases hr with hr | hr
      · exact hn hr
      · omega
    rw [State.get_set_ne t v hne, h.regs q hq hn]
  ivt := h.ivt
  storage := h.storage
  display := h.display
  armed := h.armed

theorem then_storeWord (h : ControlKept rs s t) (p : Nat) (v : Word) : ControlKept rs s (t.storeWord p v) :=
  h.trans ⟨fun _ _ _ => rfl, rfl, rfl, rfl, rfl⟩

theorem terminate (rs : List Reg) (s : State) (k : FaultKind) : ControlKept rs s (s.terminate k) :=
  ⟨fun _ _ _ => rfl, rfl, rfl, rfl, rfl⟩

theorem of_sameButLatches (h : SameButLatches s t) : ControlKept rs s t := by
  rw [h]; exact ⟨fun _ _ _ => rfl, rfl, rfl, rfl, rfl⟩

theorem taskRegs (h : ControlKept [] s t) : t.taskRegs = s.taskRegs :=
  taskRegs_of_rst (h.regs .rst (by decide) List.not_mem_nil)

end ControlKept

/-! ## Arithmetic writes no control register but its destination -/

section Arithmetic

variable {rs : List Reg} {s t : State} {rd : Reg}

theorem extReg_offset (n : Nat) : 0x20 ≤ (extReg n).offset := by
  unfold extReg
  split <;> decide

theorem floatReg_offset (n : Nat) : 0x20 ≤ (floatReg n).offset := by
  unfold floatReg
  split <;> decide

theorem ControlKept.then_setFlags (h : ControlKept rs s t) (o u : Bool) : ControlKept rs s (t.setFlags o u) :=
  h.then_set (.inr (by decide)) _

theorem aluOp_controlKept {m : ArithMode} {ty : IntShape} {a d : Word} (hrd : 0x20 ≤ rd.offset)
    (h : aluOp m ty a d rd s = .ok t) : ControlKept rs s t := by
  have hd : ∀ v, ControlKept rs s (s.set rd v) := (ControlKept.refl rs s).then_set (.inr hrd)
  have hdivide : ∀ op, aluDivide op ty a d rd s = .ok t → ControlKept rs s t := by
    intro op h
    unfold aluDivide at h
    split at h
    · exact (raise_ne_ok _ _ _ h).elim
    · cases h
      exact hd _
  unfold aluOp at h
  split at h
  · exact hdivide _ h
  · exact hdivide _ h
  · split at h
    · cases h
      exact ((hd _).then_set (.inr (extReg_offset _)) _).then_setFlags ..
    · cases h
      exact (hd _).then_setFlags ..

theorem fpuSingle_controlKept {op : ArithOp} {a d : Word} (hrd : 0x20 ≤ rd.offset)
    (h : fpuSingle op a d rd s = .ok t) : ControlKept rs s t := by
  unfold fpuSingle at h
  split at h
  · exact (raise_ne_ok _ _ _ h).elim
  · split at h
    · cases h
      exact (ControlKept.refl rs s).then_set (.inr hrd) _
    · cases h
      have hdraw : ControlKept rs s { s with draws := s.draws + 1 } := ⟨fun _ _ _ => rfl, rfl, rfl, rfl, rfl⟩
      exact hdraw.then_set (.inr hrd) _

theorem fpuDoubleOp_controlKept {op : ArithOp} {ext : Option Nat} {a d : Word} (hrd : 0x20 ≤ rd.offset)
    (h : fpuDoubleOp op ext a d rd s = .ok t) : ControlKept rs s t := by
  have hd : ∀ v, ControlKept rs s (s.set rd v) := (ControlKept.refl rs s).then_set (.inr hrd)
  unfold fpuDoubleOp at h
  split at h
  · exact (raise_ne_ok _ _ _ h).elim
  · simp only at h
    split at h
    · cases h
      exact hd _
    · cases h
      exact (hd _).then_set (.inr (floatReg_offset _)) _

theorem arithmetic_controlKept {m : ArithMode} {a d : Word} (hrd : 0x20 ≤ rd.offset)
    (h : arithmetic m a d rd s = .ok t) : ControlKept rs s t := by
  unfold arithmetic at h
  split at h
  · exact aluOp_controlKept hrd h
  · split at h
    · exact fpuSingle_controlKept hrd h
    · exact fpuDoubleOp_controlKept hrd h

end Arithmetic

/-! ## What a rule leaves at the lowered level -/

/-- The control registers a rule writes at the lowered level with task registers off: RIP, and RRA for `call` and `ret`
(R146, R147). -/
def ownControl : Instr → List Reg
  | .call _ | .ret => [.rip, .rra]
  | _ => [.rip]

theorem rip_mem_ownControl (i : Instr) : .rip ∈ ownControl i := by
  cases i <;> exact List.mem_cons_self

/-- Where the operation leaves a state, that state satisfies `P`. -/
structure Leaves (P : State → Prop) (c : Check State) : Prop where
  state : ∀ t, c = .ok t → P t

namespace Leaves

variable {α : Type} {P : State → Prop}

theorem of_ok {t : State} (h : P t) : Leaves P (.ok t) := ⟨fun _ e => by cases e; exact h⟩

theorem raise (k : FaultKind) (s : State) : Leaves P (raise k s) := ⟨fun _ e => (raise_ne_ok _ _ _ e).elim⟩

theorem bind {x : Check α} {f : α → Check State} (hf : ∀ a, x = .ok a → Leaves P (f a)) : Leaves P (x >>= f) := by
  refine ⟨fun t h => ?_⟩
  obtain ⟨a, ha, hfa⟩ := Check.bind_eq_ok.mp h
  exact (hf a ha).state t hfa

end Leaves

section Lowered

variable {s : State}

/-- A destination the lowered level may write is RSA or after it (R23). -/
theorem destOf_offset {id : Byte} {r : Reg} (hl : s.lowered = true) (h : destOf s id = .ok r) : 0x20 ≤ r.offset := by
  obtain ⟨-, hw⟩ := destOf_eq_ok.mp h
  by_contra hlt
  rw [canWrite_eq_false.mpr ⟨hl, by omega⟩] at hw
  cases hw

theorem ControlKept.set_rip (a : Word) : ControlKept [.rip] s (s.set .rip a) :=
  (ControlKept.refl _ s).then_set (.inl (by decide)) a

/-- A write to RSA or a later register, then to RIP. -/
theorem ControlKept.set_set_rip {r : Reg} (hr : 0x20 ≤ r.offset) (v a : Word) :
    ControlKept [.rip] s ((s.set r v).set .rip a) :=
  ((ControlKept.refl _ s).then_set (.inr hr) v).then_set (.inl (by decide)) a

theorem ControlKept.storeWord_set_rip (p : Nat) (v a : Word) : ControlKept [.rip] s ((s.storeWord p v).set .rip a) :=
  ((ControlKept.refl _ s).then_storeWord p v).then_set (.inl (by decide)) a

theorem copyTo_leaves (hl : s.lowered = true) (v : Word) (op2 : Operand) (next : Word) :
    Leaves (ControlKept [.rip] s) (copyTo v op2 next s) := by
  cases op2 with
  | reg id2 => exact .bind fun rb hb => .of_ok (.set_set_rip (destOf_offset hl hb) ..)
  | lit a => exact .bind fun p _ => .of_ok (.storeWord_set_rip ..)

theorem cpfEffect_leaves (hl : s.lowered = true) (op1 op2 : Operand) :
    Leaves (ControlKept [.rip] s) (cpfEffect op1 op2 s) := by
  refine .bind fun sa _ => ?_
  cases op2 with
  | reg id2 => exact .bind fun rb hb => .bind fun ps _ => .of_ok (.set_set_rip (destOf_offset hl hb) ..)
  | lit a2 => exact .bind fun ps _ => .bind fun pd _ => .of_ok (.storeWord_set_rip ..)

theorem cmpEffect_leaves (op1 op2 : Operand) : Leaves (ControlKept [.rip] s) (cmpEffect op1 op2 s) := by
  refine .bind fun a _ => .bind fun b _ => ?_
  split
  · exact .raise ..
  · exact .of_ok (.set_set_rip (by decide) ..)

theorem callEffect_leaves (op1 : Operand) : Leaves (ControlKept [.rip, .rra] s) (callEffect op1 s) :=
  .bind fun _ _ => .bind fun p _ => .of_ok
    ((((ControlKept.refl _ s).then_storeWord p _).then_set (.inl (by decide)) _).then_set (.inl (by decide)) _)

theorem retEffect_leaves : Leaves (ControlKept [.rip, .rra] s) (retEffect s) :=
  .bind fun _ _ => .of_ok (((ControlKept.refl _ s).then_set (.inl (by decide)) _).then_set (.inl (by decide)) _)

theorem arthEffect_leaves (hl : s.lowered = true) (op1 op2 : Operand) :
    Leaves (ControlKept [.rip] s) (arthEffect op1 op2 s) :=
  .bind fun _ _ => .bind fun _ _ => .bind fun _ hd => .bind fun _ _ => .bind fun _ ht =>
    .of_ok ((arithmetic_controlKept (destOf_offset hl hd) ht).then_set (.inl (by decide)) _)

/-- An inline vector is refused; any other is a bare jump (R195, R233). -/
theorem intrEffect_leaves (hl : s.lowered = true) (ht : s.taskRegs = false) (op1 : Operand) :
    Leaves (ControlKept [.rip] s) (intrEffect op1 s) := by
  refine .bind fun v _ => ?_
  split
  · rw [if_pos hl]
    exact .raise ..
  · unfold dispatchVectored
    split
    · exact .raise ..
    · split
      · exact .raise ..
      · rw [enter_taskRegs_off ((taskRegs_of_rst (State.get_set_ne s _ (by decide))).trans ht)]
        exact .of_ok ((ControlKept.set_rip _).then_set (.inl (by decide)) _)

theorem effect_leaves (hl : s.lowered = true) (ht : s.taskRegs = false) (i : Instr) :
    Leaves (ControlKept (ownControl i) s) (effect i s) := by
  cases i with
  | cpr op1 op2 => exact .bind fun _ _ => .bind fun _ _ => copyTo_leaves hl ..
  | cpl op1 op2 => exact .bind fun _ _ => copyTo_leaves hl ..
  | cpf op1 op2 => exact cpfEffect_leaves hl ..
  | cpx op1 op2 =>
    exact .bind fun _ _ => .bind fun _ _ => .bind fun _ _ => .bind fun _ _ => .bind fun _ _ =>
      .of_ok (.storeWord_set_rip ..)
  | cmp op1 op2 => exact cmpEffect_leaves ..
  | jmp op1 => exact .bind fun _ _ => .of_ok (.set_rip _)
  | call op1 => exact callEffect_leaves op1
  | ret => exact retEffect_leaves
  | arth op1 op2 => exact arthEffect_leaves hl ..
  | lgic op1 op2 =>
    exact .bind fun _ _ => .bind fun _ _ => .bind fun _ hd => .bind fun _ _ =>
      .of_ok (.set_set_rip (destOf_offset hl hd) ..)
  | intr op1 => exact intrEffect_leaves hl ht op1
  | rsv => exact .of_ok (.set_rip _)
  | nop => exact .of_ok (.set_rip _)
  | ltsk =>
    show Leaves _ (ltskEffect s)
    rw [ltskEffect, ht, if_neg Bool.false_ne_true]
    exact .of_ok (.set_rip _)

/-! ## The fault of an instruction at the lowered level -/

/-- A fault is raised before any control state is written, and is no MachineCheck (R108, R221). -/
theorem RuleFault.controlKept {i : Instr} {k : FaultKind} {t : State} (h : RuleFault i s k t) (hl : s.lowered = true)
    (ht : s.taskRegs = false) : k ≠ .machineCheck ∧ ControlKept [] s t := by
  cases h with
  | operandKind _ => exact ⟨nofun, .refl ..⟩
  | register _ => exact ⟨nofun, .refl ..⟩
  | privilege _ _ => exact ⟨nofun, .refl ..⟩
  | mode => exact ⟨nofun, .refl ..⟩
  | address hk hs => exact ⟨by rintro rfl; simp at hk, .of_sameButLatches hs⟩
  | divisor hk => exact ⟨by rintro rfl; simp at hk, .refl ..⟩
  | vector => exact ⟨nofun, .refl ..⟩
  | port => exact ⟨nofun, fun _ _ _ => rfl, rfl, rfl, rfl, rfl⟩
  | machineCheck _ hs => simp [hl, ht] at hs

theorem redirect_controlKept (k : FaultKind) (s : State) : ControlKept [.rip] s (redirect k s) := by
  unfold redirect
  split
  · exact .set_rip _
  · exact .terminate ..

/-- Taking a fault with task registers off writes RFF and RIP of the control state (R222). -/
theorem takeFault_controlKept {k : FaultKind} {t : State} (hk : k ≠ .machineCheck) (hs : s.taskRegs = false)
    (h : takeFault k s = .next t) : ControlKept [.rip, .rff] s t := by
  rw [takeFault_taskRegs_off hk hs] at h
  cases h
  have hflag : ControlKept [.rip, .rff] s (s.flagFault k) := (ControlKept.refl _ s).then_set (.inl (by decide)) _
  exact hflag.trans ((redirect_controlKept k _).mono (by decide))

/-- An answer with a next state is a rule that completes, or a fault taken. -/
theorem settle_next {c : Check State} {t : State} (h : settle c = .next t) :
    c = .ok t ∨ ∃ k u, c = .error (.raise k u) ∧ takeFault k u = .next t := by
  match c with
  | .ok u => cases h; exact .inl rfl
  | .error (.raise k u) => exact .inr ⟨k, u, rfl, h⟩
  | .error .hang => cases h

theorem exec_controlKept {i : Instr} {t : State} (hl : s.lowered = true) (ht : s.taskRegs = false)
    (h : exec i s = .next t) : ControlKept (.rff :: ownControl i) s t := by
  rw [exec_eq_settle_effect] at h
  rcases settle_next h with h | ⟨k, u, h, hfault⟩
  · exact ((effect_leaves hl ht i).state t h).mono (List.subset_cons_self ..)
  · obtain ⟨hk, hu⟩ := ((effect_ruleFault i s).fault k u h).controlKept hl ht
    have hown : [Reg.rip, .rff] ⊆ .rff :: ownControl i := by simp [rip_mem_ownControl i]
    exact (hu.mono (List.nil_subset _)).trans ((takeFault_controlKept hk (hu.taskRegs.trans ht) hfault).mono hown)

end Lowered

theorem not_mem_ownControl {i : Instr} {r : Reg} (h : r ≠ .rip) (hrra : r = .rra → (∀ op, i ≠ .call op) ∧ i ≠ .ret) :
    r ∉ ownControl i := by
  have hbut : r = .rra → ownControl i = [.rip] := by
    intro hr
    obtain ⟨hcall, hret⟩ := hrra hr
    cases i with
    | call op => exact absurd rfl (hcall op)
    | ret => exact absurd rfl hret
    | _ => rfl
  intro hm
  by_cases hr : r = .rra
  · rw [hbut hr] at hm
    simp [h] at hm
  · cases i <;> simp [ownControl, h, hr] at hm

/-- Settles O57: what a rule leaves, and what a fault of it raises and its taking leaves, at the lowered level. -/
theorem loweredLevelIsConfined : Obligations.LoweredLevelIsConfined := by
  intro i s t hl ht h
  have hkept := exec_controlKept hl ht h
  refine ⟨fun r hr hrip hrff hrra => hkept.regs r hr ?_, hkept.ivt, hkept.storage, hkept.display, hkept.armed⟩
  simp only [List.mem_cons, not_or]
  exact ⟨hrff, not_mem_ownControl hrip hrra⟩

end Sys2Proof.Machine
end

section
/-!
SUPPORT. Taking a fault (R221 to R223): what setting a fault's bit, the redirection and a MachineCheck leave, and the statements
about faults with task registers off and on.
-/

namespace Sys2Proof.Machine

/-! ## The fault's bit, the handler, termination -/

section

variable (k : FaultKind) (s : State)

@[simp] theorem State.flagFault_rff : (s.flagFault k).get .rff = s.get .rff ||| rffMask k := by
  rw [State.flagFault, State.get_set_same, rffMask_eq]

@[simp] theorem State.flagFault_get_ne {r : Reg} (h : r ≠ .rff) : (s.flagFault k).get r = s.get r :=
  State.get_set_ne s _ h

@[simp] theorem State.flagFault_faultHandling : (s.flagFault k).faultHandling = s.faultHandling := by
  simp [State.faultHandling]

@[simp] theorem State.flagFault_mem : (s.flagFault k).mem = s.mem := rfl

@[simp] theorem State.flagFault_run : (s.flagFault k).run = s.run := rfl

theorem redirect_handled {s : State} (h : s.faultHandling = true) : redirect k s = s.set .rip (s.get .rfa) := if_pos h

theorem redirect_unhandled {s : State} (h : s.faultHandling = false) : redirect k s = s.terminate k :=
  if_neg (Bool.eq_false_iff.mp h)

theorem redirect_get_ne {r : Reg} (h : r ≠ .rip) : (redirect k s).get r = s.get r := by
  cases hf : s.faultHandling with
  | true => rw [redirect_handled k hf, State.get_set_ne _ _ h]
  | false => rw [redirect_unhandled k hf, State.terminate_get]

theorem redirect_rip : (redirect k s).get .rip = if s.faultHandling then s.get .rfa else s.get .rip := by
  cases hf : s.faultHandling with
  | true => rw [redirect_handled k hf, State.get_set_same, if_pos rfl]
  | false => rw [redirect_unhandled k hf, State.terminate_get, if_neg Bool.false_ne_true]

theorem redirect_run : (redirect k s).run = if s.faultHandling then s.run else .terminated k := by
  cases hf : s.faultHandling with
  | true => rw [redirect_handled k hf, State.set_run, if_pos rfl]
  | false => rw [redirect_unhandled k hf, State.terminate_run, if_neg Bool.false_ne_true]

/-- The redirection changes registers and RUN alone (R222). -/
theorem redirect_eq : redirect k s = { s with regs := (redirect k s).regs, run := (redirect k s).run } := by
  unfold redirect
  split <;> rfl

/-- The registers but RFF and RIP are the switched context's (R222). -/
theorem redirect_flagFault_get {r : Reg} (hrff : r ≠ .rff) (hrip : r ≠ .rip) :
    (redirect k (s.flagFault k)).get r = s.get r := by
  rw [redirect_get_ne _ _ hrip, State.flagFault_get_ne _ _ hrff]

theorem redirect_flagFault_mem : (redirect k (s.flagFault k)).mem = s.mem := by rw [redirect_eq, State.flagFault_mem]

/-- Taking a fault changes registers and RUN alone, once the tasks are switched (R222). -/
theorem redirect_flagFault_eq :
    redirect k (s.flagFault k) =
      { s with regs := (redirect k (s.flagFault k)).regs, run := (redirect k (s.flagFault k)).run } :=
  redirect_eq k (s.flagFault k)

theorem redirect_flagFault_rff : (redirect k (s.flagFault k)).get .rff = s.get .rff ||| rffMask k := by
  rw [redirect_get_ne _ _ (by decide), State.flagFault_rff]

end

/-- Settles O46: the fault's bit and the redirection, with no task switch before them. -/
theorem faultWithoutTaskRegisters : Obligations.FaultWithoutTaskRegisters := by
  intro s k hk ht
  refine ⟨_, takeFault_taskRegs_off hk ht, redirect_flagFault_rff k s, fun q hq => ?_,
    byteAt_of_mem (redirect_flagFault_mem k s), fun hf => ?_, fun hf => ?_⟩
  · simp only [List.mem_cons, List.not_mem_nil, or_false, not_or] at hq
    exact redirect_flagFault_get k s hq.1 hq.2
  · rw [redirect_handled k (by rw [State.flagFault_faultHandling, hf])]
    exact ⟨by simp, rfl⟩
  · rw [redirect_unhandled k (by rw [State.flagFault_faultHandling, hf])]
    exact ⟨by simp, rfl⟩

/-! ## The task switch of a fault -/

/-- The context after the task switch of a trap entered in `u`, both task pointers in order: that of `u` saved at `p`, the
base task's 9 registers loaded from `q` (R241, R243). -/
def switched (u : State) (p q : Nat) : State := loadRegs Reg.baseSet q (saveRegs Reg.all p u)

/-- A base task's load touches neither RFF nor RIP (R14, R242). -/
theorem ne_of_mem_baseSet {r : Reg} (h : r ∈ Reg.baseSet) : r ≠ .rff ∧ r ≠ .rip := by
  constructor <;> (rintro rfl; exact absurd h (by decide))

section Switched

variable (u : State) (p q : Nat)

theorem switched_get_base {r : Reg} (h : r ∈ Reg.baseSet) : (switched u p q).get r = baseWord u p q r := by
  rw [switched, loadRegs_get, if_pos h, baseWord]

theorem switched_get_other {r : Reg} (h : r ∉ Reg.baseSet) : (switched u p q).get r = u.get r := by
  rw [switched, loadRegs_get, if_neg h, saveRegs_get]

theorem switched_savedAt : SavedAt u (switched u p q) p :=
  (SavedAt.saveRegs u p).of_mem (loadRegs_mem ..)

theorem switched_sameElse : SameElse u (switched u p q) := (SameElse.saveRegs ..).trans (SameElse.loadRegs ..)

theorem switched_faultHandling : (switched u p q).faultHandling = (baseWord u p q .rst).getLsbD 2 := by
  rw [State.faultHandling, switched_get_base u p q (by decide)]

variable {u p q}

theorem trapSwitch_switched (ht : u.taskRegs = true) (hp : taskAddr u (u.get .rct) = .ok p)
    (hq : taskAddr (saveRegs Reg.all p u) (u.get .rbt) = .ok q) (hb : (baseWord u p q .rst).getLsbD 0 = false) :
    trapSwitch u = .ok (switched u p q) := by
  have hl : (switched u p q).lowered = false := by rw [State.lowered, switched_get_base u p q (by decide), hb]
  rw [trapSwitch_on ht hp hq]
  exact if_neg (Bool.eq_false_iff.mp hl)

end Switched

/-- Settles O47: the fault's bit and the redirection, in the context the task switch has left. -/
theorem faultSwitchesTasks : Obligations.FaultSwitchesTasks := by
  intro s k p q hk ht hp hq hb
  refine ⟨_, takeFault_of_switch hk (trapSwitch_switched ht hp hq hb),
    (switched_savedAt s p q).of_mem (redirect_flagFault_mem k _), fun r hr => ?_, ?_, fun r hr => ?_, ?_, ?_, ?_⟩
  · obtain ⟨hrff, hrip⟩ := ne_of_mem_baseSet hr
    rw [redirect_flagFault_get k _ hrff hrip, switched_get_base s p q hr]
  · rw [redirect_flagFault_rff, switched_get_other s p q (by decide)]
  · simp only [List.mem_cons, not_or] at hr
    obtain ⟨hrip, hrff, hbase⟩ := hr
    rw [redirect_flagFault_get k _ hrff hrip, switched_get_other s p q hbase]
  · rw [redirect_rip, State.flagFault_faultHandling, switched_faultHandling, State.flagFault_get_ne _ _ (by decide),
      State.flagFault_get_ne _ _ (by decide), switched_get_base s p q (by decide), switched_get_other s p q (by decide)]
  · have hrun : (switched s p q).run = s.run := by rw [switched_sameElse s p q]
    rw [redirect_run, State.flagFault_faultHandling, switched_faultHandling, State.flagFault_run, hrun]
  · rw [redirect_flagFault_mem]
    exact (redirect_flagFault_eq k (switched s p q)).trans (by rw [switched_sameElse s p q])

/-! ## MachineCheck -/

/-- Settles O48: MachineCheck looks at nothing, and a task switch that fails ends in it. -/
theorem machineCheckTerminates : Obligations.MachineCheckTerminates := by
  refine ⟨fun s => ?_, fun s k hk ht => .of_trapSwitch ht fun j t h => takeFault_of_failure hk h⟩
  refine ⟨_, takeFault_machineCheck s, ?_, fun q hq => machineCheck_get (by simpa using hq),
    byteAt_of_mem (machineCheck_mem s), rfl⟩
  exact State.flagFault_rff .machineCheck s

end Sys2Proof.Machine
end

section
/-!
SUPPORT. Machine start and the boot image (R47, R271): what the state holds before the first step, and the instruction that step
fetches.
-/

namespace Sys2Proof

/-! ## The decoder undoes the encoder -/

/-- The bytes of the literal words of an instruction, in memory order (R104). -/
def literalBytes (ops : List Operand) : List Byte := (ops.flatMap operandLiterals).flatMap wordBytes

theorem encodeBytes_eq (i : Instr) : encodeBytes i = wordBytes (instrWord i) ++ literalBytes i.operands := rfl

theorem encodeBytes_length (i : Instr) : (encodeBytes i).length = i.size.toNat := by
  rw [encodeBytes, flatMap_wordBytes_length]
  exact Laws.EncodedSize.statement_of_operands i

@[simp] theorem opcodeField_instrWord (i : Instr) : opcodeField (instrWord i) = opcodeOf i := opcodeField_joinBytes ..

@[simp] theorem id1Field_instrWord (i : Instr) : id1Field (instrWord i) = idAt i.operands 0 := id1Field_joinBytes ..

@[simp] theorem id2Field_instrWord (i : Instr) : id2Field (instrWord i) = idAt i.operands 1 := id2Field_joinBytes ..

/-- A one-operand instruction's operand is taken back. -/
theorem takeOne_encoded (mk : Operand → Instr) {iw : Word} {a : Operand} (rest : List Byte)
    (h1 : id1Field iw = operandId a) (hw : [a].all Operand.wellFormed = true) :
    takeOne mk iw (literalBytes [a] ++ rest) = .ok (mk a, rest) := by
  have ha : a.wellFormed = true := by simpa using hw
  have hbytes : literalBytes [a] ++ rest = (operandLiterals a).flatMap wordBytes ++ rest := by simp [literalBytes]
  rw [hbytes, takeOne, h1, takeOperand_encoded a rest ha]

/-- A two-operand instruction's operands are taken back, operand 1's literal first (R104). -/
theorem takeTwo_encoded (mk : Operand → Operand → Instr) {iw : Word} {a b : Operand} (rest : List Byte)
    (h1 : id1Field iw = operandId a) (h2 : id2Field iw = operandId b) (hw : [a, b].all Operand.wellFormed = true) :
    takeTwo mk iw (literalBytes [a, b] ++ rest) = .ok (mk a b, rest) := by
  obtain ⟨ha, hb⟩ : a.wellFormed = true ∧ b.wellFormed = true := by simpa using hw
  have hbytes : literalBytes [a, b] ++ rest =
      (operandLiterals a).flatMap wordBytes ++ ((operandLiterals b).flatMap wordBytes ++ rest) := by simp [literalBytes]
  rw [hbytes, takeTwo, h1, takeOperand_encoded a _ ha]
  simp only
  rw [h2, takeOperand_encoded b rest hb]

theorem decodeWord_encoded {i : Instr} (rest : List Byte) (hw : i.wellFormed = true) :
    decodeWord (instrWord i) (literalBytes i.operands ++ rest) = .ok (i, rest) := by
  have h1 := id1Field_instrWord i
  have h2 := id2Field_instrWord i
  rw [decodeWord, opcodeField_instrWord]
  cases i with
  | cpr a b => exact takeTwo_encoded .cpr rest h1 h2 hw
  | cpl a b => exact takeTwo_encoded .cpl rest h1 h2 hw
  | cpf a b => exact takeTwo_encoded .cpf rest h1 h2 hw
  | cpx a b => exact takeTwo_encoded .cpx rest h1 h2 hw
  | cmp a b => exact takeTwo_encoded .cmp rest h1 h2 hw
  | jmp a => exact takeOne_encoded .jmp rest h1 hw
  | call a => exact takeOne_encoded .call rest h1 hw
  | ret => rfl
  | arth a b => exact takeTwo_encoded .arth rest h1 h2 hw
  | lgic a b => exact takeTwo_encoded .lgic rest h1 h2 hw
  | intr a => exact takeOne_encoded .intr rest h1 hw
  | rsv => rfl
  | nop => rfl
  | ltsk => rfl

theorem decode_encodeBytes {i : Instr} (rest : List Byte) (hw : i.wellFormed = true) :
    decode (encodeBytes i ++ rest) = .ok (i, rest) := by
  rw [encodeBytes_eq, List.append_assoc, decode, takeWord_wordBytes]
  exact decodeWord_encoded rest hw

namespace Machine

/-! ## Machine start -/

/-- The registers after machine start: RIP at the boot base, the others 0 (R47). -/
theorem resetWith_get (c : Config) (r : Reg) :
    (State.resetWith c).get r = if r = .rip then BitVec.ofNat 32 c.bootBase else 0 := by
  have hset : State.resetWith c =
      ({ State.resetWith c with regs := Vector.replicate 28 0 } : State).set .rip (BitVec.ofNat 32 c.bootBase) := rfl
  rw [hset, State.get_set, State.get, Vector.get_eq_getElem, Vector.getElem_replicate]

theorem resetWith_paging (c : Config) : (State.resetWith c).paging = false := by
  rw [State.paging, resetWith_get, if_neg (by decide)]
  rfl

/-! ## The boot image -/

section Image

variable {c : Config} (image : Vector Byte c.bootSize)

theorem start_get (r : Reg) : (State.start c image).get r = (State.resetWith c).get r := rfl

theorem start_byteAt {k : Nat} (h : k < c.bootSize) : (State.start c image).byteAt (c.bootBase + k) = image[k] := by
  rw [State.byteAt, State.start_find, if_pos (by omega)]
  simp [h]

theorem start_find_outside {a : Nat} (h : a < c.bootBase ∨ c.bootBase + c.bootSize ≤ a) :
    (State.start c image).mem.find a = none := by
  rw [State.start_find, if_neg (by omega)]

/-- The first bytes at the boot base are those the image begins with (R271). -/
theorem start_bytesAt {bytes rest : List Byte} (h : image.toList = bytes ++ rest) :
    (State.start c image).bytesAt c.bootBase bytes.length = bytes := by
  have hlen : bytes.length + rest.length = c.bootSize := by
    rw [← List.length_append, ← h, Vector.length_toList]
  refine List.ext_getElem (State.bytesAt_length ..) fun k _ hk => ?_
  have hkey : image[k]'(by omega) = bytes[k] := by
    rw [← Vector.getElem_toList (by rw [Vector.length_toList]; omega)]
    simp only [h, List.getElem_append_left hk]
  simp only [State.bytesAt, List.getElem_map, List.getElem_range]
  rw [start_byteAt image (by omega), hkey]

/-- The first fetch finds the instruction the image begins with (R100, R271). -/
theorem start_fetch {i : Instr} {rest : List Byte} (hc : c.legal) (hw : i.wellFormed = true)
    (h : image.toList = encodeBytes i ++ rest) : fetch (State.start c image) = .ok i := by
  obtain ⟨hbase, hend, hram, -⟩ := hc
  have hsize : i.size.toNat + rest.length = c.bootSize := by
    rw [← encodeBytes_length, ← List.length_append, ← h, Vector.length_toList]
  have hpos : 4 ≤ i.size.toNat := by rw [Instr.size_toNat]; omega
  have hrip : (BitVec.ofNat 32 c.bootBase).toNat = c.bootBase := Nat.mod_eq_of_lt (by omega)
  have hbytes : (State.start c image).bytesAt c.bootBase i.size.toNat = encodeBytes i := by
    rw [← encodeBytes_length, start_bytesAt image h]
  refine fetch_ok (p := BitVec.ofNat 32 c.bootBase) ?_ ?_ ?_
  · rw [start_get, resetWith_get, if_pos rfl]
    exact translate_paging_off (s := State.start c image) (resetWith_paging c) ..
  · rw [hrip]
    exact (inZone_iff ..).mpr ⟨hbase, Nat.le_trans (by omega) hend⟩
  · rw [hrip, hbytes]
    simpa using decode_encodeBytes [] hw

end Image

/-- Settles O7: machine start field by field, and the boot image stored over it. -/
theorem resetState : Obligations.ResetState := by
  refine ⟨fun c => ⟨?_, fun r hr => ?_, resetWith_slot c, rfl, rfl, rfl, rfl, rfl, rfl, rfl⟩, fun c image =>
    ⟨fun k hk => start_byteAt image hk, fun a ha => start_find_outside image ha, State.start_eq c image,
      fun i rest hc hw h => fetchAndExecute_of_fetch (start_fetch image hc hw h)⟩⟩
  · rw [resetWith_get, if_pos rfl]
  · rw [resetWith_get, if_neg hr]

end Machine

end Sys2Proof
end

section
/-!
SUPPORT. The mode registers RARTH and RLGIC (R34, R35, R151, R180): each field as a number, which numbers are invalid, and what
a valid one selects.
-/

namespace Sys2Proof.Machine

/-! ## The fields of RARTH -/

theorem extractLsb'_toNat_eq (m : Word) (a n : Nat) : (m.extractLsb' a n).toNat = m.toNat / 2 ^ a % 2 ^ n := by
  rw [BitVec.extractLsb'_toNat, Nat.shiftRight_eq_div_pow]

section Rarth

variable {m : Word}

theorem operOf_eq_none : operOf m = none ↔ m.toNat % 8 = 0 ∨ 5 < m.toNat % 8 := by
  have hfield : (m.extractLsb' 0 3).toNat = m.toNat % 8 := by rw [extractLsb'_toNat_eq]; simp
  unfold operOf
  rw [hfield]
  split <;> simp_all
  omega

theorem operOf_eq_some {op : ArithOp} : operOf m = some op ↔
    (m.toNat % 8, op) ∈ [(1, ArithOp.add), (2, .sub), (3, .mul), (4, .div), (5, .mod)] := by
  have hfield : (m.extractLsb' 0 3).toNat = m.toNat % 8 := by rw [extractLsb'_toNat_eq]; simp
  unfold operOf
  rw [hfield]
  split <;> simp_all [eq_comm (b := op)]

theorem extOf_eq_none : extOf m = none ↔ m.toNat / 256 % 16 ∉ [0, 1, 2, 4, 8] := by
  have hfield : (m.extractLsb' 8 4).toNat = m.toNat / 256 % 16 := extractLsb'_toNat_eq ..
  unfold extOf
  rw [hfield]
  split <;> simp_all

theorem extOf_eq_some {ext : Option Nat} : extOf m = some ext ↔
    (m.toNat / 256 % 16, ext) ∈ [(0, none), (1, some 1), (2, some 2), (4, some 3), (8, some 4)] := by
  have hfield : (m.extractLsb' 8 4).toNat = m.toNat / 256 % 16 := extractLsb'_toNat_eq ..
  unfold extOf
  rw [hfield]
  split <;> simp_all [eq_comm (b := ext)]

theorem widthOf_bits (f : BitVec 2) : (widthOf f).bits = 8 * 2 ^ f.toNat := by
  revert f
  decide

/-- FLOAT and LONG clear: an integer type of the selected width and signedness (R152). -/
theorem typeOf_int (h7 : m.getLsbD 7 = false) (h6 : m.getLsbD 6 = false) :
    typeOf m = some (.int (widthOf (m.extractLsb' 3 2)) (m.getLsbD 5)) := by
  simp only [typeOf, h7, h6, Bool.false_eq_true, if_false]

/-- LONG set and FLOAT clear: `slong` or `ulong`, whatever WIDTH is (R152, R162). -/
theorem typeOf_long (h7 : m.getLsbD 7 = false) (h6 : m.getLsbD 6 = true) :
    typeOf m = some (if m.getLsbD 5 then .slong else .ulong) := by
  simp only [typeOf, h7, h6, Bool.false_eq_true, if_false, if_true]

/-- FLOAT set: `f32` or `f64` by WIDTH, and none with LONG or a width below 32 bits (R151). -/
theorem typeOf_float (h7 : m.getLsbD 7 = true) :
    typeOf m = if m.getLsbD 6 = true ∨ m.toNat / 8 % 4 < 2 then none
      else some (if m.toNat / 8 % 4 = 2 then .f32 else .f64) := by
  have hfield : (m.extractLsb' 3 2).toNat = m.toNat / 8 % 4 := extractLsb'_toNat_eq ..
  simp only [typeOf, widthOf, h7, hfield, if_true]
  by_cases h6 : m.getLsbD 6 = true
  · simp [h6]
  · have hlt : m.toNat / 8 % 4 < 4 := Nat.mod_lt _ (by decide)
    simp only [h6]
    interval_cases m.toNat / 8 % 4 <;> rfl

theorem typeOf_eq_none : typeOf m = none ↔ m.getLsbD 7 = true ∧ (m.getLsbD 6 = true ∨ m.toNat / 8 % 4 < 2) := by
  cases h7 : m.getLsbD 7 with
  | true => rw [typeOf_float h7, ite_eq_left_iff]; simp only [true_and, reduceCtorEq, imp_false, not_not]
  | false =>
    cases h6 : m.getLsbD 6 with
    | true => rw [typeOf_long h7 h6]; simp
    | false => rw [typeOf_int h7 h6]; simp

theorem typeOf_isFloat {ty : ArithType} (h : typeOf m = some ty) : ty.isFloat = m.getLsbD 7 := by
  cases h7 : m.getLsbD 7 with
  | true =>
    rw [typeOf_float h7] at h
    split at h
    · cases h
    · cases h
      split <;> rfl
  | false =>
    cases h6 : m.getLsbD 6 with
    | true =>
      rw [typeOf_long h7 h6] at h
      cases h
      split <;> rfl
    | false =>
      rw [typeOf_int h7 h6] at h
      cases h
      rfl

/-! ## RARTH as a whole -/

theorem arithMode_eq_some {md : ArithMode} : arithMode m = some md ↔
    operOf m = some md.op ∧ extOf m = some md.ext ∧ typeOf m = some md.type ∧
      (md.type.isFloat && md.op == .mod) = false := by
  unfold arithMode
  split
  · next op ext type ho he ht =>
    simp only [ho, he, ht, Option.some.injEq]
    constructor
    · intro h
      split at h
      · cases h
      · next hf =>
        cases h
        exact ⟨rfl, rfl, rfl, Bool.eq_false_iff.mpr hf⟩
    · rintro ⟨rfl, rfl, rfl, hf⟩
      rw [hf, if_neg Bool.false_ne_true]
  · next hnone =>
    refine ⟨nofun, fun ⟨ho, he, ht, _⟩ => (hnone _ _ _ ho he ht).elim⟩

theorem arithMode_eq_none : arithMode m = none ↔
    operOf m = none ∨ extOf m = none ∨ typeOf m = none ∨ (m.getLsbD 7 = true ∧ operOf m = some .mod) := by
  cases ho : operOf m with
  | none => simp [arithMode, ho]
  | some op =>
    cases he : extOf m with
    | none => simp [arithMode, ho, he]
    | some ext =>
      cases ht : typeOf m with
      | none => simp [arithMode, ho, he, ht]
      | some ty => simp [arithMode, ho, he, ht, typeOf_isFloat ht]

end Rarth

/-! ## RLGIC -/

section Rlgic

variable {g : Word}

theorem otherOf_field (g : Word) : (g.extractLsb' 1 7).toNat = g.toNat % 256 / 2 := by
  rw [extractLsb'_toNat_eq]
  omega

theorem otherOf_eq_none : otherOf g = none ↔ g.toNat % 256 / 2 ∉ [0, 1, 2, 4, 8, 16, 32, 64] := by
  unfold otherOf
  rw [otherOf_field]
  split <;> simp_all

theorem otherOf_eq_some {op : Option LogicOp} : otherOf g = some op ↔
    (g.toNat % 256 / 2, op) ∈ [(0, none), (1, some LogicOp.xor), (2, some .and), (4, some .or), (8, some .shl),
      (16, some .shr), (32, some .rol), (64, some .ror)] := by
  unfold otherOf
  rw [otherOf_field]
  generalize g.toNat % 256 / 2 = n
  split <;> simp_all [eq_comm (b := op)]

/-- No operation bit set, NOT's own among them (R180). -/
theorem noOperation_iff : otherOf g = some none ∧ g.getLsbD 0 = false ↔ g.toNat % 256 = 0 := by
  have hnot : g.getLsbD 0 = false ↔ g.toNat % 2 = 0 := by simp [BitVec.getLsbD]
  have hother : otherOf g = some none ↔ g.toNat % 256 / 2 = 0 := by simp [otherOf_eq_some]
  rw [hnot, hother]
  omega

theorem logicMode_eq_none : logicMode g = none ↔ g.toNat % 256 = 0 ∨ otherOf g = none := by
  rw [← noOperation_iff]
  cases ho : otherOf g with
  | none => simp [logicMode, ho]
  | some op => cases op <;> simp [logicMode, ho]

theorem logicMode_eq_some {md : LogicMode} (h : logicMode g = some md) :
    otherOf g = some md.op ∧ md.not = g.getLsbD 0 ∧ md.width = widthOf (g.extractLsb' 8 2) := by
  unfold logicMode at h
  split at h
  · cases h
  · next op ho =>
    split at h
    · cases h
    · cases h
      exact ⟨ho, rfl, rfl⟩

end Rlgic

/-! ## The statement -/

/-- What a valid RARTH selects, by its fields (R35, R151, R152). -/
theorem arithMode_selects {m : Word} {md : ArithMode} (h : arithMode m = some md) :
    (m.getLsbD 7 = false → m.getLsbD 6 = false →
      md.type.shape = some ⟨8 * 2 ^ (m.toNat / 8 % 4), m.getLsbD 5⟩ ∧ md.type ≠ .ulong ∧ md.type ≠ .slong) ∧
    (m.getLsbD 7 = false → m.getLsbD 6 = true →
      md.type = (if m.getLsbD 5 then .slong else .ulong) ∧ md.type.shape = some ⟨32, m.getLsbD 5⟩) ∧
    (m.getLsbD 7 = true → (m.toNat / 8 % 4, md.type) ∈ [(2, ArithType.f32), (3, .f64)]) := by
  obtain ⟨-, -, ht, -⟩ := arithMode_eq_some.mp h
  refine ⟨fun h7 h6 => ?_, fun h7 h6 => ?_, fun h7 => ?_⟩
  · have hty := Option.some.inj (ht.symm.trans (typeOf_int h7 h6))
    rw [hty, ArithType.shape, widthOf_bits, extractLsb'_toNat_eq]
    exact ⟨rfl, nofun, nofun⟩
  · have hty := Option.some.inj (ht.symm.trans (typeOf_long h7 h6))
    refine ⟨hty, ?_⟩
    rw [hty]
    cases m.getLsbD 5 <;> rfl
  · rw [typeOf_float h7] at ht
    split at ht
    · cases ht
    · next hvalid =>
      have hty := Option.some.inj ht
      rw [← hty]
      have hw : m.toNat / 8 % 4 = 2 ∨ m.toNat / 8 % 4 = 3 := by omega
      rcases hw with hw | hw <;> simp [hw]

/-- Settles O27: each field as a number, and the modes by their fields. -/
theorem modeRegistersExactly : Obligations.ModeRegistersExactly := by
  refine ⟨fun m => ?_, fun m md h => ?_, fun g => ?_, fun g md h => ?_⟩
  · have hmod : operOf m = some .mod ↔ m.toNat % 8 = 5 := by simp [operOf_eq_some]
    rw [arithMode_eq_none, operOf_eq_none, extOf_eq_none, typeOf_eq_none, hmod]
    tauto
  · obtain ⟨ho, he, -, -⟩ := arithMode_eq_some.mp h
    exact ⟨operOf_eq_some.mp ho, extOf_eq_some.mp he, arithMode_selects h⟩
  · rw [logicMode_eq_none, otherOf_eq_none]
  · obtain ⟨ho, hnot, hw⟩ := logicMode_eq_some h
    refine ⟨otherOf_eq_some.mp ho, hnot, ?_⟩
    rw [hw, widthOf_bits, extractLsb'_toNat_eq]
    rfl

end Sys2Proof.Machine
end

section
/-!
SUPPORT. Where memory is written (R62, R64, R66, R67): a step writes the normal zone alone, and a word stored lies big-endian.
-/

namespace Sys2Proof.Machine

/-! ## The normal zone -/

/-- The two states have the same parameters, and every byte of the reservation zone and beyond RAM reads the same in both. -/
structure OutsideZoneKept (s t : State) : Prop where
  cfg : t.cfg = s.cfg
  bytes : ∀ a, (a < s.cfg.ivtZone ∨ s.cfg.ram ≤ a) → t.byteAt a = s.byteAt a

namespace OutsideZoneKept

variable {s t u : State}

theorem refl (s : State) : OutsideZoneKept s s := ⟨rfl, fun _ _ => rfl⟩

theorem trans (h1 : OutsideZoneKept s t) (h2 : OutsideZoneKept t u) : OutsideZoneKept s u where
  cfg := h2.cfg.trans h1.cfg
  bytes a ha := (h2.bytes a (by rw [h1.cfg]; exact ha)).trans (h1.bytes a ha)

theorem of_mem (hcfg : t.cfg = s.cfg) (hmem : t.mem = s.mem) : OutsideZoneKept s t :=
  ⟨hcfg, fun a _ => byteAt_of_mem hmem a⟩

/-- Bytes stored in the normal zone touch nothing outside it. -/
theorem storeBytes {p : Nat} {bytes : List Byte} (hz : inZone s.cfg p bytes.length = true) :
    OutsideZoneKept s (s.storeBytes p bytes) where
  cfg := rfl
  bytes a ha := by
    rw [inZone_iff] at hz
    exact State.byteAt_storeBytes_outside s p bytes (by omega)

theorem of_update (h : Update s t) : OutsideZoneKept s t := by
  cases h with
  | free hst => exact of_mem hst.cfg hst.mem
  | store hz => exact storeBytes hz
  | install e _ => exact of_mem (by rw [State.setSlot_eq]) (State.setSlot_mem ..)
  | transfer _ => exact of_mem rfl rfl
  | arm x _ => exact of_mem rfl rfl
  | disarm n => exact of_mem rfl rfl

theorem of_evolves (h : Evolves s t) : OutsideZoneKept s t := by
  induction h with
  | refl => exact refl s
  | tail _ hu ih => exact ih.trans (of_update hu)

end OutsideZoneKept

/-- Settles O56: a step is a sequence of guarded updates, and the only one that writes memory is checked against the zone. -/
theorem onlyTheNormalZoneIsWritten : Obligations.OnlyTheNormalZoneIsWritten := by
  intro s t hstep
  have hkept := OutsideZoneKept.of_evolves (step_evolves hstep)
  exact ⟨hkept.cfg, hkept.bytes⟩

/-! ## A stored word -/

/-- Each byte of a stored word, the most significant at the lowest address (R64). -/
theorem State.byteAt_storeWord_of_lt (s : State) (p : Nat) (v : Word) {k : Nat} (hk : k < 4) :
    (s.storeWord p v).byteAt (p + k) = v.extractLsb' (8 * (3 - k)) 8 := by
  obtain ⟨h0, h1, h2, h3⟩ := State.byteAt_storeWord s p v
  interval_cases k
  · exact h0
  · exact h1
  · exact h2
  · exact h3

theorem State.byteAt_storeWord_toNat (s : State) (p : Nat) (v : Word) {k : Nat} (hk : k < 4) :
    ((s.storeWord p v).byteAt (p + k)).toNat = v.toNat / 2 ^ (8 * (3 - k)) % 256 := by
  rw [State.byteAt_storeWord_of_lt s p v hk]
  exact extractLsb'_toNat_eq v (8 * (3 - k)) 8

/-- Settles O6, from what each byte reads as after a store. -/
theorem wordStoredBigEndian : Obligations.WordStoredBigEndian := by
  intro s p v
  exact ⟨State.wordAt_storeWord s p v, fun _ hk => State.byteAt_storeWord_toNat s p v hk,
    fun _ ha => State.byteAt_storeWord_outside s p v ha, fun q _ => State.storeWord_get s p v q⟩

end Sys2Proof.Machine
end

section
/-!
SUPPORT. The walk of the page list (R72, R76, R282): where it stops, that a chain which reaches a stop is shorter than the walk's
bound, and so what `Translate` answers.
-/

namespace Sys2Proof.Machine

/-! ## Chains of descriptors -/

/-- At the link `d` a walk for the logical address `a` ends: no descriptor, one outside the normal zone, or one that covers the
address (R76). -/
def WalkStops (s : State) (a d : Word) : Prop :=
  d = 0 ∨ inZone s.cfg d.toNat 24 = false ∨ (readDesc s d.toNat).covers a = true

section Chains

variable {s : State} {a d e r : Word} {ds es : List Word}

theorem not_walkStops_iff :
    ¬ WalkStops s a d ↔ d ≠ 0 ∧ inZone s.cfg d.toNat 24 = true ∧ (readDesc s d.toNat).covers a = false := by
  simp only [WalkStops, not_or, Bool.not_eq_false, Bool.not_eq_true, ne_eq]

theorem noneCovers_cons {x : Word} :
    NoneCovers s (x :: es) a ↔ (readDesc s x.toNat).covers a = false ∧ NoneCovers s es a :=
  List.forall_mem_cons

/-- A chain goes on from any link of it. -/
theorem Linked.drop (h : Linked s r (ds ++ es) e) : ∃ d, Linked s r ds d ∧ Linked s d es e := by
  induction ds generalizing r with
  | nil => exact ⟨r, rfl, h⟩
  | cons x xs ih =>
    obtain ⟨hx, h0, hz, hrest⟩ := h
    obtain ⟨d, hd, he⟩ := ih hrest
    exact ⟨d, ⟨hx, h0, hz, hd⟩, he⟩

/-- A descriptor that a walk passes over is no stop. -/
theorem Linked.not_walkStops {x : Word} (h : Linked s r (x :: es) e) (hn : NoneCovers s (x :: es) a) :
    ¬ WalkStops s a r := by
  obtain ⟨rfl, h0, hz, -⟩ := h
  exact not_walkStops_iff.mpr ⟨h0, hz, (noneCovers_cons.mp hn).1⟩

/-- From one link, the walk passes over the same descriptors to its stop, whatever chain describes it. -/
theorem Linked.unique_to_stop (h1 : Linked s r ds d) (n1 : NoneCovers s ds a) (s1 : WalkStops s a d)
    (h2 : Linked s r es e) (n2 : NoneCovers s es a) (s2 : WalkStops s a e) : ds = es := by
  induction ds generalizing r es with
  | nil =>
    obtain rfl : r = d := h1
    cases es with
    | nil => rfl
    | cons y ys => exact absurd s1 (h2.not_walkStops n2)
  | cons x xs ih =>
    cases es with
    | nil =>
      obtain rfl : r = e := h2
      exact absurd s2 (h1.not_walkStops n1)
    | cons y ys =>
      obtain ⟨rfl, -, -, hxs⟩ := h1
      obtain ⟨rfl, -, -, hys⟩ := h2
      rw [ih hxs (noneCovers_cons.mp n1).2 hys (noneCovers_cons.mp n2).2]

/-- A chain that reaches a stop comes back to no descriptor: from a descriptor met twice, it would reach the stop by two chains
of different lengths. -/
theorem Linked.nodup_to_stop (h : Linked s r ds d) (hn : NoneCovers s ds a) (hs : WalkStops s a d) : ds.Nodup := by
  induction ds generalizing r with
  | nil => exact List.nodup_nil
  | cons x xs ih =>
    have ⟨hrx, _, _, hxs⟩ := h
    subst hrx
    refine List.nodup_cons.mpr ⟨fun hx => ?_, ih hxs (noneCovers_cons.mp hn).2⟩
    obtain ⟨before, after, rfl⟩ := List.append_of_mem hx
    obtain ⟨l, -, htail⟩ := hxs.drop
    obtain rfl : x = l := htail.1
    have hsub : NoneCovers s (x :: after) a := fun y hy => hn y (List.mem_cons_of_mem _ (List.mem_append_right _ hy))
    have hlen := congrArg List.length (htail.unique_to_stop hsub hs h hn hs)
    simp only [List.length_cons, List.length_append] at hlen
    omega

/-- The descriptors of a chain begin below RAM. -/
theorem Linked.toNat_lt_ram (h : Linked s r ds d) : ∀ x ∈ ds, x.toNat < s.cfg.ram := by
  induction ds generalizing r with
  | nil => exact List.forall_mem_nil _
  | cons x xs ih =>
    obtain ⟨rfl, -, hz, hrest⟩ := h
    rw [inZone_iff] at hz
    exact List.forall_mem_cons.mpr ⟨by omega, ih hrest⟩

/-- A chain that reaches a stop has at most as many descriptors as there are addresses, so it is within the walk's bound. -/
theorem Linked.length_le_ram (h : Linked s r ds d) (hn : NoneCovers s ds a) (hs : WalkStops s a d) :
    ds.length ≤ s.cfg.ram := by
  have hnodup : (ds.map BitVec.toNat).Nodup :=
    (h.nodup_to_stop hn hs).map fun _ _ => BitVec.eq_of_toNat_eq
  have hsub : ds.map BitVec.toNat ⊆ List.range s.cfg.ram := by
    intro n hmem
    obtain ⟨x, hx, rfl⟩ := List.mem_map.mp hmem
    exact List.mem_range.mpr (h.toNat_lt_ram x hx)
  simpa using (hnodup.subperm hsub).length_le

/-- A walk passes over `n` descriptors, or it stops before. -/
theorem exists_linked_or_stops (s : State) (a r : Word) (n : Nat) :
    (∃ ds d, ds.length = n ∧ Linked s r ds d ∧ NoneCovers s ds a) ∨
    (∃ ds d, Linked s r ds d ∧ NoneCovers s ds a ∧ WalkStops s a d) := by
  induction n generalizing r with
  | zero => exact .inl ⟨[], r, rfl, rfl, List.forall_mem_nil _⟩
  | succ n ih =>
    by_cases hr : WalkStops s a r
    · exact .inr ⟨[], r, rfl, List.forall_mem_nil _, hr⟩
    · obtain ⟨h0, hz, hc⟩ := not_walkStops_iff.mp hr
      rcases ih (readDesc s r.toNat).next with ⟨ds, d, rfl, hl, hn⟩ | ⟨ds, d, hl, hn, hd⟩
      · exact .inl ⟨r :: ds, d, rfl, ⟨rfl, h0, hz, hl⟩, noneCovers_cons.mpr ⟨hc, hn⟩⟩
      · exact .inr ⟨r :: ds, d, ⟨rfl, h0, hz, hl⟩, noneCovers_cons.mpr ⟨hc, hn⟩, hd⟩

end Chains

/-! ## The walk at its stop -/

section Walk

variable {s : State} {a d : Word} {perm : BitVec 3} {ds : List Word}

theorem walk_noPage (n : Nat) : walk s a perm (n + 1) 0 = raise .noPage { s with fltAddr := a } := if_pos rfl

theorem walk_badMemory (n : Nat) (h0 : d ≠ 0) (hz : inZone s.cfg d.toNat 24 = false) :
    walk s a perm (n + 1) d = raise .badMemory s := by
  rw [walk, if_neg h0, hz, if_neg Bool.false_ne_true]

theorem walk_covered (n : Nat) (h0 : d ≠ 0) (hz : inZone s.cfg d.toNat 24 = true)
    (hc : (readDesc s d.toNat).covers a = true) :
    walk s a perm (n + 1) d =
      if (readDesc s d.toNat).allows perm then .ok ((readDesc s d.toNat).paddr + (a - (readDesc s d.toNat).laddr))
      else raise .pagePermission { s with fltAddr := a, fltPerm := perm } := by
  rw [walk, if_neg h0, if_pos hz]
  exact if_pos hc

theorem walk_uncovered (n : Nat) (h0 : d ≠ 0) (hz : inZone s.cfg d.toNat 24 = true)
    (hc : (readDesc s d.toNat).covers a = false) :
    walk s a perm (n + 1) d = walk s a perm n (readDesc s d.toNat).next := by
  rw [walk, if_neg h0, if_pos hz]
  exact if_neg (Bool.eq_false_iff.mp hc)

/-- With fuel left, a walk at its stop does not hang. -/
theorem walk_ne_hang_of_stops (n : Nat) (hs : WalkStops s a d) : walk s a perm (n + 1) d ≠ .error .hang := by
  by_cases h0 : d = 0
  · rw [h0, walk_noPage]; simp
  · cases hz : inZone s.cfg d.toNat 24 with
    | false => rw [walk_badMemory n h0 hz]; simp
    | true =>
      have hc : (readDesc s d.toNat).covers a = true := by
        by_contra hc
        exact not_walkStops_iff.mpr ⟨h0, hz, Bool.eq_false_iff.mpr hc⟩ hs
      rw [walk_covered n h0 hz hc]
      split <;> simp

/-- The walk of `Translate` gets to the stop of the page list with fuel left, however long the list (R76). -/
theorem translate_eq_walk_at_stop (hp : s.paging = true) (h : Linked s (s.get .rpa) ds d) (hn : NoneCovers s ds a)
    (hs : WalkStops s a d) : ∃ n, translate s a perm = walk s a perm (n + 1) d := by
  have hlen := h.length_le_ram hn hs
  refine ⟨s.cfg.ram - ds.length, ?_⟩
  rw [translate, if_pos hp, walk_linked ds _ d _ h hn (by unfold walkBound; omega), walkBound,
    Nat.sub_add_comm hlen]

end Walk

/-- Settles O52: the walk gets to the first stop of the list, and that descriptor decides. -/
theorem firstMatchDecides : Obligations.FirstMatchDecides := by
  refine ⟨fun s a perm h => translate_paging_off h a perm, fun s a perm ds d hp hl hn => ⟨?_, ?_, ?_⟩,
    fun s a p perm h => ⟨fun hz => ?_, fun hz => ?_⟩⟩
  · intro h0 hz hc
    obtain ⟨n, hw⟩ := translate_eq_walk_at_stop (perm := perm) hp hl hn (.inr (.inr hc))
    rw [hw, walk_covered n h0 hz hc]
    exact ⟨fun hallow => if_pos hallow, fun hdeny => if_neg (Bool.eq_false_iff.mp hdeny)⟩
  · rintro rfl
    obtain ⟨n, hw⟩ := translate_eq_walk_at_stop (perm := perm) hp hl hn (.inl rfl)
    rw [hw, walk_noPage]
  · intro h0 hz
    obtain ⟨n, hw⟩ := translate_eq_walk_at_stop (perm := perm) hp hl hn (.inr (.inl hz))
    rw [hw, walk_badMemory n h0 hz]
  · exact dataAddr_ok.mpr ⟨p, h, rfl, (inZone_iff ..).mpr hz⟩
  · have hout : ¬ inZone s.cfg p.toNat 4 = true := by rw [inZone_iff]; omega
    simp only [dataAddr, h, if_neg hout]

theorem translate_hang_paging {s : State} {a : Word} {perm : BitVec 3} (h : translate s a perm = .error .hang) :
    s.paging = true := by
  by_contra hp
  rw [translate_paging_off (Bool.eq_false_iff.mpr hp)] at h
  cases h

/-- Settles O53: a list with a stop is walked to it, and a list without one outlasts every bound. -/
theorem hangExactlyWithoutEnd : Obligations.HangExactlyWithoutEnd := by
  intro s a perm
  constructor
  · intro h
    have hp := translate_hang_paging h
    refine ⟨hp, fun n => ?_⟩
    rcases exists_linked_or_stops s a (s.get .rpa) n with hchain | ⟨ds, d, hl, hn, hs⟩
    · exact hchain
    · obtain ⟨m, hw⟩ := translate_eq_walk_at_stop (perm := perm) hp hl hn hs
      exact absurd (hw.symm.trans h) (walk_ne_hang_of_stops m hs)
  · rintro ⟨hp, hchain⟩
    obtain ⟨ds, d, hlen, hl, hn⟩ := hchain (walkBound s.cfg)
    rw [translate, if_pos hp, walk_linked ds _ d _ hl hn hlen.le, hlen, Nat.sub_self]
    rfl

end Sys2Proof.Machine
end

section
/-!
SUPPORT. The task switch as an operation on memory (R240 to R245): which byte it leaves as it was, and where it can hang.
-/

namespace Sys2Proof.Machine

/-! ## States in which addresses mean the same -/

/-- The two states agree on memory, the parameters and every register but RIP and RGP1, so that a logical address and a task
pointer resolve alike in both. -/
structure SameAddresses (s u : State) : Prop where
  cfg : u.cfg = s.cfg
  bytes : SameBytes s u
  regs : SameRegsBut s u [.rip, .rgp1]

namespace SameAddresses

variable {s u : State}

theorem refl (s : State) : SameAddresses s s := ⟨rfl, fun _ => rfl, fun _ _ => rfl⟩

theorem of_sameButLatches (h : SameButLatches s u) : SameAddresses s u :=
  ⟨by rw [h], h.byteAt, fun r _ => h.get r⟩

theorem then_set (h : SameAddresses s u) {r : Reg} (hr : r ∈ [.rip, .rgp1]) (v : Word) :
    SameAddresses s (u.set r v) where
  cfg := h.cfg
  bytes := h.bytes
  regs q hq := by rw [State.get_set_ne u v (by rintro rfl; exact hq hr), h.regs q hq]

/-- A keyboard code taken from its queue, and RIP moved on (R206). -/
theorem withKbd_set_rip (s : State) (codes : List Word) (next : Word) :
    SameAddresses s (({ s with kbd := codes } : State).set .rip next) :=
  have hcodes : SameAddresses s { s with kbd := codes } := ⟨rfl, fun _ => rfl, fun _ _ => rfl⟩
  hcodes.then_set (by decide) next

/-- A timer id taken from its queue, and RIP moved on (R206). -/
theorem withTmr_set_rip (s : State) (ids : List Byte) (next : Word) :
    SameAddresses s (({ s with tmr := ids } : State).set .rip next) :=
  have hids : SameAddresses s { s with tmr := ids } := ⟨rfl, fun _ => rfl, fun _ _ => rfl⟩
  hids.then_set (by decide) next

theorem get (h : SameAddresses s u) (r : Reg) (hr : r ∉ [.rip, .rgp1] := by decide) : u.get r = s.get r := h.regs r hr

theorem taskRegs (h : SameAddresses s u) : u.taskRegs = s.taskRegs := taskRegs_of_rst (h.get .rst)

theorem paging (h : SameAddresses s u) : u.paging = s.paging := by simp only [State.paging, h.get .rst]

theorem readDesc (h : SameAddresses s u) (d : Nat) : readDesc u d = readDesc s d := by
  have hword (p : Nat) : u.wordAt p = s.wordAt p := State.wordAt_congr fun k _ => h.bytes (p + k)
  simp only [Machine.readDesc, hword]

/-- A walk that raises no fault answers the same in both. -/
theorem walk (h : SameAddresses s u) {a : Word} {perm : BitVec 3} {n : Nat} {d : Word} {answer : Check Word}
    (hr : ∀ k t, answer ≠ raise k t) (hw : walk u a perm n d = answer) : walk s a perm n d = answer := by
  induction n generalizing d with
  | zero => exact hw
  | succ n ih =>
    by_cases h0 : d = 0
    · rw [h0, walk_noPage] at hw
      exact absurd hw.symm (hr _ _)
    · cases hz : inZone s.cfg d.toNat 24 with
      | false =>
        rw [walk_badMemory n h0 (by rw [h.cfg, hz])] at hw
        exact absurd hw.symm (hr _ _)
      | true =>
        have hzu : inZone u.cfg d.toNat 24 = true := by rw [h.cfg, hz]
        cases hc : (Machine.readDesc s d.toNat).covers a with
        | true =>
          rw [walk_covered n h0 hzu (by rw [h.readDesc, hc]), h.readDesc] at hw
          rw [walk_covered n h0 hz hc]
          split at hw
          · next hallow => rw [if_pos hallow, hw]
          · exact absurd hw.symm (hr _ _)
        | false =>
          rw [walk_uncovered n h0 hzu (by rw [h.readDesc, hc]), h.readDesc] at hw
          rw [walk_uncovered n h0 hz hc]
          exact ih hw

theorem translate (h : SameAddresses s u) {a : Word} {perm : BitVec 3} {answer : Check Word}
    (hr : ∀ k t, answer ≠ raise k t) (ht : translate u a perm = answer) : translate s a perm = answer := by
  unfold Machine.translate at ht ⊢
  rw [h.paging, h.cfg, h.get .rpa] at ht
  split at ht
  · next hp => rw [if_pos hp, h.walk hr ht]
  · next hp => rw [if_neg hp, ht]

end SameAddresses

/-! ## Task pointers -/

theorem taskAddr_eq_ok {s : State} {ptr : Word} {p : Nat} :
    taskAddr s ptr = .ok p ↔ ∃ w, translate s ptr 0 = .ok w ∧ w.toNat = p ∧ inZone s.cfg p 112 = true := by
  constructor
  · intro h
    obtain ⟨hz, w, hw, hp⟩ := taskAddr_ok h
    exact ⟨w, hw, hp, hz⟩
  · rintro ⟨w, hw, rfl, hz⟩
    simp only [taskAddr, hw, if_pos hz]

theorem taskAddr_hang {s : State} {ptr : Word} (h : taskAddr s ptr = .error .hang) :
    translate s ptr 0 = .error .hang := by
  unfold taskAddr at h
  split at h
  · simp at h
  · assumption
  · split at h <;> simp at h

theorem SameAddresses.taskAddr_ok {s u : State} (h : SameAddresses s u) {ptr : Word} {p : Nat}
    (hp : taskAddr u ptr = .ok p) : taskAddr s ptr = .ok p := by
  obtain ⟨w, hw, hwp, hz⟩ := taskAddr_eq_ok.mp hp
  exact taskAddr_eq_ok.mpr ⟨w, h.translate (by simp [raise]) hw, hwp, by rw [← h.cfg, hz]⟩

/-! ## A byte the task switch leaves as it was -/

/-- The byte at `b` reads the same in both states. -/
def ByteKept (b : Nat) (s t : State) : Prop := t.byteAt b = s.byteAt b

/-- With task registers on, the byte at `b` is outside the task structure that the register points to. -/
def OutsideTask (b : Nat) (s : State) (r : Reg) : Prop :=
  ∀ p, s.taskRegs = true → taskAddr s (s.get r) = .ok p → b < p ∨ p + 112 ≤ b

/-- Whatever state the operation leaves, or raises a fault in, satisfies `P`. -/
structure Ends (P : State → Prop) (c : Check State) : Prop where
  leaves : Leaves P c
  raises : RaisesOnly (fun _ => P) c

namespace Ends

variable {α : Type} {P : State → Prop}

theorem of_ok {t : State} (h : P t) : Ends P (.ok t) := ⟨.of_ok h, .of_ok t⟩

theorem raise {t : State} (h : P t) (k : FaultKind) : Ends P (raise k t) := ⟨.raise k t, .raise h⟩

theorem bind {x : Check α} {f : α → Check State} (hx : RaisesOnly (fun _ => P) x) (hf : ∀ a, x = .ok a → Ends P (f a)) :
    Ends P (x >>= f) :=
  ⟨.bind fun a ha => (hf a ha).leaves, .bind hx fun a ha => (hf a ha).raises⟩

/-- A last update of the state the operation leaves. -/
theorem andThen {x : Check State} {g : State → State} (hx : Ends P x) (hg : ∀ t, P t → P (g t)) :
    Ends P (x >>= fun t => .ok (g t)) :=
  bind hx.raises fun t ht => of_ok (hg t (hx.leaves.state t ht))

end Ends

section Byte

variable {b : Nat} {s u : State}

theorem ByteKept.of_mem {t : State} (h : t.mem = s.mem) : ByteKept b s t := byteAt_of_mem h b

theorem ByteKept.saveRegs {p : Nat} (rs : List Reg) (h : ByteKept b s u) (hb : b < p ∨ p + 112 ≤ b) :
    ByteKept b s (saveRegs rs p u) :=
  (saveRegs_byteAt_outside rs p u hb).trans h

theorem ByteKept.loadRegs (rs : List Reg) (q : Nat) (h : ByteKept b s u) : ByteKept b s (loadRegs rs q u) :=
  (loadRegs_byteAt rs q u b).trans h

theorem ByteKept.latches {t : State} (h : ByteKept b s u) (ht : SameButLatches u t) : ByteKept b s t :=
  (ht.byteAt b).trans h

/-- The switch of a trap writes the current task's structure alone, whether it completes or not (R241, R243). -/
theorem trapSwitch_ends (hu : SameAddresses s u) (hb : OutsideTask b s .rct) : Ends (ByteKept b s) (trapSwitch u) := by
  have hkept : ByteKept b s u := hu.bytes b
  have hsaved {p : Nat} (ht : u.taskRegs = true) (hp : taskAddr u (u.get .rct) = .ok p) :
      ByteKept b s (saveRegs Reg.all p u) := by
    rw [hu.get .rct] at hp
    exact hkept.saveRegs _ (hb p (hu.taskRegs.symm.trans ht) (hu.taskAddr_ok hp))
  refine ⟨⟨fun t h => ?_⟩, ⟨fun k t h => ?_⟩⟩
  · rcases trapSwitch_ok h with ⟨-, rfl⟩ | ⟨ht, -, p, q, hp, -, rfl⟩
    · exact hkept
    · exact (hsaved ht hp).loadRegs ..
  · obtain ⟨-, ht, hl | ⟨p, hp, hl | ⟨q, -, rfl⟩⟩⟩ := trapSwitch_error h
    · exact hkept.latches hl
    · exact (hsaved ht hp).latches hl
    · exact (hsaved ht hp).loadRegs ..

/-- The return from a trap writes the base task's structure alone (R212, R242). -/
theorem trapReturn_ends (ht : s.taskRegs = true) (hb : OutsideTask b s .rbt) : Ends (ByteKept b s) (trapReturn s) := by
  rw [trapReturn_eq_bind]
  have hkept : ByteKept b s s := rfl
  refine .bind ⟨fun k t h => hkept.latches (saveBase_error h).2⟩ fun u hu => ?_
  obtain ⟨p, hp, rfl⟩ := saveBase_ok hu
  have hsaved := hkept.saveRegs Reg.baseSet (hb p ht hp)
  refine ⟨⟨fun t h => ?_⟩, ⟨fun k t h => hsaved.latches (loadCurrent_error h).2⟩⟩
  obtain ⟨q, -, rfl⟩ := loadCurrent_ok h
  exact hsaved.loadRegs ..

theorem enter_ends (a : Word) (hu : SameAddresses s u) (hb : OutsideTask b s .rct) : Ends (ByteKept b s) (enter a u) := by
  have hswitch := trapSwitch_ends hu hb
  refine ⟨⟨fun t h => ?_⟩, ⟨fun k t h => hswitch.raises.fault k t (enter_error h)⟩⟩
  obtain ⟨w, hw, rfl⟩ := enter_ok h
  exact hswitch.leaves.state w hw

theorem deliver_ends (v : Nat) (c : Word) (hu : SameAddresses s u) (hb : OutsideTask b s .rct) :
    Ends (ByteKept b s) (deliver v c u) := by
  by_cases h : (u.slot v).handler = 0
  · rw [deliver_uninstalled h]
    exact .of_ok (hu.bytes b)
  · rw [deliver_installed h]
    exact enter_ends _ (hu.then_set (by decide) c) hb

theorem dispatchVectored_ends (v next : Word) (hb : OutsideTask b s .rct) :
    Ends (ByteKept b s) (dispatchVectored v next s) := by
  have hkept : ByteKept b s s := rfl
  unfold dispatchVectored
  split
  · exact .raise hkept _
  · split
    · exact .raise hkept _
    · exact enter_ends _ ((SameAddresses.refl s).then_set (by decide) next) hb

/-- Taking a fault writes the current task's structure alone (R222). -/
theorem takeFault_byteKept {k : FaultKind} {t : State} (hk : k ≠ .machineCheck) (hu : SameAddresses s u)
    (hb : OutsideTask b s .rct) (h : takeFault k u = .next t) : ByteKept b s t := by
  have hswitch := trapSwitch_ends hu hb
  rcases takeFault_next h with ⟨rfl, -⟩ | ⟨-, w, hw, rfl⟩ | ⟨-, w, hw, rfl⟩
  · exact absurd rfl hk
  · exact (byteAt_of_mem (redirect_flagFault_mem k w) b).trans (hswitch.leaves.state w hw)
  · exact (byteAt_of_mem (machineCheck_mem w) b).trans (hswitch.raises.fault _ w hw)

end Byte

/-! ## Where the task switch hangs -/

/-- A task pointer hangs once the context of `s` is saved in the structure that `r` points to (R240, R282). -/
def HangsAfterSave (s : State) (r : Reg) : Prop :=
  s.taskRegs = true ∧ ∃ (u : State) (p : Nat) (ptr : Reg), (ptr = .rct ∨ ptr = .rbt) ∧
    translate u (s.get ptr) 0 = .error .hang ∧ u.cfg = s.cfg ∧ u.get .rpa = s.get .rpa ∧ u.get .rst = s.get .rst ∧
    taskAddr s (s.get r) = .ok p ∧ SameBytesOutside s u p 112

/-- Something met a page list without an end: an address translated in `s`, or a task pointer after the save. -/
def MeetsEndless (s : State) (r : Reg) : Prop := (∃ a perm, translate s a perm = .error .hang) ∨ HangsAfterSave s r

theorem MeetsEndless.paging {s : State} {r : Reg} (h : MeetsEndless s r) : s.paging = true := by
  rcases h with ⟨a, perm, h⟩ | ⟨-, u, p, ptr, -, h, -, -, hrst, -⟩
  · exact translate_hang_paging h
  · have hp := translate_hang_paging h
    rwa [State.paging, hrst] at hp

/-- Where the operation hangs, `Q` holds. -/
structure HangsOnly {α : Type} (Q : Prop) (c : Check α) : Prop where
  hang : c = .error .hang → Q

namespace HangsOnly

variable {α β : Type} {Q : Prop}

theorem of_ok (a : α) : HangsOnly Q (.ok a : Check α) := ⟨nofun⟩

theorem raise (k : FaultKind) (s : State) : HangsOnly Q (raise k s : Check α) := ⟨nofun⟩

theorem bind {x : Check α} {f : α → Check β} (hx : HangsOnly Q x) (hf : ∀ a, x = .ok a → HangsOnly Q (f a)) :
    HangsOnly Q (x >>= f) := by
  refine ⟨fun h => ?_⟩
  rcases Check.bind_eq_error.mp h with h | ⟨a, ha, hfa⟩
  · exact hx.hang h
  · exact (hf a ha).hang hfa

end HangsOnly

/-! ## The parts of the task switch as sequences -/

theorem saveCurrent_eq_bind (s : State) :
    saveCurrent s = taskAddr s (s.get .rct) >>= fun p => .ok (saveRegs Reg.all p s) := by
  unfold saveCurrent
  cases taskAddr s (s.get .rct) <;> rfl

theorem saveBase_eq_bind (s : State) :
    saveBase s = taskAddr s (s.get .rbt) >>= fun p => .ok (saveRegs Reg.baseSet p s) := by
  unfold saveBase
  cases taskAddr s (s.get .rbt) <;> rfl

theorem loadCurrent_eq_bind (s : State) :
    loadCurrent s = taskAddr s (s.get .rct) >>= fun p => .ok (loadRegs Reg.all p s) := by
  unfold loadCurrent
  cases taskAddr s (s.get .rct) <;> rfl

theorem loadBase_eq_bind (s : State) :
    loadBase s = taskAddr s (s.get .rbt) >>= fun p =>
      if (loadRegs Reg.baseSet p s).lowered then raise .machineCheck (loadRegs Reg.baseSet p s)
      else .ok (loadRegs Reg.baseSet p s) := by
  unfold loadBase
  cases taskAddr s (s.get .rbt) <;> rfl

theorem trapSwitch_eq_bind {s : State} (h : s.taskRegs = true) : trapSwitch s = saveCurrent s >>= loadBase := by
  rw [trapSwitch, if_pos h]
  cases saveCurrent s <;> rfl

section Hang

variable {s u : State}

/-- A task pointer of the state a save has left. -/
theorem HangsAfterSave.of_taskAddr {r ptr : Reg} {rs : List Reg} {p : Nat} (hu : SameAddresses s u)
    (ht : s.taskRegs = true) (hp : taskAddr s (s.get r) = .ok p) (hptr : ptr = .rct ∨ ptr = .rbt)
    (h : taskAddr (saveRegs rs p u) ((saveRegs rs p u).get ptr) = .error .hang) : HangsAfterSave s r := by
  have hget : u.get ptr = s.get ptr := hu.get ptr (by rcases hptr with rfl | rfl <;> decide)
  rw [saveRegs_get, hget] at h
  refine ⟨ht, saveRegs rs p u, p, ptr, hptr, taskAddr_hang h, by rw [saveRegs_cfg, hu.cfg],
    by rw [saveRegs_get, hu.get .rpa], by rw [saveRegs_get, hu.get .rst], hp, fun a ha => ?_⟩
  rw [saveRegs_byteAt_outside rs p u ha, hu.bytes a]

theorem trapSwitch_hangs (hu : SameAddresses s u) : HangsOnly (MeetsEndless s .rct) (trapSwitch u) := by
  cases ht : u.taskRegs with
  | false => rw [trapSwitch_off ht]; exact .of_ok u
  | true =>
    rw [trapSwitch_eq_bind ht]
    refine .bind ?_ fun w hw => ?_
    · rw [saveCurrent_eq_bind]
      exact .bind ⟨fun h => .inl ⟨_, _, hu.translate (by simp [raise]) (taskAddr_hang h)⟩⟩ fun _ _ => .of_ok _
    · obtain ⟨p, hp, rfl⟩ := saveCurrent_ok hw
      rw [hu.get .rct] at hp
      rw [loadBase_eq_bind]
      refine .bind ⟨fun h => .inr (.of_taskAddr hu (hu.taskRegs.symm.trans ht) (hu.taskAddr_ok hp) (.inr rfl) h)⟩
        fun q _ => ?_
      split
      · exact .raise ..
      · exact .of_ok _

theorem trapReturn_hangs (ht : s.taskRegs = true) : HangsOnly (MeetsEndless s .rbt) (trapReturn s) := by
  rw [trapReturn_eq_bind]
  refine .bind ?_ fun u hu => ?_
  · rw [saveBase_eq_bind]
    exact .bind ⟨fun h => .inl ⟨_, _, taskAddr_hang h⟩⟩ fun _ _ => .of_ok _
  · obtain ⟨p, hp, rfl⟩ := saveBase_ok hu
    rw [loadCurrent_eq_bind]
    exact .bind ⟨fun h => .inr (.of_taskAddr (.refl s) ht hp (.inl rfl) h)⟩ fun _ _ => .of_ok _

theorem enter_hangs (a : Word) (hu : SameAddresses s u) : HangsOnly (MeetsEndless s .rct) (enter a u) :=
  ⟨fun h => (trapSwitch_hangs hu).hang (enter_error h)⟩

theorem deliver_hangs (v : Nat) (c : Word) (hu : SameAddresses s u) :
    HangsOnly (MeetsEndless s .rct) (deliver v c u) := by
  by_cases h : (u.slot v).handler = 0
  · rw [deliver_uninstalled h]
    exact .of_ok _
  · rw [deliver_installed h]
    exact enter_hangs _ (hu.then_set (by decide) c)

theorem dispatchVectored_hangs (v next : Word) (s : State) :
    HangsOnly (MeetsEndless s .rct) (dispatchVectored v next s) := by
  unfold dispatchVectored
  split
  · exact .raise ..
  · split
    · exact .raise ..
    · exact enter_hangs _ ((SameAddresses.refl s).then_set (by decide) next)

/-- A fault whose taking gives no next state: its task switch hangs (R222, R282). -/
theorem takeFault_not_next {k : FaultKind} (h : ∀ t, takeFault k s ≠ .next t) :
    k ≠ .machineCheck ∧ trapSwitch s = .error .hang ∧ takeFault k s = .fault .pageWalkHang := by
  have hk : k ≠ .machineCheck := by
    rintro rfl
    exact h _ (takeFault_machineCheck s)
  match hs : trapSwitch s with
  | .ok t => exact absurd (takeFault_of_switch hk hs) (h _)
  | .error (.raise j t) => exact absurd (takeFault_of_failure hk hs) (h _)
  | .error .hang => exact ⟨hk, rfl, by simp only [takeFault, if_neg hk, hs]⟩

end Hang

end Sys2Proof.Machine
end

section
/-!
SUPPORT. Every instruction as an operation on memory: the bytes its rule, and the fault it raises, leave as they were
(R61, R69, R75).
-/

namespace Sys2Proof.Machine

/-! ## The task pointer of an instruction's own save -/

/-- The task register whose structure a task switch of `i` saves to: RBT for the `ltsk` of the elevated level, RCT for a trap
(R212, R222, R233). -/
def saver (i : Instr) (s : State) : Reg := if i = .ltsk ∧ s.lowered = false then .rbt else .rct

theorem saver_of_ne_ltsk {i : Instr} (s : State) (h : i ≠ .ltsk) : saver i s = .rct := if_neg fun hi => h hi.1

theorem saver_of_lowered (i : Instr) {s : State} (h : s.lowered = true) : saver i s = .rct :=
  if_neg fun hi => by simp [h] at hi

theorem saver_ltsk {s : State} (h : s.lowered = false) : saver .ltsk s = .rbt := if_pos ⟨rfl, h⟩

/-! ## The bytes an instruction leaves as they were -/

/-- The byte at `b` is outside the word that `i` stores from `s`, the buffer of its storage read and the task structure it saves
to. -/
structure OutsideStores (i : Instr) (s : State) (b : Nat) : Prop where
  word : ∀ a p, storeAddress i s = some a → dataAddr s a permW = .ok p → b < p ∨ p + 4 ≤ b
  buffer : ∀ p : Word, i = .intr (.lit 0x0B) → s.lowered = false → (s.get .rgp1).getLsbD 0 = false →
    translate s (s.get .rgp3) permW = .ok p → b < p.toNat ∨ p.toNat + (s.get .rgp4).toNat ≤ b
  save : OutsideTask b s (saver i s)

section Byte

variable {b : Nat} {s : State}

theorem ByteKept.of_storeWord {t : State} {p : Nat} {v : Word} (hb : b < p ∨ p + 4 ≤ b)
    (ht : t.mem = (s.storeWord p v).mem) : ByteKept b s t :=
  (byteAt_of_mem ht b).trans (State.byteAt_storeWord_outside s p v hb)

theorem copyTo_leaves_byte (v : Word) {op2 : Operand} (next : Word)
    (hb : ∀ a p, Operand.address op2 = some a → dataAddr s a permW = .ok p → b < p ∨ p + 4 ≤ b) :
    Leaves (ByteKept b s) (copyTo v op2 next s) := by
  cases op2 with
  | reg id2 => exact .bind fun _ _ => .of_ok (.of_mem rfl)
  | lit a => exact .bind fun p hp => .of_ok (.of_storeWord (hb a p rfl hp) rfl)

theorem cpfEffect_leaves_byte (op1 : Operand) {op2 : Operand}
    (hb : ∀ a p, Operand.address op2 = some a → dataAddr s a permW = .ok p → b < p ∨ p + 4 ≤ b) :
    Leaves (ByteKept b s) (cpfEffect op1 op2 s) := by
  refine .bind fun _ _ => ?_
  cases op2 with
  | reg id2 => exact .bind fun _ _ => .bind fun _ _ => .of_ok (.of_mem rfl)
  | lit a2 => exact .bind fun _ _ => .bind fun p hp => .of_ok (.of_storeWord (hb a2 p rfl hp) rfl)

theorem regOf_eq_ok {id : Byte} {r : Reg} : regOf s id = .ok r ↔ decodeReg id = some r := by
  unfold regOf
  cases decodeReg id <;> simp

theorem cpxEffect_leaves_byte (op1 : Operand) {op2 : Operand}
    (hb : ∀ a p, Operand.pointer op2 s = some a → dataAddr s a permW = .ok p → b < p ∨ p + 4 ≤ b) :
    Leaves (ByteKept b s) (cpxEffect op1 op2 s) := by
  refine .bind fun _ _ => .bind fun id2 h2 => .bind fun _ _ => .bind fun rb hrb => .bind fun p hp =>
    .of_ok (.of_storeWord (hb (s.get rb) p ?_ hp) rfl)
  rw [needReg_eq_ok.mp h2, Operand.pointer, regOf_eq_ok.mp hrb]
  rfl

theorem cmpEffect_leaves_byte (op1 op2 : Operand) : Leaves (ByteKept b s) (cmpEffect op1 op2 s) := by
  refine .bind fun _ _ => .bind fun _ _ => ?_
  split
  · exact .raise ..
  · exact .of_ok (.of_mem rfl)

theorem arthEffect_leaves_byte (op1 op2 : Operand) : Leaves (ByteKept b s) (arthEffect op1 op2 s) := by
  refine .bind fun _ _ => .bind fun _ _ => .bind fun _ _ => .bind fun _ _ => .bind fun t ht => .of_ok (.of_mem ?_)
  rw [State.set_mem, arithmetic_ok ht]

/-! ## The inline vectors -/

theorem storageTransfer_ends {write : Bool} {dev off len p : Nat}
    (hb : write = false → b < p ∨ p + len ≤ b) : Ends (ByteKept b s) (storageTransfer write dev off len p s) := by
  cases write with
  | true =>
    simp only [storageTransfer, storageWrite, if_true]
    split
    · exact .of_ok (.of_mem rfl)
    · exact .raise (.of_mem rfl) _
  | false =>
    simp only [storageTransfer, storageRead, Bool.false_eq_true, if_false]
    split
    · exact .of_ok (State.byteAt_storeBytes_outside (drawStorageError s).2 p _ (by simpa [storageBytesAt] using hb rfl))
    · exact .raise (.of_mem rfl) _

theorem storageIo_ends (next : Word)
    (hb : ∀ p : Word, (s.get .rgp1).getLsbD 0 = false → translate s (s.get .rgp3) permW = .ok p →
      b < p.toNat ∨ p.toNat + (s.get .rgp4).toNat ≤ b) : Ends (ByteKept b s) (storageIo next s) := by
  refine .bind ⟨fun k t h => (translate_error h).2.byteAt b⟩ fun p hp => .bind ⟨fun k t h => ?_⟩ fun _ _ =>
    .andThen (storageTransfer_ends fun hread => hb p hread ?_) fun t ht => ht
  · obtain ⟨-, hraise⟩ := (ensure_eq_error ..).mp h
    cases hraise
    rfl
  · rwa [hread] at hp

theorem timerArmVector_ends (next : Word) : Ends (ByteKept b s) (timerArmVector next s) := by
  refine .andThen ?_ fun t ht => ht
  unfold timerArm
  split
  · exact .raise (.of_mem rfl) _
  · exact .of_ok (.of_mem rfl)

/-- A pending code received and delivered: its queue and RIP are written before (R206). -/
theorem keyboardVector_ends (next : Word) (hb : OutsideTask b s .rct) :
    Ends (ByteKept b s) (keyboardVector next s) := by
  unfold keyboardVector
  split
  · exact .of_ok (.of_mem rfl)
  · exact deliver_ends _ _ (.withKbd_set_rip ..) hb

theorem timerVector_ends (next : Word) (hb : OutsideTask b s .rct) : Ends (ByteKept b s) (timerVector next s) := by
  unfold timerVector
  split
  · exact .of_ok (.of_mem rfl)
  · exact deliver_ends _ _ (.withTmr_set_rip ..) hb

theorem vectorInstall_ends (next : Word) : Ends (ByteKept b s) (vectorInstall next s) := by
  unfold vectorInstall
  simp only
  split
  · exact .of_ok (.of_mem (State.setSlot_mem ..))
  · exact .raise (.of_mem rfl) _

theorem inlineOf_eq_storage {v : Word} (h : inlineOf v = some .storage) : v = 0x0B := by
  unfold inlineOf at h
  split at h <;> cases h
  next hv => exact BitVec.eq_of_toNat_eq hv

theorem inlineEffect_ends {v : Word} {f : InlineVector} (next : Word) (hf : inlineOf v = some f) (hl : s.lowered = false)
    (hb : OutsideStores (.intr (.lit v)) s b) : Ends (ByteKept b s) (inlineEffect f next s) := by
  cases f with
  | install => exact vectorInstall_ends next
  | halt => exact .of_ok (.of_mem rfl)
  | keyboard => exact keyboardVector_ends next hb.save
  | display => exact .of_ok (.of_mem rfl)
  | storage => exact storageIo_ends next fun p => hb.buffer p (by rw [inlineOf_eq_storage hf]) hl
  | invalidate => exact .of_ok (.of_mem rfl)
  | timerArm => exact timerArmVector_ends next
  | timerExpired => exact timerVector_ends next hb.save

theorem intrEffect_ends {op1 : Operand} (hb : OutsideStores (.intr op1) s b) :
    Ends (ByteKept b s) (intrEffect op1 s) := by
  cases op1 with
  | reg id => exact .raise (.of_mem rfl) _
  | lit v =>
    refine Ends.bind (.of_ok v) fun w hw => ?_
    obtain rfl : v = w := Except.ok.inj hw
    split
    · next f hf =>
      split
      · exact .raise (.of_mem rfl) _
      · next hl => exact inlineEffect_ends _ hf (Bool.eq_false_iff.mpr hl) hb
    · exact dispatchVectored_ends _ _ hb.save

theorem ltskEffect_ends (hb : OutsideStores .ltsk s b) : Ends (ByteKept b s) (ltskEffect s) := by
  unfold ltskEffect
  split
  · next ht =>
    split
    · exact .raise (.of_mem rfl) _
    · next hl =>
      have hsave := hb.save
      rw [saver_ltsk (Bool.eq_false_iff.mpr hl)] at hsave
      exact trapReturn_ends ht hsave
  · exact .of_ok (.of_mem rfl)

/-! ## Every instruction -/

theorem effect_leaves_byte {i : Instr} (hb : OutsideStores i s b) : Leaves (ByteKept b s) (effect i s) := by
  cases i with
  | cpr op1 op2 => exact .bind fun _ _ => .bind fun _ _ => copyTo_leaves_byte _ _ hb.word
  | cpl op1 op2 => exact .bind fun _ _ => copyTo_leaves_byte _ _ hb.word
  | cpf op1 op2 => exact cpfEffect_leaves_byte _ hb.word
  | cpx op1 op2 => exact cpxEffect_leaves_byte _ hb.word
  | cmp op1 op2 => exact cmpEffect_leaves_byte ..
  | jmp op1 => exact .bind fun _ _ => .of_ok (.of_mem rfl)
  | call op1 => exact .bind fun _ _ => .bind fun p hp => .of_ok (.of_storeWord (hb.word _ p rfl hp) rfl)
  | ret => exact .bind fun _ _ => .of_ok (.of_mem rfl)
  | arth op1 op2 => exact arthEffect_leaves_byte ..
  | lgic op1 op2 =>
    exact .bind fun _ _ => .bind fun _ _ => .bind fun _ _ => .bind fun _ _ => .of_ok (.of_mem rfl)
  | intr op1 => exact (intrEffect_ends hb).leaves
  | rsv => exact .of_ok (.of_mem rfl)
  | nop => exact .of_ok (.of_mem rfl)
  | ltsk => exact (ltskEffect_ends hb).leaves

/-! ## What a fault leaves of memory and addresses -/

/-- A fault but MachineCheck is raised before anything that decides an address has changed (R108). -/
theorem RuleFault.sameAddresses {i : Instr} {k : FaultKind} {u : State} (h : RuleFault i s k u)
    (hk : k ≠ .machineCheck) : SameAddresses s u := by
  cases h with
  | address _ hl => exact .of_sameButLatches hl
  | port => exact ⟨rfl, fun _ => rfl, fun _ _ => rfl⟩
  | machineCheck _ _ => exact absurd rfl hk
  | _ => exact .refl s

theorem RuleFault.of_machineCheck {i : Instr} {u : State} (h : RuleFault i s .machineCheck u) :
    i = .ltsk ∨ ∃ v, i = .intr (.lit v) := by
  cases h with
  | address hk _ => simp at hk
  | divisor hk => simp at hk
  | machineCheck hi _ => exact hi

/-- MachineCheck is raised by a task switch, which may have saved a context, or by the timer pool (R205, R223). -/
theorem effect_raises_byte {i : Instr} (hb : OutsideStores i s b) :
    RaisesOnly (fun _ => ByteKept b s) (effect i s) := by
  refine ⟨fun k u h => ?_⟩
  have hfault := (effect_ruleFault i s).fault k u h
  by_cases hk : k = .machineCheck
  · subst hk
    rcases hfault.of_machineCheck with rfl | ⟨v, rfl⟩
    · exact (ltskEffect_ends hb).raises.fault _ u h
    · exact (intrEffect_ends hb).raises.fault _ u h
  · exact (hfault.sameAddresses hk).bytes b

theorem ltskEffect_raise {k : FaultKind} {u : State} (h : ltskEffect s = .error (.raise k u))
    (hk : k ≠ .machineCheck) : s.lowered = true := by
  unfold ltskEffect at h
  split at h
  · split at h
    · assumption
    · exact absurd (trapReturn_error h) hk
  · cases h

/-- A fault but MachineCheck that an instruction raises is saved through RCT, the fault of an `ltsk` too (R222). -/
theorem saver_of_raise {i : Instr} {k : FaultKind} {u : State} (h : effect i s = .error (.raise k u))
    (hk : k ≠ .machineCheck) : saver i s = .rct := by
  by_cases hi : i = .ltsk
  · subst hi
    exact saver_of_lowered _ (ltskEffect_raise h hk)
  · exact saver_of_ne_ltsk s hi

theorem exec_byteKept {i : Instr} {t : State} (hb : OutsideStores i s b) (h : exec i s = .next t) : ByteKept b s t := by
  rw [exec_eq_settle_effect] at h
  rcases settle_next h with hok | ⟨k, u, hraise, hfault⟩
  · exact (effect_leaves_byte hb).state t hok
  · by_cases hk : k = .machineCheck
    · subst hk
      cases (takeFault_machineCheck u).symm.trans hfault
      exact (byteAt_of_mem (machineCheck_mem u) b).trans ((effect_raises_byte hb).fault _ u hraise)
    · have hsame := ((effect_ruleFault i s).fault k u hraise).sameAddresses hk
      have hsave := hb.save
      rw [saver_of_raise hraise hk] at hsave
      exact takeFault_byteKept hk hsame hsave hfault

end Byte

/-- Settles O59: what each rule leaves and raises, and what taking its fault saves. -/
theorem memoryChangesOnlyWhereStored : Obligations.MemoryChangesOnlyWhereStored := by
  intro i s t b h hword hbuffer hsave
  exact exec_byteKept ⟨hword, hbuffer, hsave⟩ h

end Sys2Proof.Machine
end

section
/-!
SUPPORT. Where an instruction gives no next state (R76, R110, R282): no check hangs but a translation, and no step is refused.
-/

namespace Sys2Proof.Machine

/-! ## Checks that do not hang -/

section Checks

variable {Q : Prop} (s : State)

theorem regOf_hangs (id : Byte) : HangsOnly Q (regOf s id) := by
  unfold regOf
  split
  · exact .of_ok _
  · exact .raise ..

theorem destOf_hangs (id : Byte) : HangsOnly Q (destOf s id) := by
  rw [destOf_eq]
  split
  · exact .raise ..
  · split
    · exact .of_ok _
    · exact .raise ..

theorem needReg_hangs (op : Operand) : HangsOnly Q (needReg s op) := by
  cases op with
  | reg id => exact .of_ok _
  | lit v => exact .raise ..

theorem needLit_hangs (op : Operand) : HangsOnly Q (needLit s op) := by
  cases op with
  | reg id => exact .raise ..
  | lit v => exact .of_ok _

theorem valueOf_hangs (op : Operand) : HangsOnly Q (valueOf s op) := by
  cases hn : Operand.names op with
  | true => obtain ⟨v, hv⟩ := valueOf_of_names hn s; rw [hv]; exact .of_ok _
  | false => rw [valueOf_of_not_names hn]; exact .raise ..

theorem modeOf_hangs {α : Type} (m : Option α) : HangsOnly Q (modeOf s m) := by
  cases m with
  | none => exact .raise ..
  | some x => exact .of_ok _

theorem ensure_hangs (b : Bool) (k : FaultKind) : HangsOnly Q (ensure b k s) := by
  cases b with
  | false => exact .raise ..
  | true => exact .of_ok _

theorem aluDivide_hangs (op : ArithOp) (ty : IntShape) (a d : Word) (rd : Reg) :
    HangsOnly Q (aluDivide op ty a d rd s) := by
  unfold aluDivide
  split
  · exact .raise ..
  · exact .of_ok _

theorem aluOp_hangs (m : ArithMode) (ty : IntShape) (a d : Word) (rd : Reg) : HangsOnly Q (aluOp m ty a d rd s) := by
  unfold aluOp
  split
  · exact aluDivide_hangs ..
  · exact aluDivide_hangs ..
  · split <;> exact .of_ok _

theorem fpuSingle_hangs (op : ArithOp) (a d : Word) (rd : Reg) : HangsOnly Q (fpuSingle op a d rd s) := by
  unfold fpuSingle
  split
  · exact .raise ..
  · split <;> exact .of_ok _

theorem fpuDoubleOp_hangs (op : ArithOp) (ext : Option Nat) (a d : Word) (rd : Reg) :
    HangsOnly Q (fpuDoubleOp op ext a d rd s) := by
  unfold fpuDoubleOp
  split
  · exact .raise ..
  · simp only
    split <;> exact .of_ok _

theorem arithmetic_hangs (m : ArithMode) (a d : Word) (rd : Reg) : HangsOnly Q (arithmetic m a d rd s) := by
  unfold arithmetic
  split
  · exact aluOp_hangs ..
  · split
    · exact fpuSingle_hangs ..
    · exact fpuDoubleOp_hangs ..

theorem storageTransfer_hangs (write : Bool) (dev off len p : Nat) :
    HangsOnly Q (storageTransfer write dev off len p s) := by
  unfold storageTransfer storageRead storageWrite
  simp only
  split
  · split
    · exact .of_ok _
    · exact .raise ..
  · split
    · exact .of_ok _
    · exact .raise ..

theorem timerArm_hangs (id : Byte) (delay : Word) : HangsOnly Q (timerArm id delay s) := by
  unfold timerArm
  split
  · exact .raise ..
  · exact .of_ok _

theorem vectorInstall_hangs (next : Word) : HangsOnly Q (vectorInstall next s) := by
  unfold vectorInstall
  simp only
  split
  · exact .of_ok _
  · exact .raise ..

end Checks

/-! ## Translations, which do -/

section Instructions

variable {r : Reg} (s : State)

theorem translate_hangs (a : Word) (perm : BitVec 3) : HangsOnly (MeetsEndless s r) (translate s a perm) :=
  ⟨fun h => .inl ⟨a, perm, h⟩⟩

theorem dataAddr_hangs (a : Word) (perm : BitVec 3) : HangsOnly (MeetsEndless s r) (dataAddr s a perm) := by
  unfold dataAddr
  split
  · next e he => exact ⟨fun h => (translate_hangs s a perm).hang (by cases h; exact he)⟩
  · split
    · exact .of_ok _
    · exact .raise ..

theorem copyTo_hangs (v : Word) (op2 : Operand) (next : Word) : HangsOnly (MeetsEndless s r) (copyTo v op2 next s) := by
  cases op2 with
  | reg id2 => exact .bind (destOf_hangs ..) fun _ _ => .of_ok _
  | lit a => exact .bind (dataAddr_hangs ..) fun _ _ => .of_ok _

theorem cpfEffect_hangs (op1 op2 : Operand) : HangsOnly (MeetsEndless s r) (cpfEffect op1 op2 s) := by
  refine .bind (valueOf_hangs ..) fun _ _ => ?_
  cases op2 with
  | reg id2 => exact .bind (destOf_hangs ..) fun _ _ => .bind (dataAddr_hangs ..) fun _ _ => .of_ok _
  | lit a2 => exact .bind (dataAddr_hangs ..) fun _ _ => .bind (dataAddr_hangs ..) fun _ _ => .of_ok _

theorem cmpEffect_hangs (op1 op2 : Operand) : HangsOnly (MeetsEndless s r) (cmpEffect op1 op2 s) := by
  refine .bind (valueOf_hangs ..) fun _ _ => .bind (valueOf_hangs ..) fun _ _ => ?_
  split
  · exact .raise ..
  · exact .of_ok _

theorem storageIo_hangs (next : Word) : HangsOnly (MeetsEndless s r) (storageIo next s) :=
  .bind (translate_hangs ..) fun _ _ => .bind (ensure_hangs ..) fun _ _ =>
    .bind (storageTransfer_hangs ..) fun _ _ => .of_ok _

theorem keyboardVector_hangs (next : Word) : HangsOnly (MeetsEndless s .rct) (keyboardVector next s) := by
  unfold keyboardVector
  split
  · exact .of_ok _
  · exact deliver_hangs _ _ (.withKbd_set_rip ..)

theorem timerVector_hangs (next : Word) : HangsOnly (MeetsEndless s .rct) (timerVector next s) := by
  unfold timerVector
  split
  · exact .of_ok _
  · exact deliver_hangs _ _ (.withTmr_set_rip ..)

theorem inlineEffect_hangs (f : InlineVector) (next : Word) :
    HangsOnly (MeetsEndless s .rct) (inlineEffect f next s) := by
  cases f with
  | install => exact vectorInstall_hangs ..
  | halt => exact .of_ok _
  | keyboard => exact keyboardVector_hangs ..
  | display => exact .of_ok _
  | storage => exact storageIo_hangs ..
  | invalidate => exact .of_ok _
  | timerArm => exact .bind (timerArm_hangs ..) fun _ _ => .of_ok _
  | timerExpired => exact timerVector_hangs ..

theorem intrEffect_hangs (op1 : Operand) : HangsOnly (MeetsEndless s .rct) (intrEffect op1 s) := by
  refine .bind (needLit_hangs ..) fun v _ => ?_
  split
  · split
    · exact .raise ..
    · exact inlineEffect_hangs ..
  · exact dispatchVectored_hangs ..

theorem ltskEffect_hangs : HangsOnly (MeetsEndless s (saver .ltsk s)) (ltskEffect s) := by
  unfold ltskEffect
  split
  · next ht =>
    split
    · exact .raise ..
    · next hl =>
      rw [saver_ltsk (Bool.eq_false_iff.mpr hl)]
      exact trapReturn_hangs ht
  · exact .of_ok _

/-- An instruction's rule hangs in a translation of the state it found, or in its own task switch (R76, R282). -/
theorem effect_hangs (i : Instr) : HangsOnly (MeetsEndless s (saver i s)) (effect i s) := by
  cases i with
  | cpr op1 op2 => exact .bind (needReg_hangs ..) fun _ _ => .bind (regOf_hangs ..) fun _ _ => copyTo_hangs ..
  | cpl op1 op2 => exact .bind (needLit_hangs ..) fun _ _ => copyTo_hangs ..
  | cpf op1 op2 => exact cpfEffect_hangs ..
  | cpx op1 op2 =>
    exact .bind (needReg_hangs ..) fun _ _ => .bind (needReg_hangs ..) fun _ _ => .bind (regOf_hangs ..) fun _ _ =>
      .bind (regOf_hangs ..) fun _ _ => .bind (dataAddr_hangs ..) fun _ _ => .of_ok _
  | cmp op1 op2 => exact cmpEffect_hangs ..
  | jmp op1 => exact .bind (valueOf_hangs ..) fun _ _ => .of_ok _
  | call op1 => exact .bind (valueOf_hangs ..) fun _ _ => .bind (dataAddr_hangs ..) fun _ _ => .of_ok _
  | ret => exact .bind (dataAddr_hangs ..) fun _ _ => .of_ok _
  | arth op1 op2 =>
    exact .bind (needReg_hangs ..) fun _ _ => .bind (valueOf_hangs ..) fun _ _ => .bind (destOf_hangs ..) fun _ _ =>
      .bind (modeOf_hangs ..) fun _ _ => .bind (arithmetic_hangs ..) fun _ _ => .of_ok _
  | lgic op1 op2 =>
    exact .bind (needReg_hangs ..) fun _ _ => .bind (valueOf_hangs ..) fun _ _ => .bind (destOf_hangs ..) fun _ _ =>
      .bind (modeOf_hangs ..) fun _ _ => .of_ok _
  | intr op1 =>
    rw [saver_of_ne_ltsk s (i := .intr op1) (by simp)]
    exact intrEffect_hangs ..
  | rsv => exact .of_ok _
  | nop => exact .of_ok _
  | ltsk => exact ltskEffect_hangs s

/-- An instruction gives its next state unless its rule, or the task switch of its fault, hangs (R222, R282). -/
theorem exec_not_next {i : Instr} {s : State} (h : ∀ t, exec i s ≠ .next t) :
    exec i s = .fault .pageWalkHang ∧ MeetsEndless s (saver i s) := by
  rw [exec_eq_settle_effect] at h ⊢
  match he : effect i s with
  | .ok t => exact absurd (by rw [he, settle_ok]) (h t)
  | .error .hang => exact ⟨settle_hang, (effect_hangs s i).hang he⟩
  | .error (.raise k u) =>
    rw [he, settle_error] at h
    obtain ⟨hk, hswitch, hanswer⟩ := takeFault_not_next h
    have hsame := ((effect_ruleFault i s).fault k u he).sameAddresses hk
    rw [saver_of_raise he hk]
    exact ⟨hanswer, (trapSwitch_hangs hsame).hang hswitch⟩

end Instructions

/-! ## No step is refused -/

section Refused

variable (r : Refusal)

theorem exec_ne_refused (i : Instr) (s : State) : exec i s ≠ .refused r := by
  rw [exec_eq_settle_effect]
  exact settle_ne_refused _ r

theorem fetchAndExecute_ne_refused (s : State) : fetchAndExecute s ≠ .refused r := by
  unfold fetchAndExecute
  split
  · exact exec_ne_refused r _ s
  · exact settle_ne_refused _ r

theorem drainKeys_ne_refused (keys : List Word) (s : State) : drainKeys keys s ≠ .refused r := by
  induction keys generalizing s with
  | nil => exact nofun
  | cons c rest ih =>
    rw [drainKeys]
    split
    · split
      · exact ih _
      · exact settle_ne_refused _ r
    · exact nofun

theorem drainTimers_ne_refused (ids : List Byte) (s : State) : drainTimers ids s ≠ .refused r := by
  induction ids generalizing s with
  | nil => exact nofun
  | cons c rest ih =>
    rw [drainTimers]
    split
    · split
      · exact ih _
      · exact settle_ne_refused _ r
    · exact nofun

theorem poll_ne_refused (s : State) : poll s ≠ .refused r := by
  unfold poll
  split
  · exact drainTimers_ne_refused r _ _
  · exact drainKeys_ne_refused r _ _

theorem step_ne_refused (s : State) : step s ≠ .refused r := by
  by_cases hr : s.run = .running
  · rw [step_running hr]
    match he : fetchAndExecute (arriveBefore s) with
    | .next u => exact poll_ne_refused r _
    | .fault _ => exact nofun
    | .refused r' => exact absurd he (fetchAndExecute_ne_refused r' _)
  · rw [step_not_running hr]
    exact nofun

end Refused

/-- Settles O60: what an instruction without a next state has met, which takes paging, and that no part of a step refuses. -/
theorem onlyEndlessPageListsHang : Obligations.OnlyEndlessPageListsHang := by
  refine ⟨fun s r => step_ne_refused r s, fun i s hp => ?_, fun i s h => ?_⟩
  · by_contra hnext
    have hmeets := (exec_not_next (not_exists.mp hnext)).2
    exact absurd (hp.symm.trans hmeets.paging) Bool.false_ne_true
  · obtain ⟨hhang, hmeets⟩ := exec_not_next h
    exact ⟨hhang, hmeets.paging, hmeets⟩

end Sys2Proof.Machine
end

section
/-!
SUPPORT. What a decoded instruction has to do with the bytes it was read from (R101 to R105, R111): its opcode, its operands, its
literal words, and the instruction word under the mask of the fields that are read.
-/

namespace Sys2Proof.Machine

/-! ## The fields of the instruction word under a mask -/

theorem joinBytes_fields (iw : Word) :
    joinBytes (iw.extractLsb' 24 8) (id2Field iw) (id1Field iw) (opcodeField iw) = iw := joinBytes_wordBytes iw

theorem joinBytes_and (a3 a2 a1 a0 b3 b2 b1 b0 : Byte) :
    joinBytes a3 a2 a1 a0 &&& joinBytes b3 b2 b1 b0 = joinBytes (a3 &&& b3) (a2 &&& b2) (a1 &&& b1) (a0 &&& b0) := by
  apply BitVec.eq_of_getLsbD_eq; intro j _
  simp only [BitVec.getLsbD_and, getLsbD_joinBytes]
  split_ifs <;> rfl

/-- Masking a word with whole bytes masks the fields of R101. -/
theorem and_joinBytes (iw : Word) (b3 b2 b1 b0 : Byte) :
    iw &&& joinBytes b3 b2 b1 b0 =
      joinBytes (iw.extractLsb' 24 8 &&& b3) (id2Field iw &&& b2) (id1Field iw &&& b1) (opcodeField iw &&& b0) := by
  rw [← joinBytes_and, joinBytes_fields]

/-- The mask of a whole field keeps it. -/
theorem byte_and_ones (b : Byte) : b &&& 255#8 = b := BitVec.and_allOnes

theorem and_opcodeMask (iw : Word) : iw &&& 0x000000FF = joinBytes 0 0 0 (opcodeField iw) := by
  have hmask : (0x000000FF : Word) = joinBytes 0 0 0 (BitVec.allOnes 8) := by decide
  simp [hmask, and_joinBytes, byte_and_ones]

theorem and_oneOperandMask (iw : Word) : iw &&& 0x0000FFFF = joinBytes 0 0 (id1Field iw) (opcodeField iw) := by
  have hmask : (0x0000FFFF : Word) = joinBytes 0 0 (BitVec.allOnes 8) (BitVec.allOnes 8) := by decide
  simp [hmask, and_joinBytes, byte_and_ones]

theorem and_twoOperandMask (iw : Word) :
    iw &&& 0x00FFFFFF = joinBytes 0 (id2Field iw) (id1Field iw) (opcodeField iw) := by
  have hmask : (0x00FFFFFF : Word) = joinBytes 0 (BitVec.allOnes 8) (BitVec.allOnes 8) (BitVec.allOnes 8) := by decide
  simp [hmask, and_joinBytes, byte_and_ones]

/-! ## What the decoder has read -/

/-- The instruction `i` accounts for the instruction word `iw` and for the bytes `rest` after it, up to `rest'`. -/
structure ReadFrom (iw : Word) (rest : List Byte) (i : Instr) (rest' : List Byte) : Prop where
  /-- the opcode id is that of the instruction (R110) -/
  opcode : opcodeField iw = opcodeOf i
  /-- a register operand's id is not zero (R102) -/
  wellFormed : i.wellFormed = true
  /-- the literal words come next, operand 1's first (R104) -/
  literals : rest = literalBytes i.operands ++ rest'
  /-- the fields read are those the encoder writes (R101, R103) -/
  word : instrWord i = iw &&& fieldMask i

section Shapes

variable {iw : Word} {rest rest' : List Byte} {i : Instr}

theorem ReadFrom.of_takeTwo {mk : Operand → Operand → Instr} (h : takeTwo mk iw rest = .ok (i, rest'))
    (hopc : ∀ a b, (opcodeField iw).toNat = (opcodeOf (mk a b)).toNat) (hops : ∀ a b, (mk a b).operands = [a, b]) :
    ReadFrom iw rest i rest' := by
  obtain ⟨a, b, rfl, hrest, ha, hb, hid1, hid2, -⟩ := takeTwo_ok h
  have hop : opcodeField iw = opcodeOf (mk a b) := BitVec.eq_of_toNat_eq (hopc a b)
  have hmask : fieldMask (mk a b) = 0x00FFFFFF := by rw [fieldMask, hops]; rfl
  refine ⟨hop, by simp [Instr.wellFormed, hops, ha, hb], by simpa [literalBytes, hops] using hrest, ?_⟩
  rw [hmask, and_twoOperandMask, instrWord, hops, ← hid1, ← hid2, hop]
  rfl

theorem ReadFrom.of_takeOne {mk : Operand → Instr} (h : takeOne mk iw rest = .ok (i, rest'))
    (hopc : ∀ a, (opcodeField iw).toNat = (opcodeOf (mk a)).toNat) (hops : ∀ a, (mk a).operands = [a]) :
    ReadFrom iw rest i rest' := by
  obtain ⟨a, rfl, hrest, ha, hid1, -⟩ := takeOne_ok h
  have hop : opcodeField iw = opcodeOf (mk a) := BitVec.eq_of_toNat_eq (hopc a)
  have hmask : fieldMask (mk a) = 0x0000FFFF := by rw [fieldMask, hops]; rfl
  refine ⟨hop, by simp [Instr.wellFormed, hops, ha], by simpa [literalBytes, hops] using hrest, ?_⟩
  rw [hmask, and_oneOperandMask, instrWord, hops, ← hid1, hop]
  rfl

theorem ReadFrom.of_noOperands (hopc : (opcodeField iw).toNat = (opcodeOf i).toNat) (hops : i.operands = []) :
    ReadFrom iw rest i rest := by
  have hop : opcodeField iw = opcodeOf i := BitVec.eq_of_toNat_eq hopc
  have hmask : fieldMask i = 0x000000FF := by rw [fieldMask, hops]; rfl
  refine ⟨hop, by simp [Instr.wellFormed, hops], by simp [literalBytes, hops], ?_⟩
  rw [hmask, and_opcodeMask, instrWord, hops, hop]
  rfl

/-- Everything the decoder answers, by the number of operands its opcode takes (R103, R110). -/
theorem decodeWord_readFrom (h : decodeWord iw rest = .ok (i, rest')) : ReadFrom iw rest i rest' := by
  unfold decodeWord at h
  split at h
  case h_6 hn | h_7 hn | h_11 hn => exact .of_takeOne h (fun _ => hn) fun _ => rfl
  case h_8 hn | h_12 hn | h_13 hn | h_14 hn => cases h; exact .of_noOperands hn rfl
  case h_15 => cases h
  all_goals next hn => exact .of_takeTwo h (fun _ _ => hn) fun _ _ => rfl

theorem decode_ok {bytes : List Byte} (h : decode bytes = .ok (i, rest')) :
    ∃ iw rest, takeWord bytes = some (iw, rest) ∧ decodeWord iw rest = .ok (i, rest') := by
  unfold decode at h
  split at h
  · cases h
  · next iw rest hw => exact ⟨iw, rest, hw, h⟩

end Shapes

/-- The literal words are what an instruction's size counts beside its instruction word (R105). -/
theorem literalBytes_length (i : Instr) : (literalBytes i.operands).length + 4 = i.size.toNat := by
  rw [← encodeBytes_length, encodeBytes_eq, List.length_append, wordBytes_length, Nat.add_comm]

/-- Settles O1: the decoder takes back the instruction word's fields, then each operand with its literal. -/
theorem decodeInvertsEncode : Obligations.DecodeInvertsEncode := fun _ rest hw => decode_encodeBytes rest hw

/-- Settles O2: the body is the literal words of the instruction read, and the encoder's word is the masked one. -/
theorem decodedBytesAreTheEncoding : Obligations.DecodedBytesAreTheEncoding := by
  intro bytes i rest h
  obtain ⟨iw, after, hword, hdecode⟩ := decode_ok h
  have hread := decodeWord_readFrom hdecode
  refine ⟨hread.wellFormed, iw, literalBytes i.operands, ?_, literalBytes_length i, ?_⟩
  · rw [hword, hread.literals]
  · rw [encodeBytes_eq, hread.word]

/-- Settles O4, each row by evaluating the decoder. -/
theorem workedEncodingsDecode : Obligations.WorkedEncodingsDecode := by
  unfold Obligations.WorkedEncodingsDecode
  decide

/-! ## Which words are no instruction -/

theorem opcodeField_toNat (iw : Word) : (opcodeField iw).toNat = iw.toNat % 256 := by
  rw [opcodeField, extractLsb'_toNat_eq, Nat.pow_zero, Nat.div_one]
  rfl

section Total

variable {rest : List Byte}

/-- An operand can be taken wherever there is room for a literal. -/
theorem takeOperand_of_length (id : Byte) (h : 4 ≤ rest.length) :
    ∃ op rest', takeOperand id rest = .ok (op, rest') ∧ rest.length ≤ rest'.length + 4 := by
  unfold takeOperand
  split
  · match rest, h with
    | b3 :: b2 :: b1 :: b0 :: tail, _ => exact ⟨_, tail, rfl, Nat.le_refl _⟩
  · exact ⟨_, rest, rfl, Nat.le_add_right ..⟩

theorem takeTwo_of_length (mk : Operand → Operand → Instr) (iw : Word) (h : 8 ≤ rest.length) :
    ∃ i rest', takeTwo mk iw rest = .ok (i, rest') := by
  obtain ⟨a, rest1, ha, hlen⟩ := takeOperand_of_length (id1Field iw) (rest := rest) (by omega)
  obtain ⟨b, rest2, hb, -⟩ := takeOperand_of_length (id2Field iw) (rest := rest1) (by omega)
  exact ⟨mk a b, rest2, by simp only [takeTwo, ha, hb]⟩

theorem takeOne_of_length (mk : Operand → Instr) (iw : Word) (h : 8 ≤ rest.length) :
    ∃ i rest', takeOne mk iw rest = .ok (i, rest') := by
  obtain ⟨a, rest1, ha, -⟩ := takeOperand_of_length (id1Field iw) (rest := rest) (by omega)
  exact ⟨mk a, rest1, by simp only [takeOne, ha]⟩

/-- With room for two literals, every opcode id of the table gives an instruction (R110, R111). -/
theorem decodeWord_of_legal {iw : Word} (hlen : 8 ≤ rest.length) (h1 : 1 ≤ (opcodeField iw).toNat)
    (h14 : (opcodeField iw).toNat ≤ 14) : ∃ i rest', decodeWord iw rest = .ok (i, rest') := by
  unfold decodeWord
  split
  case h_6 | h_7 | h_11 => exact takeOne_of_length _ iw hlen
  case h_8 | h_12 | h_13 | h_14 => exact ⟨_, rest, rfl⟩
  case h_15 =>
    simp only [imp_false] at *
    omega
  all_goals exact takeTwo_of_length _ iw hlen

end Total

theorem decode_of_legal {iw : Word} {rest : List Byte} (hlen : 8 ≤ rest.length) (h1 : 1 ≤ iw.toNat % 256)
    (h14 : iw.toNat % 256 ≤ 14) :
    ∃ i rest', decode (wordBytes iw ++ rest) = .ok (i, rest') ∧ (opcodeOf i).toNat = iw.toNat % 256 := by
  rw [← opcodeField_toNat] at h1 h14 ⊢
  obtain ⟨i, rest', h⟩ := decodeWord_of_legal hlen h1 h14
  refine ⟨i, rest', ?_, by rw [(decodeWord_readFrom h).opcode]⟩
  rw [decode, takeWord_wordBytes]
  exact h

theorem operandCount_of_illegal {opc : Byte} (h : opc.toNat = 0 ∨ 14 < opc.toNat) : operandCount opc = none := by
  unfold operandCount
  split
  case h_15 => rfl
  all_goals omega

theorem literalWords_of_illegal {iw : Word} (h : iw.toNat % 256 = 0 ∨ 14 < iw.toNat % 256) : literalWords iw = none := by
  rw [← opcodeField_toNat] at h
  rw [literalWords, operandCount_of_illegal h]

end Sys2Proof.Machine
end

section
/-!
SUPPORT. The faults of the fetch (R100, R108 checks 1 to 3), one equation each in the order of the checks.
-/

namespace Sys2Proof.Machine

section Fetch

variable {s : State} {p : Word}

theorem fetch_of_translate_error {t : Trap} (ht : translate s (s.get .rip) permX = .error t) : fetch s = .error t := by
  rw [fetch, ht]

theorem fetch_of_word_outside (ht : translate s (s.get .rip) permX = .ok p) (hz : inZone s.cfg p.toNat 4 = false) :
    fetch s = raise .badMemory s := by
  simp [fetch, ht, hz]

theorem fetch_of_illegal (ht : translate s (s.get .rip) permX = .ok p) (hz : inZone s.cfg p.toNat 4 = true)
    (hn : literalWords (s.wordAt p.toNat) = none) : fetch s = raise .illegalInstruction s := by
  simp [fetch, ht, hz, hn]

theorem fetch_of_literals_outside {n : Nat} (ht : translate s (s.get .rip) permX = .ok p)
    (hz : inZone s.cfg p.toNat 4 = true) (hn : literalWords (s.wordAt p.toNat) = some n)
    (hlit : inZone s.cfg p.toNat (4 * (1 + n)) = false) : fetch s = raise .badMemory s := by
  simp [fetch, ht, hz, hn, hlit]

/-- A fault of the fetch is taken in the state it is raised in (R100). -/
theorem fetchAndExecute_of_raise {u : State} {k : FaultKind} (h : fetch s = raise k u) :
    fetchAndExecute s = takeFault k u := by
  rw [fetchAndExecute, h]
  rfl

end Fetch

/-- Settles O3: the fetch stops at an opcode outside the table, and the decoder answers for each opcode in it. -/
theorem illegalOpcodesExactly : Obligations.IllegalOpcodesExactly :=
  ⟨fun _ _ ht hz hop => fetchAndExecute_of_raise (fetch_of_illegal ht hz (literalWords_of_illegal hop)),
    fun _ _ hlen h1 h14 => decode_of_legal hlen h1 h14⟩

/-- Settles O9: each fault of the fetch from the check that raises it. -/
theorem fetchFaultsAreTaken : Obligations.FetchFaultsAreTaken :=
  ⟨fun _ _ _ ht => fetchAndExecute_of_raise (fetch_of_translate_error ht),
    fun _ _ ht hz => fetchAndExecute_of_raise (fetch_of_word_outside ht hz),
    fun _ _ _ ht hz hn hlit => fetchAndExecute_of_raise (fetch_of_literals_outside ht hz hn hlit)⟩

end Sys2Proof.Machine
end

section
/-!
SUPPORT. The checks of an instruction in their order (R108): operand kinds before everything else (R113), the mode register once
operands and level are in order, and nothing written where a fault is raised.
-/

namespace Sys2Proof.Machine

/-! ## Operand kinds -/

section Kinds

variable {α : Type} {s : State}

theorem needReg_bind_badOperandValue {op : Operand} {f : Byte → Check α}
    (h : Operand.isReg op = true → ∀ id, f id = raise .badOperandValue s) :
    (needReg s op >>= f) = raise .badOperandValue s := by
  cases op with
  | reg id => exact h rfl id
  | lit v => rfl

theorem needLit_bind_badOperandValue {op : Operand} (f : Word → Check α) (h : Operand.isReg op = true) :
    (needLit s op >>= f) = raise .badOperandValue s := by
  cases op with
  | reg id => rfl
  | lit v => cases h

end Kinds

/-- A kind outside the table of R113 is found before any other check, whichever operand it is. -/
theorem effect_badOperandValue {i : Instr} (s : State) (h : kindsAccepted i = false) :
    effect i s = raise .badOperandValue s := by
  cases i with
  | cpr op1 op2 => exact needReg_bind_badOperandValue fun h1 _ => absurd h1 (Bool.eq_false_iff.mp h)
  | cpl op1 op2 => exact needLit_bind_badOperandValue _ (by simpa [kindsAccepted] using h)
  | cpx op1 op2 =>
    refine needReg_bind_badOperandValue fun h1 _ => needReg_bind_badOperandValue fun h2 _ => ?_
    simp [kindsAccepted, h1, h2] at h
  | arth op1 op2 => exact needReg_bind_badOperandValue fun h2 _ => absurd h2 (Bool.eq_false_iff.mp h)
  | lgic op1 op2 => exact needReg_bind_badOperandValue fun h2 _ => absurd h2 (Bool.eq_false_iff.mp h)
  | intr op1 => exact needLit_bind_badOperandValue _ (by simpa [kindsAccepted] using h)
  | cpf op1 op2 => cases h
  | cmp op1 op2 => cases h
  | jmp op1 => cases h
  | call op1 => cases h
  | ret => cases h
  | rsv => cases h
  | nop => cases h
  | ltsk => cases h

/-- Settles O13: the check of the kinds comes first, and of a rule's faults only it is BadOperandValue. -/
theorem wrongOperandKindExactly : Obligations.WrongOperandKindExactly := by
  refine fun i s => ⟨fun hk => exec_of_raise (effect_badOperandValue s hk), fun hk t h => ?_⟩
  cases (effect_ruleFault i s).fault _ _ h with
  | operandKind hbad => exact absurd (hk.symm.trans hbad) (by decide)
  | address hk _ => simp at hk
  | divisor hk => simp at hk

/-! ## What a fault finds written -/

/-- Everything but the latches of R42 and the host's answers to storage transfers is as the instruction found it. -/
def WroteNothing (s t : State) : Prop :=
  t = { s with fltAddr := t.fltAddr, fltPerm := t.fltPerm, storageErrors := t.storageErrors }

theorem WroteNothing.refl (s : State) : WroteNothing s s := rfl

theorem WroteNothing.of_sameButLatches {s t : State} (h : SameButLatches s t) : WroteNothing s t := by
  rw [h]
  rfl

/-- A fault other than MachineCheck is raised before the first write (R108, R221). -/
theorem RuleFault.wroteNothing {i : Instr} {s t : State} {k : FaultKind} (h : RuleFault i s k t)
    (hk : k ≠ .machineCheck) : WroteNothing s t := by
  cases h with
  | address _ ht => exact .of_sameButLatches ht
  | port => rfl
  | machineCheck _ _ => exact absurd rfl hk
  | operandKind _ => exact .refl _
  | register _ => exact .refl _
  | privilege _ _ => exact .refl _
  | mode => exact .refl _
  | divisor _ => exact .refl _
  | vector => exact .refl _

/-- Settles O15: read off the faults a rule can raise. -/
theorem faultingInstructionWritesNothing : Obligations.FaultingInstructionWritesNothing := by
  intro i s t k h
  have hfault := (effect_ruleFault i s).fault k t h
  refine ⟨hfault.wroteNothing, ?_⟩
  rintro rfl
  exact hfault.of_machineCheck

/-! ## Invalid mode registers -/

section Modes

variable {s : State} {op1 op2 : Operand} {a b : Word} {id2 : Byte} {rd : Reg}

theorem relationOf_of_invalid {m : Word} (h : m.toNat % 8 = 0 ∨ m.toNat % 8 = 7) : relationOf m = none := by
  have hfield : (m.extractLsb' 0 3).toNat = m.toNat % 8 := by
    rw [extractLsb'_toNat_eq, Nat.pow_zero, Nat.div_one]
    rfl
  rcases h with h | h <;> simp [relationOf, hfield, h]

theorem cmpEffect_badMode (ha : valueOf s op1 = .ok a) (hb : valueOf s op2 = .ok b)
    (hm : relationOf (s.get .rcmp) = none) : cmpEffect op1 op2 s = raise .badRegisterValue s := by
  simp [cmpEffect, ha, hb, hm]

theorem arthEffect_badMode (ha : valueOf s op1 = .ok a) (hd : destOf s id2 = .ok rd)
    (hm : arithMode (s.get .rarth) = none) : arthEffect op1 (.reg id2) s = raise .badRegisterValue s := by
  simp [arthEffect, needReg, ha, hd, hm, modeOf]

theorem lgicEffect_badMode (ha : valueOf s op1 = .ok a) (hd : destOf s id2 = .ok rd)
    (hm : logicMode (s.get .rlgic) = none) : lgicEffect op1 (.reg id2) s = raise .badRegisterValue s := by
  simp [lgicEffect, needReg, ha, hd, hm, modeOf]

end Modes

/-- Settles O16: with operands and level in order, the mode is the next check of each of the three rules. -/
theorem invalidModeRaisesBadRegisterValue : Obligations.InvalidModeRaisesBadRegisterValue :=
  ⟨fun _ _ _ _ _ ha hb hm => exec_of_raise (cmpEffect_badMode ha hb (relationOf_of_invalid hm)),
    fun _ _ _ _ _ ha hd hw hm => exec_of_raise (arthEffect_badMode ha (destOf_ok hd hw) hm),
    fun _ _ _ _ _ ha hd hw hm => exec_of_raise (lgicEffect_badMode ha (destOf_ok hd hw) hm)⟩

end Sys2Proof.Machine
end

section
/-!
SUPPORT. The copies (R130 to R134) by way of `copyTo`: once its operands are read, each of the four copies is a copy of one value to
a register or to a literal address, so what that copy leaves is said once for all of them.
-/

namespace Sys2Proof.Machine

/-! ## The four rules as one copy -/

section Rules

variable {s : State} {op1 : Operand} {id1 id2 : Byte} {ra rb : Reg} {sa : Word} {ps : Nat}

theorem effect_cpr (op2 : Operand) (h1 : decodeReg id1 = some ra) :
    effect (.cpr (.reg id1) op2) s =
      copyTo (s.get ra) op2 (s.get .rip + (Instr.cpr (.reg id1) op2).size) s := by
  simp only [effect, cprEffect, needReg, regOf_some h1, Check.bind_ok]
  rfl

theorem effect_cpl (v : Word) (op2 : Operand) (s : State) :
    effect (.cpl (.lit v) op2) s = copyTo v op2 (s.get .rip + (Instr.cpl (.lit v) op2).size) s := rfl

/-- The source word is read in the state found, whatever the destination is (R133). -/
theorem effect_cpf (op2 : Operand) (h1 : valueOf s op1 = .ok sa) (hs : dataAddr s sa permR = .ok ps) :
    effect (.cpf op1 op2) s = copyTo (s.wordAt ps) op2 (s.get .rip + (Instr.cpf op1 op2).size) s := by
  cases op2 with
  | reg id2 => simp only [effect, cpfEffect, copyTo, h1, hs, Check.bind_ok]; rfl
  | lit a2 => simp only [effect, cpfEffect, copyTo, h1, hs, Check.bind_ok]; rfl

/-- The register operand 2 gives the address that `cpr` takes from a literal (R134). -/
theorem effect_cpx (h1 : decodeReg id1 = some ra) (h2 : decodeReg id2 = some rb) :
    effect (.cpx (.reg id1) (.reg id2)) s =
      copyTo (s.get ra) (.lit (s.get rb)) (s.get .rip + (Instr.cpx (.reg id1) (.reg id2)).size) s := by
  simp only [effect, cpxEffect, copyTo, needReg, regOf_some h1, regOf_some h2, Check.bind_ok]
  rfl

end Rules

/-! ## What one copy leaves -/

section Copy

variable {i : Instr} {s u : State} {v a : Word} {id2 : Byte} {rb : Reg} {p : Nat} {k : FaultKind}

theorem WritesRegister.of_copyTo (he : effect i s = copyTo v (.reg id2) (s.get .rip + i.size) s)
    (hd : decodeReg id2 = some rb) (hw : canWrite s.lowered rb = true) : WritesRegister i s rb v := by
  refine .of_effect (decodeReg_ne_rip hd) ?_
  rw [he, copyTo, destOf_ok hd hw, Check.bind_ok]

theorem WritesWord.of_copyTo (he : effect i s = copyTo v (.lit a) (s.get .rip + i.size) s)
    (hp : dataAddr s a permW = .ok p) : WritesWord i s p v := by
  refine .of_effect ?_
  rw [he, copyTo, hp, Check.bind_ok]

theorem exec_of_copyTo_raise (he : effect i s = copyTo v (.lit a) (s.get .rip + i.size) s)
    (hp : dataAddr s a permW = .error (.raise k u)) : exec i s = takeFault k u := by
  refine exec_of_raise ?_
  rw [he, copyTo, hp, Check.bind_error, raise]

end Copy

/-! ## A source address that does not resolve -/

section Source

variable {s u : State} {op1 : Operand} {sa : Word} {id2 : Byte} {rb : Reg} {k : FaultKind}

/-- A destination register is checked before the source address (R108 checks 5, 6 and 8). -/
theorem effect_cpf_reg_of_raise (h1 : valueOf s op1 = .ok sa) (hd : destOf s id2 = .ok rb)
    (hs : dataAddr s sa permR = .error (.raise k u)) : effect (.cpf op1 (.reg id2)) s = raise k u := by
  simp only [effect, cpfEffect, h1, hd, hs, Check.bind_ok, Check.bind_error, raise]

/-- The source address is translated before the destination address, which is not looked at (R133). -/
theorem effect_cpf_lit_of_raise (a2 : Word) (h1 : valueOf s op1 = .ok sa)
    (hs : dataAddr s sa permR = .error (.raise k u)) : effect (.cpf op1 (.lit a2)) s = raise k u := by
  simp only [effect, cpfEffect, h1, hs, Check.bind_ok, Check.bind_error, raise]

end Source

/-- Settles O10: both rules are the one copy to the register. -/
theorem copyWritesRegister : Obligations.CopyWritesRegister :=
  fun s _ _ hd hw =>
    ⟨fun _ _ h1 => .of_copyTo (effect_cpr _ h1) hd hw, fun v => .of_copyTo (effect_cpl v _ s) hd hw⟩

/-- Settles O11: with the source read, `cpf` is the copy of its word; without it, the source's fault comes before the copy. -/
theorem copyFromMemory : Obligations.CopyFromMemory := by
  refine ⟨fun s op1 sa id2 rb p h1 hd hw hs => ?_, fun s op1 sa a2 ps pd h1 hs hp => ?_,
    fun s u op1 sa k h1 hs => ⟨fun id2 rb hd hw => ?_, fun a2 => ?_⟩, fun s u op1 sa a2 ps k h1 hs hp => ?_⟩
  · exact .of_copyTo (effect_cpf _ h1 hs) hd hw
  · exact .of_copyTo (effect_cpf _ h1 hs) hp
  · exact exec_of_raise (effect_cpf_reg_of_raise h1 (destOf_ok hd hw) hs)
  · exact exec_of_raise (effect_cpf_lit_of_raise a2 h1 hs)
  · exact exec_of_copyTo_raise (effect_cpf _ h1 hs) hp

/-- Settles O12: the three stores are the one copy to an address, `cpx` to the address its second register holds. -/
theorem storesWriteOneWord : Obligations.StoresWriteOneWord := by
  refine ⟨fun s id1 ra a p h1 hp => ?_, fun s v a p hp => ?_, fun s id1 id2 ra rb p h1 h2 hp => ?_,
    fun s u a k hp => ⟨fun id1 ra h1 => ?_, fun v => ?_, ?_⟩⟩
  · exact .of_copyTo (effect_cpr _ h1) hp
  · exact .of_copyTo (effect_cpl v _ s) hp
  · exact .of_copyTo (effect_cpx h1 h2) hp
  · exact exec_of_copyTo_raise (effect_cpr _ h1) hp
  · exact exec_of_copyTo_raise (effect_cpl v _ s) hp
  · rintro id1 id2 ra rb h1 h2 rfl
    exact exec_of_copyTo_raise (effect_cpx h1 h2) hp

end Sys2Proof.Machine
end

section
/-!
SUPPORT. Compare and control transfer (R141 to R147): the state each of the four rules leaves, one equation per rule. `cmp` writes
one register besides RIP and `jmp` none, so their frames are those of the laws; `ret` writes RRA and RIP, and `call` does so after
its store.
-/

namespace Sys2Proof.Machine

/-! ## The relations of `cmp` -/

/-- The number RCMP.MODE gives each relation (R33). -/
def Relation.code : Relation → Nat
  | .eq => 1
  | .ne => 2
  | .lt => 3
  | .gt => 4
  | .le => 5
  | .ge => 6

theorem relationOf_of_code {rcmp : Word} {r : Relation} (h : rcmp.toNat % 8 = r.code) : relationOf rcmp = some r := by
  have hfield : (rcmp.extractLsb' 0 3).toNat = r.code := by
    rw [extractLsb'_toNat_eq, Nat.pow_zero, Nat.div_one]
    exact h
  rw [relationOf, hfield]
  cases r <;> rfl

theorem Relation.exists_code {m : Nat} (h1 : 1 ≤ m) (h6 : m ≤ 6) : ∃ r : Relation, r.code = m := by
  interval_cases m
  · exact ⟨.eq, rfl⟩
  · exact ⟨.ne, rfl⟩
  · exact ⟨.lt, rfl⟩
  · exact ⟨.gt, rfl⟩
  · exact ⟨.le, rfl⟩
  · exact ⟨.ge, rfl⟩

theorem Relation.holds_iff_code (r : Relation) (a b : Word) :
    r.holds a b = true ↔
      (r.code = 1 ∧ a.toNat = b.toNat) ∨ (r.code = 2 ∧ a.toNat ≠ b.toNat) ∨ (r.code = 3 ∧ a.toNat < b.toNat) ∨
      (r.code = 4 ∧ b.toNat < a.toNat) ∨ (r.code = 5 ∧ a.toNat ≤ b.toNat) ∨ (r.code = 6 ∧ b.toNat ≤ a.toNat) := by
  cases r <;> simp [Relation.holds, Relation.code]

/-! ## The four rules -/

section Rules

variable {s u : State} {op1 op2 : Operand} {a b : Word} {r : Relation} {p : Nat} {k : FaultKind}

theorem effect_cmp (ha : valueOf s op1 = .ok a) (hb : valueOf s op2 = .ok b) (hr : relationOf (s.get .rcmp) = some r) :
    effect (.cmp op1 op2) s =
      .ok ((s.setRes (r.holds a b)).set .rip (s.get .rip + (Instr.cmp op1 op2).size)) := by
  simp only [effect, cmpEffect, ha, hb, hr, Check.bind_ok]
  rfl

/-- RCMP is the one register `cmp` writes besides RIP, and RES the one bit of it (R141). -/
theorem cmp_writesRegister (ha : valueOf s op1 = .ok a) (hb : valueOf s op2 = .ok b)
    (hr : relationOf (s.get .rcmp) = some r) :
    WritesRegister (.cmp op1 op2) s .rcmp ((s.setRes (r.holds a b)).get .rcmp) := by
  refine .of_effect (by decide) ?_
  rw [effect_cmp ha hb hr, State.setRes, State.get_set_same]

theorem effect_jmp (ha : valueOf s op1 = .ok a) :
    effect (.jmp op1) s = .ok (s.set .rip (if s.res then a else s.get .rip + (Instr.jmp op1).size)) := by
  simp only [effect, jmpEffect, ha, Check.bind_ok]
  rfl

theorem effect_call (ha : valueOf s op1 = .ok a) (hp : dataAddr s (s.get .rra) permW = .ok p) :
    effect (.call op1) s =
      .ok (((s.storeWord p (s.get .rip + (Instr.call op1).size)).set .rra (s.get .rra + 4)).set .rip a) := by
  simp only [effect, callEffect, ha, hp, Check.bind_ok]
  rfl

theorem effect_call_of_raise (ha : valueOf s op1 = .ok a)
    (hp : dataAddr s (s.get .rra) permW = .error (.raise k u)) : effect (.call op1) s = raise k u := by
  simp only [effect, callEffect, ha, hp, Check.bind_ok, Check.bind_error, raise]

theorem effect_ret (hp : dataAddr s (s.get .rra - 4) permR = .ok p) :
    effect .ret s = .ok ((s.set .rra (s.get .rra - 4)).set .rip (s.wordAt p)) := by
  simp only [effect, retEffect, hp, Check.bind_ok]

theorem effect_ret_of_raise (hp : dataAddr s (s.get .rra - 4) permR = .error (.raise k u)) :
    effect .ret s = raise k u := by
  simp only [effect, retEffect, hp, Check.bind_error, raise]

end Rules

/-- A write of one register and of RIP leaves the other registers. -/
theorem SameRegsBut.set_rip (s : State) (r : Reg) (v a : Word) : SameRegsBut s ((s.set r v).set .rip a) [r, .rip] := by
  intro q hq
  simp only [List.mem_cons, List.not_mem_nil, or_false, not_or] at hq
  rw [State.get_set_ne _ _ hq.2, State.get_set_ne _ _ hq.1]

/-- An operand id that names no register faults its instruction, once the operand kinds are accepted (R21). -/
theorem exec_badRegister {i : Instr} {id : Byte} (s : State) (hk : kindsAccepted i = true) (hm : .reg id ∈ i.operands)
    (hid : decodeReg id = none) : exec i s = takeFault .badRegister s := by
  have hn : Operand.names (.reg id) = false := by rw [Operand.names, hid, Option.isSome_none]
  exact exec_of_raise (effect_badRegister s hk (registersNamed_eq_false hm hn))

/-- Settles O17: what `cmp` writes to RCMP is its old value with RES replaced by the relation of MODE's number. -/
theorem compareWritesRelation : Obligations.CompareWritesRelation := by
  intro s op1 op2 a b m ha hb hm h1 h6
  obtain ⟨r, rfl⟩ := Relation.exists_code h1 h6
  obtain ⟨t, hexec, hrcmp, hframe⟩ := cmp_writesRegister ha hb (relationOf_of_code hm.symm)
  refine ⟨t, hexec, ?_, fun j hj => ?_, hframe⟩
  · have hres : t.res = r.holds a b := by rw [State.res, hrcmp, ← State.res, State.setRes_res]
    rw [hres]
    exact r.holds_iff_code a b
  · rw [hrcmp, State.setRes_rcmp s _ hj]

/-- Settles O18: the operand is read before RES is looked at, and RIP alone is written. -/
theorem jumpFollowsResultBit : Obligations.JumpFollowsResultBit :=
  ⟨fun _ _ _ ha => .of_effect (effect_jmp ha),
    fun s _ hid => exec_badRegister s rfl (List.mem_singleton_self _) hid⟩

/-- Settles O19: a store of the word at RRA under two register writes, or the fault of the operand or of the push. -/
theorem callPushesReturnAddress : Obligations.CallPushesReturnAddress := by
  refine ⟨fun s op1 a p ha hp => ?_, fun s id hid => ?_, fun s u op1 a k ha hp => ?_⟩
  · exact ⟨_, exec_of_effect (effect_call ha hp), by simp, by simp, by simp,
      SameRegsBut.set_rip (s.storeWord p _) .rra _ _, fun _ => State.byteAt_storeWord_outside s p _, rfl⟩
  · exact exec_badRegister s rfl (List.mem_singleton_self _) hid
  · exact exec_of_raise (effect_call_of_raise ha hp)

/-- Settles O20: two register writes over the memory found, or the fault of the pop. -/
theorem returnPopsAddress : Obligations.ReturnPopsAddress := by
  refine ⟨fun s p hp => ?_, fun s u k hp => ⟨exec_of_raise (effect_ret_of_raise hp), dataAddr_error hp⟩⟩
  exact ⟨_, exec_of_effect (effect_ret hp), by simp, by simp, SameRegsBut.set_rip s .rra _ _, fun _ => rfl, rfl⟩

/-- Settles O21: the pop's address is the push's, since lowering RRA undoes its advance, and the word there is the one pushed. -/
theorem callThenReturn : Obligations.CallThenReturn := by
  intro s t op1 a p ha hpush hcall hpop
  obtain ⟨t', hcall', hword, hrra, -, hregs, -, -⟩ := callPushesReturnAddress.1 s op1 a p ha hpush
  obtain rfl : t' = t := by
    rw [hcall] at hcall'
    cases hcall'
    rfl
  have hback : t'.get .rra - 4 = s.get .rra := by rw [hrra, BitVec.add_sub_cancel]
  obtain ⟨u, hret, hrip', hrra', hregs', -, -⟩ := returnPopsAddress.1 t' p (by rwa [hback])
  refine ⟨u, hret, hrip'.trans hword, hrra'.trans hback, fun q hq => ?_⟩
  by_cases hqr : q = .rra
  · rw [hqr, hrra', hback]
  · have hq' : q ∉ [Reg.rra, .rip] := by simpa [hqr] using hq
    rw [hregs' q hq', hregs q hq']

end Sys2Proof.Machine
end

section
/-!
SUPPORT. The patterns of a binary format (R170, R171) as numbers. Without its sign, a pattern is a multiple of the weight of the
hidden bit plus a significand, and the numbers of the patterns rise with the patterns; so the order of the patterns and the grid of
numbers of one exponent are all that rounding needs to know of a format.
-/

namespace Sys2Proof.Machine

namespace FloatFormat

/-! ## Magnitudes -/

/-- A format with a hidden bit and a fraction, and with exponents for infinities, subnormals and at least two binades more. -/
structure Proper (f : FloatFormat) : Prop where
  prec : 2 ≤ f.prec
  expBits : 2 ≤ f.expBits

theorem proper_binary32 : binary32.Proper := ⟨by decide, by decide⟩

theorem proper_binary64 : binary64.Proper := ⟨by decide, by decide⟩

/-- The weight of the hidden bit in a significand; the patterns of one exponent are as many. -/
def hidden (f : FloatFormat) : Nat := 2 ^ (f.prec - 1)

/-- How far the exponent of a magnitude pattern is above that of the subnormal numbers. -/
def binade (f : FloatFormat) (b : Nat) : Nat := b / f.hidden - 1

/-- The significand of a magnitude pattern, the hidden bit included. -/
def mant (f : FloatFormat) (b : Nat) : Nat := b - f.binade b * f.hidden

/-- The number of a magnitude pattern. It goes on beyond the pattern of infinity, as if exponents had no upper bound. -/
def magnitude (f : FloatFormat) (b : Nat) : ℚ := f.mant b * 2 ^ (f.minExp + f.binade b)

variable {f : FloatFormat}

theorem hidden_pos : 0 < f.hidden := Nat.two_pow_pos _

theorem two_mul_hidden (hf : f.Proper) : 2 * f.hidden = 2 ^ f.prec := by
  have := hf.prec
  rw [hidden, ← pow_succ']
  congr 1
  omega

theorem hidden_even (hf : f.Proper) : f.hidden % 2 = 0 := by
  have := hf.prec
  obtain ⟨n, hn⟩ : ∃ n, f.prec - 1 = n + 1 := ⟨f.prec - 2, by omega⟩
  rw [hidden, hn, pow_succ]
  exact Nat.mul_mod_left ..

/-- Every magnitude pattern is whole binades and a significand, which has the hidden bit above the lowest binade. -/
theorem pattern_split (f : FloatFormat) (b : Nat) :
    b = f.binade b * f.hidden + f.mant b ∧ f.mant b < 2 * f.hidden ∧ (f.binade b = 0 ∨ f.hidden ≤ f.mant b) := by
  have hpos := f.hidden_pos
  have hdiv := Nat.div_add_mod b f.hidden
  have hmod := Nat.mod_lt b hpos
  unfold mant binade
  rcases Nat.eq_zero_or_pos (b / f.hidden) with h0 | h1
  · rw [h0, Nat.mul_zero, Nat.zero_add] at hdiv
    rw [h0, Nat.zero_sub, Nat.zero_mul]
    omega
  · obtain ⟨n, hn⟩ : ∃ n, b / f.hidden = n + 1 := ⟨b / f.hidden - 1, by omega⟩
    rw [hn, Nat.mul_succ] at hdiv
    rw [hn, Nat.add_sub_cancel, Nat.mul_comm n]
    omega

theorem binade_of_split {k m : Nat} (hm : m < 2 * f.hidden) (hk : k = 0 ∨ f.hidden ≤ m) :
    f.binade (k * f.hidden + m) = k := by
  have hpos := f.hidden_pos
  rw [binade, Nat.mul_comm, Nat.mul_add_div hpos]
  rcases Nat.lt_or_ge m f.hidden with h | h
  · rw [Nat.div_eq_of_lt h]
    omega
  · rw [Nat.div_eq_of_lt_le (k := 1) (by omega) (by omega)]
    omega

/-- The number of a pattern put together from binades and a significand; the significand may be the first of the next binade. -/
theorem magnitude_of_split {k m : Nat} (hm : m ≤ 2 * f.hidden) (hk : k = 0 ∨ f.hidden ≤ m) :
    f.magnitude (k * f.hidden + m) = m * 2 ^ (f.minExp + k) := by
  rcases Nat.lt_or_eq_of_le hm with h | rfl
  · rw [magnitude, mant, binade_of_split h hk, Nat.add_sub_cancel_left]
  · have hpos := f.hidden_pos
    have hnext : k * f.hidden + 2 * f.hidden = (k + 1) * f.hidden + f.hidden := by ring
    rw [hnext, magnitude, mant, binade_of_split (by omega) (.inr (Nat.le_refl _)), Nat.add_sub_cancel_left]
    push_cast
    rw [← add_assoc, zpow_add_one₀ two_ne_zero]
    ring

theorem magnitude_succ (f : FloatFormat) (b : Nat) :
    f.magnitude (b + 1) = f.magnitude b + 2 ^ (f.minExp + f.binade b) := by
  obtain ⟨hb, hm, hk⟩ := f.pattern_split b
  have hsucc := f.magnitude_of_split (k := f.binade b) (m := f.mant b + 1) (by omega) (by omega)
  rw [← add_assoc, ← hb] at hsucc
  rw [hsucc, magnitude]
  push_cast
  ring

/-- The numbers rise with the patterns. -/
theorem magnitude_strictMono (f : FloatFormat) : StrictMono f.magnitude := by
  refine strictMono_nat_of_lt_succ fun b => ?_
  rw [magnitude_succ]
  exact lt_add_of_pos_right _ (by positivity)

@[simp] theorem magnitude_zero (f : FloatFormat) : f.magnitude 0 = 0 := by
  simp [magnitude, mant]

theorem magnitude_nonneg (f : FloatFormat) (b : Nat) : 0 ≤ f.magnitude b := by
  unfold magnitude
  positivity

theorem mant_eq_zero {b : Nat} : f.mant b = 0 ↔ b = 0 := by
  have hpos := f.hidden_pos
  obtain ⟨hb, -, hk⟩ := f.pattern_split b
  refine ⟨fun h => ?_, fun h => by simp [h, mant]⟩
  rw [hb, h, hk.resolve_right (by omega), Nat.zero_mul]

/-- Every number is on the grid of a given binade or below that binade. -/
theorem magnitude_grid (f : FloatFormat) (v k : Nat) :
    (∃ j : Nat, f.magnitude v = j * 2 ^ (f.minExp + k)) ∨
      0 < k ∧ f.magnitude v < f.hidden * 2 ^ (f.minExp + k) := by
  obtain ⟨-, hm, -⟩ := f.pattern_split v
  rcases Nat.lt_or_ge (f.binade v) k with h | h
  · refine .inr ⟨by omega, ?_⟩
    have hm' : (f.mant v : ℚ) < 2 * f.hidden := by exact_mod_cast hm
    calc f.magnitude v < 2 * f.hidden * 2 ^ (f.minExp + f.binade v) := by unfold magnitude; gcongr
      _ = f.hidden * 2 ^ (f.minExp + f.binade v + 1) := by rw [zpow_add_one₀ two_ne_zero]; ring
      _ ≤ f.hidden * 2 ^ (f.minExp + k) :=
        mul_le_mul_of_nonneg_left (zpow_le_zpow_right₀ one_le_two (by omega)) (Nat.cast_nonneg _)
  · left
    obtain ⟨n, hn⟩ := Nat.exists_eq_add_of_le h
    refine ⟨f.mant v * 2 ^ n, ?_⟩
    rw [magnitude, hn]
    push_cast
    rw [← add_assoc, zpow_add₀ two_ne_zero _ (n : Int), zpow_natCast]
    ring

/-! ## Signs, and what a pattern stands for -/

theorem signWeight_eq (hf : f.Proper) : f.signWeight = 2 ^ f.expBits * f.hidden := by
  have := hf.prec
  rw [signWeight, hidden, ← pow_add]
  congr 1
  omega

theorem infinity_eq (f : FloatFormat) : f.infinity = (2 ^ f.expBits - 1) * f.hidden := rfl

theorem infinity_lt_signWeight (hf : f.Proper) : f.infinity < f.signWeight := by
  have := Nat.two_pow_pos f.expBits
  rw [signWeight_eq hf, infinity_eq]
  exact Nat.mul_lt_mul_of_pos_right (by omega) f.hidden_pos

theorem signed_eq (f : FloatFormat) (neg : Bool) (b : Nat) : f.signed neg b = neg.toNat * f.signWeight + b := by
  cases neg <;> simp [signed]

theorem two_mul_signWeight (hf : f.Proper) : 2 * f.signWeight = 2 ^ (f.expBits + f.prec) := by
  have := hf.prec
  rw [signWeight, ← pow_succ']
  congr 1
  omega

theorem signed_lt (hf : f.Proper) (neg : Bool) {b : Nat} (hb : b < f.signWeight) :
    f.signed neg b < 2 ^ (f.expBits + f.prec) := by
  have hn := two_mul_signWeight hf
  unfold signed
  split <;> omega

/-- Every pattern is a magnitude pattern with a sign. -/
theorem exists_signed (hf : f.Proper) {v : Nat} (hv : v < 2 ^ (f.expBits + f.prec)) :
    ∃ neg b, b < f.signWeight ∧ v = f.signed neg b := by
  have hn := two_mul_signWeight hf
  rcases Nat.lt_or_ge v f.signWeight with h | h
  · exact ⟨false, v, h, rfl⟩
  · refine ⟨true, v - f.signWeight, by omega, ?_⟩
    simp only [signed, if_true]
    omega

/-- What a pattern stands for, by its sign and its magnitude pattern (R170, R171). -/
theorem decode_signed (hf : f.Proper) (neg : Bool) {b : Nat} (hb : b < f.signWeight) :
    f.decode (f.signed neg b) =
      if b / f.hidden = 2 ^ f.expBits - 1 then (if b % f.hidden = 0 then .infinite neg else .nan)
      else .finite neg (f.mant b) (f.minExp + f.binade b) := by
  have hpos := f.hidden_pos
  have hw := signWeight_eq hf
  have hsplit : f.signed neg b = f.hidden * (2 ^ f.expBits * neg.toNat) + b := by rw [signed_eq, hw]; ring
  have hfrac : f.signed neg b % 2 ^ (f.prec - 1) = b % f.hidden := by
    rw [hsplit]
    exact Nat.mul_add_mod ..
  have hexpo : f.signed neg b / 2 ^ (f.prec - 1) % 2 ^ f.expBits = b / f.hidden := by
    rw [hsplit, ← hidden, Nat.mul_add_div hpos, Nat.mul_add_mod]
    exact Nat.mod_eq_of_lt (Nat.div_lt_of_lt_mul (by rwa [Nat.mul_comm, ← hw]))
  have hneg : decide (f.signed neg b / f.signWeight % 2 = 1) = neg := by
    rw [signed_eq, Nat.mul_comm, Nat.mul_add_div (by omega), Nat.div_eq_of_lt hb]
    cases neg <;> rfl
  simp only [decode, hfrac, hexpo, hneg]
  have hdiv := Nat.div_add_mod b f.hidden
  split
  · rfl
  · split
    · next h0 =>
      rw [h0, Nat.mul_zero, Nat.zero_add] at hdiv
      rw [mant, binade, h0, Nat.zero_sub, Nat.zero_mul, Nat.sub_zero, Nat.cast_zero, add_zero, hdiv]
    · next h0 =>
      obtain ⟨n, hn⟩ : ∃ n, b / f.hidden = n + 1 := ⟨b / f.hidden - 1, by omega⟩
      rw [hn, Nat.mul_succ, Nat.mul_comm] at hdiv
      simp only [mant, binade, hn, Nat.add_sub_cancel]
      congr 1
      · rw [← hidden]
        omega
      · push_cast
        omega

theorem decode_infinity (hf : f.Proper) (neg : Bool) : f.decode (f.signed neg f.infinity) = .infinite neg := by
  rw [decode_signed hf neg (infinity_lt_signWeight hf), infinity_eq, Nat.mul_div_cancel _ f.hidden_pos, if_pos rfl,
    Nat.mul_mod_left, if_pos rfl]

/-- The magnitude patterns below infinity's are the numbers. -/
theorem decode_finite (hf : f.Proper) (neg : Bool) {b : Nat} (hb : b < f.infinity) :
    f.decode (f.signed neg b) = .finite neg (f.mant b) (f.minExp + f.binade b) := by
  have hlt : b / f.hidden < 2 ^ f.expBits - 1 := Nat.div_lt_of_lt_mul (by rwa [Nat.mul_comm])
  rw [decode_signed hf neg (hb.trans (infinity_lt_signWeight hf)), if_neg hlt.ne]

/-- A pattern that is a number, by its sign and its magnitude pattern. -/
theorem finite_of_decode (hf : f.Proper) {neg : Bool} {b : Nat} (hb : b < f.signWeight)
    (h : (f.decode (f.signed neg b)).isFinite = true) :
    f.decode (f.signed neg b) = .finite neg (f.mant b) (f.minExp + f.binade b) := by
  rw [decode_signed hf neg hb] at h ⊢
  split at h
  · split at h <;> cases h
  · next hfin => rw [if_neg hfin]

end FloatFormat

/-- The factor a sign stands for. -/
def signOf (neg : Bool) : ℚ := if neg then -1 else 1

theorem FloatValue.value_finite (neg : Bool) (m : Nat) (e : Int) :
    (FloatValue.finite neg m e).value = signOf neg * (m * 2 ^ e) := by
  rw [FloatValue.value, signOf, mul_assoc]

theorem FloatFormat.value_finite (f : FloatFormat) (neg : Bool) (b : Nat) :
    (FloatValue.finite neg (f.mant b) (f.minExp + f.binade b)).value = signOf neg * f.magnitude b :=
  FloatValue.value_finite ..

/-! ## The patterns of a register -/

/-- A word is its low 31 bits with its top bit as their sign. -/
theorem toNat_eq_signed (v : Word) : v.toNat = binary32.signed v.msb (v.toNat % 2 ^ 31) := by
  have hlt := v.isLt
  rw [BitVec.msb_eq_decide]
  simp only [FloatFormat.signed, FloatFormat.signWeight, binary32, decide_eq_true_eq]
  split <;> omega

theorem magnitude_lt_signWeight (v : Word) : v.toNat % 2 ^ 31 < binary32.signWeight := Nat.mod_lt _ (by decide)

/-- A register's value, by its sign and its low 31 bits (R170). -/
theorem readFloat_eq (v : Word) :
    readFloat v =
      if v.toNat % 2 ^ 31 / 2 ^ 23 = 255 then (if v.toNat % 2 ^ 31 % 2 ^ 23 = 0 then .infinite v.msb else .nan)
      else .finite v.msb (binary32.mant (v.toNat % 2 ^ 31)) (binary32.minExp + binary32.binade (v.toNat % 2 ^ 31)) := by
  have h := FloatFormat.decode_signed FloatFormat.proper_binary32 v.msb (magnitude_lt_signWeight v)
  rw [← toNat_eq_signed] at h
  exact h

end Sys2Proof.Machine
end

section
/-!
SUPPORT. Rounding (R170): the quotient to the nearest integer, ties to even, and from it the pattern of the number nearest to a given
one among all numbers of the format. On the grid of the last place chosen that is the rounding of the quotient, and a number off
that grid is smaller than every number to be rounded there.
-/

namespace Sys2Proof.Machine

/-! ## To an integer -/

theorem roundHalfEven_nearest (num : Nat) {den : Nat} (hd : 0 < den) :
    2 * |(num : Int) - roundHalfEven num den * den| ≤ den ∧
    (2 * |(num : Int) - roundHalfEven num den * den| = den → roundHalfEven num den % 2 = 0) := by
  have hmod := Nat.mod_lt num hd
  have hdiv : (num : Int) - (num / den : Nat) * den = (num % den : Nat) := by
    have : (num : Int) = (num / den : Nat) * den + (num % den : Nat) := by exact_mod_cast (Nat.div_add_mod' num den).symm
    omega
  have hnext (q : Nat) : (num : Int) - (q + 1 : Nat) * den = (num - q * den) - den := by push_cast; ring
  unfold roundHalfEven
  simp only
  generalize num / den = q at hdiv ⊢
  generalize num % den = r at hmod hdiv ⊢
  split
  · rw [hdiv, abs_of_nonneg (by omega)]
    omega
  · split
    · rw [hnext, hdiv, abs_of_neg (by omega)]
      omega
    · rcases Nat.mod_two_eq_zero_or_one q with h | h
      · rw [h, Nat.add_zero, hdiv, abs_of_nonneg (by omega)]
        omega
      · rw [h, hnext, hdiv, abs_of_neg (by omega)]
        omega

/-- The same of the quotient as a rational number. -/
theorem roundHalfEven_rat (num : Nat) {den : Nat} (hd : 0 < den) :
    |(num : ℚ) / den - roundHalfEven num den| ≤ 1 / 2 ∧
    (|(num : ℚ) / den - roundHalfEven num den| = 1 / 2 → roundHalfEven num den % 2 = 0) := by
  have hd' : (0 : ℚ) < den := by exact_mod_cast hd
  obtain ⟨hle, htie⟩ := roundHalfEven_nearest num hd
  have hscale : |(num : ℚ) / den - roundHalfEven num den| =
      (2 * |(num : Int) - roundHalfEven num den * den| : Int) / (2 * den) := by
    have : (num : ℚ) / den - roundHalfEven num den = ((num : Int) - roundHalfEven num den * den : Int) / den := by
      push_cast
      field_simp
    rw [this, abs_div, abs_of_pos hd']
    push_cast
    field_simp
  rw [hscale, div_le_div_iff₀ (by positivity) two_pos, div_eq_div_iff (by positivity) two_ne_zero]
  refine ⟨?_, fun h => htie ?_⟩
  · have : ((2 * |(num : Int) - roundHalfEven num den * den| : Int) : ℚ) ≤ den := by exact_mod_cast hle
    linarith
  · have : ((2 * |(num : Int) - roundHalfEven num den * den| : Int) : ℚ) = (den : Int) := by
      rw [Int.cast_natCast]
      linarith
    exact_mod_cast this

/-- An integer within a half is the nearest one, and another is as near only on a tie. -/
theorem abs_sub_le_of_half {y : ℚ} {m j : Nat} (h : |y - m| ≤ 1 / 2) :
    |y - m| ≤ |y - j| ∧ (|y - m| = |y - j| → j = m ∨ |y - m| = 1 / 2) := by
  by_cases hj : j = m
  · exact ⟨by rw [hj], fun _ => .inl hj⟩
  · have hone : (1 : ℚ) ≤ |(j : ℚ) - m| := by
      have : (1 : Int) ≤ |(j : Int) - m| := Int.one_le_abs (by omega)
      exact_mod_cast this
    have htri : |(j : ℚ) - m| ≤ |y - j| + |y - m| := by
      rw [abs_sub_comm y j]
      exact abs_sub_le ..
    exact ⟨by linarith, fun he => .inr (by linarith)⟩

namespace FloatFormat

/-! ## To a pattern -/

/-- The magnitude pattern `b` is of the number nearest to `x`, and an even pattern if another number is as near. -/
def Nearest (f : FloatFormat) (x : ℚ) (b : Nat) : Prop :=
  ∀ v, |x - f.magnitude b| ≤ |x - f.magnitude v| ∧ (|x - f.magnitude b| = |x - f.magnitude v| → v = b ∨ b % 2 = 0)

variable {f : FloatFormat}

theorem nearest_zero (f : FloatFormat) : f.Nearest 0 0 := fun v => by simp

/-- Only one pattern is nearest to the number of a pattern. -/
theorem Nearest.of_magnitude {b v : Nat} (h : f.Nearest (f.magnitude v) b) : b = v := by
  have h0 := (h v).1
  rw [sub_self, abs_zero, abs_nonpos_iff, sub_eq_zero] at h0
  exact (f.magnitude_strictMono.injective h0).symm

/-- The nearest integer on the grid of a binade is the nearest number, if the number rounded is not below that binade. -/
theorem nearest_of_grid (hf : f.Proper) {x : ℚ} {k m : Nat} (hle : |x / 2 ^ (f.minExp + k) - m| ≤ 1 / 2)
    (htie : |x / 2 ^ (f.minExp + k) - m| = 1 / 2 → m % 2 = 0) (hm : m ≤ 2 * f.hidden)
    (hk : k = 0 ∨ f.hidden ≤ m ∧ f.hidden * 2 ^ (f.minExp + k) ≤ x) : f.Nearest x (k * f.hidden + m) := by
  have hmag := magnitude_of_split hm (hk.imp_right And.left)
  have hgrid (j : Nat) : |x - j * 2 ^ (f.minExp + k)| = |x / 2 ^ (f.minExp + k) - j| * 2 ^ (f.minExp + k) := by
    rw [← abs_of_pos (show (0 : ℚ) < 2 ^ (f.minExp + k) by positivity), ← abs_mul, sub_mul,
      abs_of_pos (show (0 : ℚ) < 2 ^ (f.minExp + k) by positivity), div_mul_cancel₀ _ (by positivity)]
  have heven : m % 2 = 0 → (k * f.hidden + m) % 2 = 0 := by
    intro h
    rw [Nat.add_mod, Nat.mul_mod, hidden_even hf, h, Nat.mul_zero]
  intro v
  rw [hmag]
  rcases f.magnitude_grid v k with ⟨j, hj⟩ | ⟨hk0, hbelow⟩
  · have hpos : (0 : ℚ) < 2 ^ (f.minExp + k) := by positivity
    obtain ⟨hnear, hequal⟩ := abs_sub_le_of_half (j := j) hle
    rw [hj, hgrid, hgrid]
    refine ⟨by gcongr, fun he => ?_⟩
    rcases hequal (mul_right_cancel₀ hpos.ne' he) with rfl | h
    · exact .inl (f.magnitude_strictMono.injective (hj.trans hmag.symm))
    · exact .inr (heven (htie h))
  · have hx := (hk.resolve_left hk0.ne').2
    have hlt : |x - m * 2 ^ (f.minExp + k)| < |x - f.magnitude v| := by
      calc |x - m * 2 ^ (f.minExp + k)| ≤ |x - f.hidden * 2 ^ (f.minExp + k)| := by
            rw [hgrid, hgrid]
            have := (abs_sub_le_of_half (j := f.hidden) hle).1
            gcongr
        _ = x - f.hidden * 2 ^ (f.minExp + k) := abs_of_nonneg (by linarith)
        _ < x - f.magnitude v := by linarith
        _ ≤ |x - f.magnitude v| := le_abs_self _
    exact ⟨hlt.le, fun he => absurd he hlt.ne⟩

/-- The last place that rounding keeps of `num / den * 2^e`. -/
def lastPlace (f : FloatFormat) (num den : Nat) (e : Int) : Int :=
  max f.minExp (leadingExp num den + e - (f.prec - 1))

/-- The significand that rounding gives `num / den * 2^e`, in units of the last place. -/
def roundedMant (f : FloatFormat) (num den : Nat) (e : Int) : Nat :=
  roundHalfEven (num * twoPowPos (e - f.lastPlace num den e)) (den * twoPowPos (f.lastPlace num den e - e))

/-- The magnitude pattern of `num / den * 2^e`, rounded as if exponents had no upper bound. -/
def roundedPattern (f : FloatFormat) (num den : Nat) (e : Int) : Nat :=
  (f.lastPlace num den e - f.minExp).toNat * f.hidden + f.roundedMant num den e

theorem roundMagnitude_eq (f : FloatFormat) (num den : Nat) (e : Int) :
    f.roundMagnitude num den e = min f.infinity (f.roundedPattern num den e) := rfl

theorem scaled_quotient (num den : Nat) (e last : Int) :
    ((num * twoPowPos (e - last) : Nat) : ℚ) / (den * twoPowPos (last - e) : Nat) = num / den * 2 ^ e / 2 ^ last := by
  have h : (2 : ℚ) ^ e / 2 ^ last = (twoPowPos (e - last) : ℚ) / twoPowPos (last - e) := by
    rw [← zpow_sub₀ two_ne_zero, twoPow_split, neg_sub]
  rw [mul_div_assoc, h, div_mul_div_comm]
  push_cast
  rfl

/-- The leading bit of a scaled positive number. -/
theorem leadingExp_scaled {num den : Nat} (hn : 0 < num) (hd : 0 < den) (e : Int) :
    (2 : ℚ) ^ (leadingExp num den + e) ≤ num / den * 2 ^ e ∧
      (num : ℚ) / den * 2 ^ e < 2 ^ (1 + (leadingExp num den + e)) := by
  obtain ⟨hlow, hhigh⟩ := leadingExp_spec hn hd
  rw [← add_assoc, add_comm 1, zpow_add₀ two_ne_zero, zpow_add₀ two_ne_zero _ e]
  exact ⟨by gcongr, by gcongr⟩

/-- The last place is in some binade: above the lowest it leaves just the format's precision, and nowhere more. -/
theorem lastPlace_spec (hf : f.Proper) (num den : Nat) (e : Int) :
    ∃ k : Nat, f.lastPlace num den e = f.minExp + k ∧
      leadingExp num den + e ≤ f.minExp + k + (f.prec - 1) ∧
      (k = 0 ∨ f.minExp + k + (f.prec - 1) = leadingExp num den + e) := by
  have := hf.prec
  refine ⟨(f.lastPlace num den e - f.minExp).toNat, ?_⟩
  unfold lastPlace
  omega

theorem hidden_mul_zpow (hf : f.Proper) (e : Int) : (f.hidden : ℚ) * 2 ^ e = 2 ^ (e + (f.prec - 1)) := by
  have := hf.prec
  rw [zpow_add₀ two_ne_zero, mul_comm, hidden, Nat.cast_pow, Nat.cast_ofNat, ← zpow_natCast, Nat.cast_sub (by omega),
    Nat.cast_one]

/-- The rounding of the quotient on the grid of the last place chosen is the rounding to the format's numbers (R170). -/
theorem nearest_roundedPattern (hf : f.Proper) {num den : Nat} (hn : 0 < num) (hd : 0 < den) (e : Int) :
    f.Nearest (num / den * 2 ^ e) (f.roundedPattern num den e) := by
  obtain ⟨hlow, hhigh⟩ := leadingExp_scaled hn hd e
  obtain ⟨k, hk, hprec, hexact⟩ := lastPlace_spec hf num den e
  have hpow : (0 : ℚ) < 2 ^ (f.minExp + k) := by positivity
  have hround := roundHalfEven_rat (num * twoPowPos (e - f.lastPlace num den e))
    (den := den * twoPowPos (f.lastPlace num den e - e)) (Nat.mul_pos hd (Nat.two_pow_pos _))
  rw [scaled_quotient, ← roundedMant, hk] at hround
  obtain ⟨hhalf, htie⟩ := hround
  have hdist := abs_le.mp hhalf
  rw [roundedPattern, hk, add_sub_cancel_left, Int.toNat_natCast]
  refine nearest_of_grid hf hhalf htie ?_ (hexact.imp_right fun hexact => ?_)
  · have hy : num / den * 2 ^ e / 2 ^ (f.minExp + k) < (2 * f.hidden : ℚ) := by
      rw [div_lt_iff₀ hpow, mul_assoc, hidden_mul_zpow hf, ← zpow_one_add₀ two_ne_zero]
      exact hhigh.trans_le (zpow_le_zpow_right₀ one_le_two (by omega))
    have : (f.roundedMant num den e : ℚ) < (2 * f.hidden + 1 : Nat) := by push_cast; linarith
    exact Nat.lt_succ_iff.mp (Nat.cast_lt.mp this)
  · have hx : f.hidden * 2 ^ (f.minExp + k) ≤ num / den * (2 : ℚ) ^ e := by
      rw [hidden_mul_zpow hf, hexact]
      exact hlow
    have hy := (le_div_iff₀ hpow).mpr hx
    have : (f.hidden : ℚ) < (f.roundedMant num den e + 1 : Nat) := by push_cast; linarith
    exact ⟨Nat.lt_succ_iff.mp (Nat.cast_lt.mp this), hx⟩

/-- A magnitude pattern's number rounds to the pattern. -/
theorem roundedPattern_of_magnitude (hf : f.Proper) {b : Nat} (hb : 0 < b) :
    f.roundedPattern (f.mant b) 1 (f.minExp + f.binade b) = b := by
  have hm : 0 < f.mant b := Nat.pos_of_ne_zero (mant_eq_zero.not.mpr hb.ne')
  have h := nearest_roundedPattern hf hm Nat.one_pos (f.minExp + f.binade b)
  rw [Nat.cast_one, div_one] at h
  exact h.of_magnitude

/-- The number of a pattern rounds to the pattern. -/
theorem round_of_pattern (hf : f.Proper) (neg : Bool) {b : Nat} (hb : b ≤ f.infinity) :
    f.round neg (f.mant b) 1 (f.minExp + f.binade b) = f.signed neg b := by
  rw [round]
  rcases Nat.eq_zero_or_pos b with rfl | hpos
  · rw [if_pos (mant_eq_zero.mpr rfl)]
  · rw [if_neg (mant_eq_zero.not.mpr hpos.ne'), roundMagnitude_eq, roundedPattern_of_magnitude hf hpos, min_eq_right hb]

end FloatFormat

/-- Settles O30: the rounding of a quotient by its remainder; and a number of the format is nearest to itself alone. -/
theorem roundsToNearestEven : Obligations.RoundsToNearestEven := by
  refine ⟨fun num den hd => roundHalfEven_nearest num hd, fun v neg mant e h => ?_⟩
  rw [toNat_eq_signed v]
  rw [readFloat_eq] at h
  split at h
  · split at h <;> cases h
  · next hfin =>
    cases h
    refine FloatFormat.round_of_pattern FloatFormat.proper_binary32 _ ?_
    have hlt : v.toNat % 2 ^ 31 < 2 ^ 31 := Nat.mod_lt _ (by decide)
    have hinf : binary32.infinity = 255 * 2 ^ 23 := rfl
    omega

end Sys2Proof.Machine
end

section
/-!
SUPPORT. The operations of the FPU (R170, R171): what each gives for a NaN and for an infinity, and for numbers the one rounding of
the exact result that each of the four is.
-/

namespace Sys2Proof.Machine

/-! ## NaNs and infinities -/

namespace FloatFormat

variable (f : FloatFormat) (x y : FloatValue)

theorem add_eq_none : f.add x y = none ↔ x = .nan ∨ y = .nan ∨ ∃ b, x = .infinite b ∧ y = .infinite (!b) := by
  cases x with
  | nan => simp [add]
  | infinite b =>
    cases y with
    | nan => simp [add]
    | infinite c => cases b <;> cases c <;> simp [add]
    | finite => simp [add]
  | finite =>
    cases y with
    | nan => simp [add]
    | infinite => simp [add]
    | finite => simp only [add]; split <;> simp

theorem mul_eq_none : f.mul x y = none ↔ x = .nan ∨ y = .nan ∨
    (∃ b c e, x = .infinite b ∧ y = .finite c 0 e) ∨ (∃ b c e, x = .finite c 0 e ∧ y = .infinite b) := by
  cases x with
  | nan => simp [mul]
  | infinite => cases y <;> simp [mul]
  | finite => cases y <;> simp [mul]

theorem div_eq_none (hy : ∀ c e, y ≠ .finite c 0 e) :
    f.div x y = none ↔ x = .nan ∨ y = .nan ∨ ∃ b c, x = .infinite b ∧ y = .infinite c := by
  cases x with
  | nan => simp [div]
  | infinite => cases y <;> simp [div]
  | finite =>
    cases y with
    | nan => simp [div]
    | infinite => simp [div]
    | finite c n e =>
      have hn : n ≠ 0 := fun h => hy c e (by rw [h])
      simp [div, hn]

end FloatFormat

theorem FloatValue.negate_eq_nan {y : FloatValue} : y.negate = .nan ↔ y = .nan := by
  cases y <;> simp [FloatValue.negate]

theorem FloatValue.negate_eq_infinite {y : FloatValue} {b : Bool} : y.negate = .infinite b ↔ y = .infinite (!b) := by
  cases y <;> simp [FloatValue.negate, Bool.not_eq_eq_eq_not]

/-- The patterns of a format's infinities, and of its negative zero (R170, R171). -/
theorem infinity_patterns {f : FloatFormat} {inf sign : Nat}
    (h : (f = binary32 ∧ inf = 0x7F800000 ∧ sign = 0x80000000) ∨
      (f = binary64 ∧ inf = 0x7FF0000000000000 ∧ sign = 0x8000000000000000)) :
    f.infinity = inf ∧ f.signWeight = sign := by
  rcases h with ⟨rfl, rfl, rfl⟩ | ⟨rfl, rfl, rfl⟩ <;> decide

/-! ## What a register's pattern stands for -/

section Patterns

variable {v : Word}

theorem readFloat_special (h : v.toNat / 2 ^ 23 % 256 = 255) :
    readFloat v = if v.toNat % 2 ^ 23 = 0 then .infinite v.msb else .nan := by
  rw [readFloat_eq, if_pos (by omega), Nat.mod_mod_of_dvd _ (by decide)]

theorem readFloat_subnormal (h : v.toNat / 2 ^ 23 % 256 = 0) :
    readFloat v = .finite v.msb (v.toNat % 2 ^ 23) (-149) := by
  have hb : v.toNat % 2 ^ 31 = 0 * binary32.hidden + v.toNat % 2 ^ 23 := by omega
  have hbin : binary32.binade (v.toNat % 2 ^ 31) = 0 := by
    rw [hb]
    exact FloatFormat.binade_of_split ((Nat.mod_lt _ (by decide)).trans (by decide)) (.inl rfl)
  rw [readFloat_eq, if_neg (by omega), FloatFormat.mant, hbin]
  rw [hb, Nat.add_sub_cancel_left]
  rfl

theorem readFloat_normal {e : Nat} (h : v.toNat / 2 ^ 23 % 256 = e) (h1 : 1 ≤ e) (h254 : e ≤ 254) :
    readFloat v = .finite v.msb (2 ^ 23 + v.toNat % 2 ^ 23) ((e : Int) - 150) := by
  have hhid : binary32.hidden = 2 ^ 23 := rfl
  have hb : v.toNat % 2 ^ 31 = (e - 1) * binary32.hidden + (2 ^ 23 + v.toNat % 2 ^ 23) := by
    rw [hhid]
    omega
  have hbin : binary32.binade (v.toNat % 2 ^ 31) = e - 1 := by
    rw [hb]
    exact FloatFormat.binade_of_split (by omega) (.inr (by omega))
  have hexp : binary32.minExp = -149 := rfl
  rw [readFloat_eq, if_neg (by omega), FloatFormat.mant, hbin, hexp]
  congr 1 <;> omega

end Patterns

/-- Settles O29: the patterns by their fields, and each operation by the kinds of its operands. -/
theorem specialFloatOperations : Obligations.SpecialFloatOperations := by
  refine ⟨fun v => ⟨readFloat_special, readFloat_subnormal, fun _ => readFloat_normal⟩, fun f x y => ?_,
    fun f inf sign b c m e hf => ?_⟩
  · refine ⟨f.add_eq_none x y, ?_, f.mul_eq_none x y, f.div_eq_none x y⟩
    simp only [FloatFormat.compute, f.add_eq_none, FloatValue.negate_eq_nan, FloatValue.negate_eq_infinite, Bool.not_not]
  · obtain ⟨rfl, rfl⟩ := infinity_patterns hf
    have hsign (mag : Nat) : f.signed (b != c) mag = if b = c then mag else f.signWeight + mag := by
      by_cases h : b = c <;> simp [FloatFormat.signed, h]
    refine ⟨if_pos rfl, rfl, rfl, ?_, rfl, ?_, ?_, fun hm => ?_, fun hm => ?_, fun _ => ?_, ?_⟩
    · exact if_pos (Bool.not_not b).symm
    · cases b <;> rfl
    · rw [← hsign]
      rfl
    · rw [← hsign]
      exact if_neg hm
    · rw [← hsign, bne_comm]
      exact if_neg hm
    · rw [← hsign]
      rfl
    · refine Eq.trans ?_ (congrArg some (hsign 0))
      rw [bne_comm]
      rfl

end Sys2Proof.Machine
end

section
/-!
SUPPORT. The result of an operation on numbers (R170, R171): each of the four operations rounds one exact quotient, and the rounded
pattern is of the nearest number, or of an infinity from half a last place beyond the largest number on.
-/

namespace Sys2Proof.Machine

/-! ## Signs -/

@[simp] theorem signOf_not (neg : Bool) : signOf (!neg) = -signOf neg := by cases neg <;> simp [signOf]

@[simp] theorem signOf_mul_self (neg : Bool) : signOf neg * signOf neg = 1 := by cases neg <;> simp [signOf]

theorem signOf_bne (a b : Bool) : signOf (a != b) = signOf a * signOf b := by cases a <;> cases b <;> simp [signOf]

@[simp] theorem abs_signOf_mul (neg : Bool) (x : ℚ) : |signOf neg * x| = |x| := by cases neg <;> simp [signOf]

theorem signOf_mul_neg_iff {neg : Bool} {x : ℚ} (hx : 0 < x) : signOf neg * x < 0 ↔ neg = true := by
  cases neg <;> simp [signOf, hx, hx.le]

theorem signOf_mul_natAbs (i : Int) : signOf (decide (i < 0)) * i.natAbs = i := by
  have habs : (i.natAbs : ℚ) = |(i : ℚ)| := by rw [← Int.cast_abs, Int.abs_eq_natAbs, Int.cast_natCast]
  rw [habs]
  by_cases h : i < 0
  · have : (i : ℚ) < 0 := by exact_mod_cast h
    simp [signOf, h, abs_of_neg this]
  · have : (0 : ℚ) ≤ i := by exact_mod_cast not_lt.mp h
    simp [signOf, h, abs_of_nonneg this]

theorem FloatValue.value_negate (x : FloatValue) : x.negate.value = -x.value := by
  cases x with
  | nan => simp [FloatValue.negate, FloatValue.value]
  | infinite => simp [FloatValue.negate, FloatValue.value]
  | finite => simp [FloatValue.negate, FloatValue.value_finite]

namespace FloatFormat

variable {f : FloatFormat}

/-! ## One rounding for each operation -/

/-- The answer `r` is the pattern of `z`, rounded once, and of the zero with sign `zeroSign` if `z` is zero. -/
def Rounds (f : FloatFormat) (z : ℚ) (zeroSign : Bool) (r : Option Nat) : Prop :=
  ∃ neg num den e, 0 < den ∧ r = some (f.round neg num den e) ∧ z = signOf neg * (num / den * 2 ^ e) ∧
    (z = 0 → neg = zeroSign)

/-- A number as an integer on a grid that is fine enough. -/
theorem value_on_grid (a : Bool) (m : Nat) {e low : Int} (h : low ≤ e) :
    (FloatValue.finite a m e).value = (signedMant a m * twoPowPos (e - low) : Int) * 2 ^ low := by
  obtain ⟨n, hn⟩ := Int.eq_ofNat_of_zero_le (Int.sub_nonneg.mpr h)
  obtain rfl : e = n + low := by omega
  have hpow : twoPowPos (n + low - low) = 2 ^ n := by rw [add_sub_cancel_right]; rfl
  have hsign : ((signedMant a m : Int) : ℚ) = signOf a * m := by cases a <;> simp [signedMant, signOf]
  rw [FloatValue.value_finite, hpow, zpow_add₀ two_ne_zero, zpow_natCast]
  push_cast
  rw [hsign]
  ring

theorem add_rounds (f : FloatFormat) (a b : Bool) (m n : Nat) (e g : Int) :
    f.Rounds ((FloatValue.finite a m e).value + (FloatValue.finite b n g).value) (a && b)
      (f.add (.finite a m e) (.finite b n g)) := by
  rw [value_on_grid a m (min_le_left e g), value_on_grid b n (min_le_right e g), ← add_mul, ← Int.cast_add]
  simp only [add]
  generalize signedMant a m * twoPowPos (e - min e g) + signedMant b n * twoPowPos (g - min e g) = sum
  split
  · next h0 => exact ⟨a && b, 0, 1, 0, Nat.one_pos, rfl, by simp [h0], fun _ => rfl⟩
  · next h0 =>
    refine ⟨decide (sum < 0), sum.natAbs, 1, min e g, Nat.one_pos, rfl, ?_, fun hz => absurd hz ?_⟩
    · rw [Nat.cast_one, div_one, ← mul_assoc, signOf_mul_natAbs]
    · exact mul_ne_zero (Int.cast_ne_zero.mpr h0) (by positivity)

theorem mul_rounds (f : FloatFormat) (a b : Bool) (m n : Nat) (e g : Int) :
    f.Rounds ((FloatValue.finite a m e).value * (FloatValue.finite b n g).value) (a != b)
      (f.mul (.finite a m e) (.finite b n g)) := by
  refine ⟨a != b, m * n, 1, e + g, Nat.one_pos, rfl, ?_, fun _ => rfl⟩
  rw [FloatValue.value_finite, FloatValue.value_finite, signOf_bne, zpow_add₀ two_ne_zero]
  push_cast
  ring

theorem div_rounds (f : FloatFormat) (a b : Bool) (m : Nat) {n : Nat} (e g : Int) (hn : n ≠ 0) :
    f.Rounds ((FloatValue.finite a m e).value / (FloatValue.finite b n g).value) (a != b)
      (f.div (.finite a m e) (.finite b n g)) := by
  refine ⟨a != b, m, n, e - g, Nat.pos_of_ne_zero hn, if_neg hn, ?_, fun _ => rfl⟩
  have hb : (signOf b)⁻¹ = signOf b := inv_eq_of_mul_eq_one_left (signOf_mul_self b)
  rw [FloatValue.value_finite, FloatValue.value_finite, signOf_bne, zpow_sub₀ two_ne_zero, div_eq_mul_inv, mul_inv, hb]
  field_simp

/-! ## Overflow -/

/-- A number rounds to beyond an odd pattern exactly from halfway to the next pattern on, a tie going to the even one. -/
theorem Nearest.succ_le_iff {x : ℚ} {b c : Nat} (h : f.Nearest x b) (hc : c % 2 = 1) :
    c + 1 ≤ b ↔ (f.magnitude c + f.magnitude (c + 1)) / 2 ≤ x := by
  have hlt : f.magnitude c < f.magnitude (c + 1) := f.magnitude_strictMono (Nat.lt_succ_self c)
  constructor
  · intro hb
    by_contra hx
    have hmono : f.magnitude (c + 1) ≤ f.magnitude b := f.magnitude_strictMono.monotone hb
    have hnear := (h c).1
    rw [abs_of_neg (by linarith)] at hnear
    rcases abs_cases (x - f.magnitude c) with ⟨habs, -⟩ | ⟨habs, -⟩ <;> linarith
  · intro hx
    by_contra hb
    have hmono : f.magnitude b ≤ f.magnitude c := f.magnitude_strictMono.monotone (by omega)
    obtain ⟨hnear, htie⟩ := h (c + 1)
    rw [abs_of_nonneg (by linarith : 0 ≤ x - f.magnitude b)] at hnear htie
    have hfar : |x - f.magnitude (c + 1)| ≤ x - f.magnitude c := abs_le.mpr ⟨by linarith, by linarith⟩
    have hbc : b = c := f.magnitude_strictMono.injective (by linarith)
    have := htie (le_antisymm hnear (by linarith))
    omega

/-- The largest number is an odd pattern, half of its last place below the threshold of overflow. -/
theorem overflow_threshold (hf : f.Proper) {E : Nat} (hE : 2 ^ (f.expBits - 1) = E) (hp : f.prec < E) :
    ∃ c, f.infinity = c + 1 ∧ c % 2 = 1 ∧ (f.magnitude c + f.magnitude (c + 1)) / 2 = 2 ^ E - 2 ^ (E - f.prec - 1) := by
  have hpos := f.hidden_pos
  have heven := f.hidden_even hf
  have htwo := two_mul_hidden hf
  have hexp : 2 ^ f.expBits = 2 * E := by
    have := hf.expBits
    rw [← hE, ← pow_succ']
    congr 1
    omega
  obtain ⟨k, hk⟩ : ∃ k, 2 * E = k + 3 := ⟨2 * E - 3, by have := hf.prec; omega⟩
  have hinf : f.infinity = k * f.hidden + 2 * f.hidden := by
    rw [infinity_eq, hexp, hk, Nat.add_sub_assoc (by decide), add_mul]
  obtain ⟨c, hc⟩ : ∃ c, f.infinity = c + 1 := ⟨f.infinity - 1, by omega⟩
  have hlast : f.minExp + k = ((E - f.prec - 1 : Nat) : Int) + 1 := by
    have : (2 : Int) ^ (f.expBits - 1) = E := by exact_mod_cast hE
    rw [minExp, this]
    omega
  have hbinade : f.binade c = k := by
    rw [show c = k * f.hidden + (2 * f.hidden - 1) by omega]
    exact binade_of_split (by omega) (by omega)
  have htop : f.magnitude (c + 1) = 2 ^ E := by
    rw [← hc, hinf, magnitude_of_split le_rfl (.inr (by omega)), htwo, hlast]
    push_cast
    rw [← zpow_natCast, ← zpow_natCast, ← zpow_add₀ two_ne_zero]
    congr 1
    omega
  refine ⟨c, hc, ?_, ?_⟩
  · have : (k * f.hidden) % 2 = 0 := by rw [Nat.mul_mod, heven, Nat.mul_zero]
    omega
  · have hsucc := f.magnitude_succ c
    rw [hbinade, hlast, zpow_add_one₀ two_ne_zero, zpow_natCast] at hsucc
    linarith

/-! ## Nearest with a sign -/

/-- The nearest magnitude with the sign of the number rounded is nearest among the numbers of both signs. -/
theorem Nearest.signed {x : ℚ} {b : Nat} (h : f.Nearest x b) (hx : 0 ≤ x) (neg neg' : Bool) (v : Nat) :
    |signOf neg * x - signOf neg * f.magnitude b| ≤ |signOf neg * x - signOf neg' * f.magnitude v| ∧
    (|signOf neg * x - signOf neg * f.magnitude b| = |signOf neg * x - signOf neg' * f.magnitude v| →
      signOf neg' * f.magnitude v = signOf neg * f.magnitude b ∨ b % 2 = 0) := by
  have hsame (v : Nat) : |signOf neg * x - signOf neg * f.magnitude v| = |x - f.magnitude v| := by
    rw [← mul_sub, abs_signOf_mul]
  by_cases hs : signOf neg' * f.magnitude v = signOf neg * f.magnitude v
  · rw [hs, hsame, hsame]
    exact ⟨(h v).1, fun he => ((h v).2 he).imp (fun hv => by rw [hv]) id⟩
  · have hneg : neg' = !neg := by
      cases neg <;> cases neg' <;> first | rfl | exact absurd rfl hs
    have hv : 0 < f.magnitude v :=
      lt_of_le_of_ne (f.magnitude_nonneg v) fun h0 => hs (by rw [← h0, mul_zero, mul_zero])
    have hother : |signOf neg * x - signOf neg' * f.magnitude v| = x + f.magnitude v := by
      rw [hneg, signOf_not, neg_mul, sub_neg_eq_add, ← mul_add, abs_signOf_mul, abs_of_nonneg (by positivity)]
    have h0 := (h 0).1
    rw [magnitude_zero, sub_zero, abs_of_nonneg hx] at h0
    rw [hother, hsame]
    exact ⟨by linarith, fun he => absurd he (by linarith)⟩

/-! ## The result as a pattern -/

theorem testBit_signed (neg : Bool) {b : Nat} (hb : b < f.signWeight) :
    (f.signed neg b).testBit (f.expBits + f.prec - 1) = neg := by
  have hbit : b.testBit (f.expBits + f.prec - 1) = false := Nat.testBit_lt_two_pow hb
  cases neg with
  | false => exact hbit
  | true =>
    change (2 ^ (f.expBits + f.prec - 1) + b).testBit _ = true
    rw [Nat.testBit_two_pow_add_eq, hbit]
    rfl

theorem signed_mod_two (hf : f.Proper) (neg : Bool) (b : Nat) : f.signed neg b % 2 = b % 2 := by
  have : (neg.toNat * f.signWeight) % 2 = 0 := by
    rw [signWeight_eq hf, ← mul_assoc, Nat.mul_mod, hidden_even hf, Nat.mul_zero]
  rw [signed_eq, Nat.add_mod, this, Nat.zero_add, Nat.mod_mod]

/-- Rounding gives the nearest magnitude pattern, infinity's in place of all beyond it, with the sign. -/
theorem round_nearest (hf : f.Proper) (neg : Bool) (num : Nat) {den : Nat} (hd : 0 < den) (e : Int) :
    ∃ b, f.Nearest (num / den * 2 ^ e) b ∧ f.round neg num den e = f.signed neg (min f.infinity b) := by
  rcases Nat.eq_zero_or_pos num with rfl | hn
  · exact ⟨0, by simpa using f.nearest_zero, by simp [round]⟩
  · refine ⟨f.roundedPattern num den e, nearest_roundedPattern hf hn hd e, ?_⟩
    rw [round, if_neg hn.ne', roundMagnitude_eq]

/-- What R170 asks of the result of an operation on numbers, for its exact result `z` and the sign an exact zero has. -/
def Correct (f : FloatFormat) (E : Nat) (z : ℚ) (zeroSign : Bool) (bits : Nat) : Prop :=
  bits < 2 ^ (f.expBits + f.prec) ∧
  (z ≠ 0 → (bits.testBit (f.expBits + f.prec - 1) = true ↔ z < 0)) ∧
  (z = 0 → bits.testBit (f.expBits + f.prec - 1) = zeroSign) ∧
  ((2 : ℚ) ^ E - 2 ^ (E - f.prec - 1) ≤ |z| → f.decode bits = .infinite (decide (z < 0))) ∧
  (|z| < (2 : ℚ) ^ E - 2 ^ (E - f.prec - 1) → (f.decode bits).isFinite = true ∧
    ∀ v : Nat, v < 2 ^ (f.expBits + f.prec) → (f.decode v).isFinite = true →
      |z - (f.decode bits).value| ≤ |z - (f.decode v).value| ∧
      (|z - (f.decode bits).value| = |z - (f.decode v).value| →
        (f.decode v).value = (f.decode bits).value ∨ bits % 2 = 0))

/-- One rounding of the exact result is correct: its sign, the threshold of overflow, and the nearest number below it. -/
theorem Rounds.correct {z : ℚ} {zeroSign : Bool} {r : Option Nat} (h : f.Rounds z zeroSign r) (hf : f.Proper) {E : Nat}
    (hE : 2 ^ (f.expBits - 1) = E) (hp : f.prec < E) : ∃ bits, r = some bits ∧ f.Correct E z zeroSign bits := by
  obtain ⟨neg, num, den, e, hd, rfl, hz, hzero⟩ := h
  obtain ⟨b, hnear, hround⟩ := round_nearest hf neg num hd e
  obtain ⟨c, hc, hodd, hthreshold⟩ := overflow_threshold hf hE hp
  have hover := hnear.succ_le_iff hodd
  rw [hthreshold, ← hc] at hover
  have hx : (0 : ℚ) ≤ num / den * 2 ^ e := by positivity
  generalize (num : ℚ) / den * 2 ^ e = x at hz hnear hover hx
  have habs : |z| = x := by rw [hz, abs_signOf_mul, abs_of_nonneg hx]
  have hmin : min f.infinity b < f.signWeight := (min_le_left _ _).trans_lt (infinity_lt_signWeight hf)
  have hsign (h0 : z ≠ 0) : neg = true ↔ z < 0 := by
    have : 0 < x := habs ▸ abs_pos.mpr h0
    rw [hz, signOf_mul_neg_iff this]
  rw [hround]
  refine ⟨_, rfl, signed_lt hf neg hmin, fun h0 => ?_, fun h0 => ?_, fun hT => ?_, fun hT => ?_⟩
  · rw [testBit_signed neg hmin, hsign h0]
  · rw [testBit_signed neg hmin, hzero h0]
  · rw [habs] at hT
    have hpow : (2 : ℚ) ^ (E - f.prec - 1) < 2 ^ E := pow_lt_pow_right₀ one_lt_two (by omega)
    have h0 : z ≠ 0 := abs_pos.mp (by linarith)
    have hneg : neg = decide (z < 0) := by rw [Bool.eq_iff_iff, hsign h0, decide_eq_true_iff]
    rw [min_eq_left (hover.mpr hT), decode_infinity hf, hneg]
  · rw [habs] at hT
    have hb : b < f.infinity := by
      by_contra hle
      exact absurd (hover.mp (not_lt.mp hle)) (not_le.mpr hT)
    rw [min_eq_right hb.le, decode_finite hf neg hb]
    refine ⟨rfl, fun v hv hfin => ?_⟩
    obtain ⟨neg', b', hb', rfl⟩ := exists_signed hf hv
    rw [finite_of_decode hf hb' hfin, value_finite, value_finite, hz, signed_mod_two hf]
    exact hnear.signed hx neg neg' b'

/-! ## The operations on registers' values -/

theorem finite_msb {v : Word} (h : (readFloat v).isFinite = true) : ∃ m e, readFloat v = .finite v.msb m e := by
  rw [readFloat_eq] at h ⊢
  split at h
  · split at h <;> cases h
  · next hfin => exact ⟨_, _, if_neg hfin⟩

/-- The sign of an exact zero (R170). -/
def exactZeroSign (op : ArithOp) (d a : Bool) : Bool :=
  match op with
  | .add => d && a
  | .sub => d && !a
  | _ => d != a

theorem compute_rounds (f : FloatFormat) {op : ArithOp} {d a : Word} {z : ℚ}
    (hd : (readFloat d).isFinite = true) (ha : (readFloat a).isFinite = true)
    (hz : (op = .add ∧ z = (readFloat d).value + (readFloat a).value) ∨
      (op = .sub ∧ z = (readFloat d).value - (readFloat a).value) ∨
      (op = .mul ∧ z = (readFloat d).value * (readFloat a).value) ∨
      (op = .div ∧ (readFloat a).value ≠ 0 ∧ z = (readFloat d).value / (readFloat a).value)) :
    f.Rounds z (exactZeroSign op d.msb a.msb) (f.compute op (readFloat d) (readFloat a)) := by
  obtain ⟨m, e, hd⟩ := finite_msb hd
  obtain ⟨n, g, ha⟩ := finite_msb ha
  rw [hd, ha] at hz ⊢
  rcases hz with ⟨rfl, rfl⟩ | ⟨rfl, rfl⟩ | ⟨rfl, rfl⟩ | ⟨rfl, hne, rfl⟩
  · exact f.add_rounds ..
  · rw [sub_eq_add_neg, ← FloatValue.value_negate]
    exact f.add_rounds ..
  · exact f.mul_rounds ..
  · refine f.div_rounds _ _ _ _ _ fun hn => hne ?_
    rw [FloatValue.value_finite, hn, Nat.cast_zero, zero_mul, mul_zero]

end FloatFormat

/-- Settles O31: each operation is one rounding of its exact result, and one rounding is correct in either format. -/
theorem floatResultIsNearest : Obligations.FloatResultIsNearest := by
  intro f n E op d a z hf hd ha hz
  have hrounds := f.compute_rounds hd ha hz
  rcases hf with ⟨rfl, rfl, rfl⟩ | ⟨rfl, rfl, rfl⟩
  · exact hrounds.correct FloatFormat.proper_binary32 rfl (by decide)
  · exact hrounds.correct FloatFormat.proper_binary64 rfl (by decide)

end Sys2Proof.Machine
end

section
/-!
SUPPORT. The integer arithmetic of `arth` (R150 to R162): how operands are read and results written, what each operator leaves, and
what the completed instruction leaves once its operands, the level and the mode are in order.
-/

namespace Sys2Proof.Machine

/-! ## Operand conversion -/

namespace IntShape

theorem read_unsigned (n : Nat) (v : Word) : read ⟨n, false⟩ v = ((v.toNat % 2 ^ n : Nat) : Int) := by
  rw [read, if_neg Bool.false_ne_true, BitVec.toNat_setWidth]

/-- A type as narrow as a register, or narrower, reads the low bits. -/
theorem read_signed_narrow {n : Nat} (hn : n ≤ 32) (v : Word) : read ⟨n, true⟩ v = (v.setWidth n).toInt := by
  rw [read, if_pos rfl, BitVec.signExtend_eq_setWidth_of_le _ hn]

/-- A type as wide as a register, or wider, reads the whole register. -/
theorem read_signed_wide {n : Nat} (hn : 32 ≤ n) (v : Word) : read ⟨n, true⟩ v = v.toInt := by
  rw [read, if_pos rfl, BitVec.toInt_signExtend_of_le hn]

theorem write_getLsbD {n k : Nat} (signed : Bool) (r : Int) (hk : k < 32) :
    (write ⟨n, signed⟩ r).getLsbD k =
      if k < n then (BitVec.ofInt n r).getLsbD k else signed && (BitVec.ofInt n r).msb := by
  cases signed with
  | true =>
    rw [write, if_pos rfl, BitVec.getLsbD_signExtend, decide_eq_true hk, Bool.true_and, Bool.true_and]
  | false =>
    rw [write, if_neg Bool.false_ne_true, BitVec.getLsbD_setWidth, decide_eq_true hk, Bool.true_and, Bool.false_and]
    split
    · rfl
    · next h => exact BitVec.getLsbD_of_ge _ _ (not_lt.mp h)

/-- Of a 64-bit result the low 32 bits are kept. -/
theorem write_wide (signed : Bool) (r : Int) : write ⟨64, signed⟩ r = BitVec.ofInt 32 r := by
  have hlow : (BitVec.ofInt 64 r).setWidth 32 = BitVec.ofInt 32 r := by
    apply BitVec.eq_of_toNat_eq
    rw [BitVec.toNat_setWidth, BitVec.toNat_ofInt, BitVec.toNat_ofInt]
    omega
  cases signed with
  | true => rw [write, if_pos rfl, BitVec.signExtend_eq_setWidth_of_le _ (by decide), hlow]
  | false => rw [write, if_neg Bool.false_ne_true, hlow]

end IntShape

/-- Settles O22: reading and writing by width, and a written result bit by bit. -/
theorem operandConversion : Obligations.OperandConversion := by
  refine ⟨fun n v hn => ⟨IntShape.read_unsigned n v, IntShape.read_signed_narrow (by omega) v⟩,
    fun v => ⟨?_, IntShape.read_signed_wide (by decide) v⟩, fun n signed r hn => ⟨fun k hk => ?_, fun k hk hk32 => ?_⟩,
    IntShape.write_wide⟩
  · rw [IntShape.read_unsigned, Nat.mod_eq_of_lt (v.isLt.trans (by decide))]
  · rw [IntShape.write_getLsbD _ _ (by omega), if_pos hk]
  · rw [IntShape.write_getLsbD _ _ hk32, if_neg (not_lt.mpr hk)]

/-! ## The operators -/

section Operators

variable {m : ArithMode} {ty : IntShape} {a d : Word} {rd : Reg} {s : State}

theorem captureReg_eq_none (h : m.type = .ulong → m.ext = none) : captureReg m = none := by
  unfold captureReg
  split
  · next ht => exact h ht
  · rfl

theorem arithmetic_of_shape (ht : m.type.shape = some ty) : arithmetic m a d rd s = aluOp m ty a d rd s := by
  rw [arithmetic, ht]

/-- Add, sub and mul without extension capture (R154). -/
theorem arithmetic_plain (ht : m.type.shape = some ty) (hc : captureReg m = none)
    (hop : m.op = .add ∨ m.op = .sub ∨ m.op = .mul) : arithmetic m a d rd s = .ok (aluPlain m.op ty a d rd s) := by
  rw [arithmetic_of_shape ht, aluOp, hc]
  rcases hop with h | h | h <;> rw [h]

/-- Add, sub and mul with extension capture (R160). -/
theorem arithmetic_extended {i : Nat} (ht : m.type = .ulong) (hi : m.ext = some i)
    (hop : m.op = .add ∨ m.op = .sub ∨ m.op = .mul) : arithmetic m a d rd s = .ok (aluExtended m.op i a d rd s) := by
  have hshape : m.type.shape = some ⟨32, false⟩ := by rw [ht]; rfl
  have hc : captureReg m = some i := by rw [captureReg, if_pos ht, hi]
  rw [arithmetic_of_shape hshape, aluOp, hc]
  rcases hop with h | h | h <;> rw [h]

/-- Div and mod (R159). -/
theorem arithmetic_divide (ht : m.type.shape = some ty) (hop : m.op = .div ∨ m.op = .mod) :
    arithmetic m a d rd s =
      if ty.read a = 0 then raise .aluFault s
      else .ok (s.set rd (ty.write (exactResult m.op (ty.read d) (ty.read a)))) := by
  rw [arithmetic_of_shape ht, aluOp]
  rcases hop with h | h <;> rw [h] <;> rfl

end Operators

/-- Quotient toward zero and remainder with the sign of the dividend (R159). -/
theorem tdiv_tmod_spec (d : Int) {a : Int} (ha : a ≠ 0) :
    d = d.tdiv a * a + d.tmod a ∧ |d.tmod a| < |a| ∧ (d.tmod a = 0 ∨ (d.tmod a < 0 ↔ d < 0)) := by
  refine ⟨(Int.tdiv_mul_add_tmod d a).symm, ?_, ?_⟩
  · rw [Int.abs_eq_natAbs, Int.abs_eq_natAbs, Int.natAbs_tmod]
    exact_mod_cast Nat.mod_lt _ (Int.natAbs_pos.mpr ha)
  · have hsign := Int.sign_tmod d a
    split at hsign
    · exact .inl (Int.sign_eq_zero_iff_zero.mp hsign)
    · exact .inr (by rw [← Int.sign_eq_neg_one_iff_neg, hsign, Int.sign_eq_neg_one_iff_neg])

/-! ## The instruction -/

section Arth

variable {s u : State} {op1 : Operand} {a : Word} {id2 : Byte} {rd : Reg} {m : ArithMode}
  (ha : valueOf s op1 = .ok a) (hd : decodeReg id2 = some rd) (hw : canWrite s.lowered rd = true)
  (hm : arithMode (s.get .rarth) = some m)

include ha hd hw hm

/-- `arth` leaves what its operator leaves, with RIP moved past it (R150). -/
theorem effect_arth_ok (h : arithmetic m a (s.get rd) rd s = .ok u) :
    effect (.arth op1 (.reg id2)) s = .ok (u.set .rip (s.get .rip + (Instr.arth op1 (.reg id2)).size)) := by
  rw [effect_arth ha hd hw hm, h]
  rfl

/-- `arth` raises what its operator raises, in the state the instruction found (R159, R172). -/
theorem exec_arth_raise {k : FaultKind} (h : arithmetic m a (s.get rd) rd s = raise k s) :
    exec (.arth op1 (.reg id2)) s = takeFault k s := by
  refine exec_of_raise ?_
  rw [effect_arth ha hd hw hm, h, Check.bind_raise]

/-- An operator that writes the destination alone. -/
theorem arth_writesRegister {v : Word} (h : arithmetic m a (s.get rd) rd s = .ok (s.set rd v)) :
    WritesRegister (.arth op1 (.reg id2)) s rd v :=
  .of_effect (decodeReg_ne_rip hd) (effect_arth_ok ha hd hw hm h)

end Arth

/-! ## Registers and flags a result is left in -/

theorem SameRegsBut.refl (s : State) (rs : List Reg) : SameRegsBut s s rs := fun _ _ => rfl

theorem SameRegsBut.then_set {s t : State} {rs : List Reg} (h : SameRegsBut s t rs) {r : Reg} (hr : r ∈ rs) (v : Word) :
    SameRegsBut s (t.set r v) rs := by
  intro q hq
  rw [State.get_set_ne _ _ fun he => hq (by rw [he]; exact hr), h q hq]

@[simp] theorem State.overflow_set_rip (s : State) (v : Word) : (s.set .rip v).overflow = s.overflow := by
  rw [State.overflow, State.get_set_ne _ _ (by decide), State.overflow]

@[simp] theorem State.underflow_set_rip (s : State) (v : Word) : (s.set .rip v).underflow = s.underflow := by
  rw [State.underflow, State.get_set_ne _ _ (by decide), State.underflow]

theorem State.setFlags_get_ne (s : State) (o u : Bool) {r : Reg} (h : r ≠ .rarth) : (s.setFlags o u).get r = s.get r :=
  State.get_set_ne _ _ h

/-- Settles O23: the destination, then the flags, then RIP. -/
theorem addSubMulResultAndFlags : Obligations.AddSubMulResultAndFlags := by
  intro s op1 a id2 rd m ty r ha hd hw hm ht hext hop
  have hrip := decodeReg_ne_rip hd
  have hr : exactResult m.op (ty.read (s.get rd)) (ty.read a) = r := by
    rcases hop with ⟨h, rfl⟩ | ⟨h, rfl⟩ | ⟨h, rfl⟩ <;> rw [h] <;> rfl
  have hplain := arithmetic_plain (a := a) (d := s.get rd) (rd := rd) (s := s) ht (captureReg_eq_none hext)
    (hop.imp And.left (.imp And.left And.left))
  rw [aluPlain, hr] at hplain
  refine ⟨_, exec_of_effect (effect_arth_ok ha hd hw hm hplain), fun hrarth => ?_, ?_, ?_, fun k h16 h17 => ?_,
    State.get_set_same .., ?_, fun _ => rfl, rfl⟩
  · rw [State.get_set_ne _ _ hrip, State.setFlags_get_ne _ _ _ hrarth, State.get_set_same]
  · rw [State.overflow_set_rip, State.setFlags_overflow, IntShape.overflows, decide_eq_true_iff]
  · rw [State.underflow_set_rip, State.setFlags_underflow, IntShape.underflows, decide_eq_true_iff]
  · rw [State.get_set_ne _ _ (by decide), State.setFlags_rarth _ _ _ h16 h17, State.get_set]
    simp only [eq_comm]
  · exact (((SameRegsBut.refl s _).then_set (by simp) _).then_set (by simp) _).then_set (by simp) _

/-- Settles O24: the destination, then the extension register, then the flags, then RIP. -/
theorem extensionCapture : Obligations.ExtensionCapture := by
  intro s op1 a id2 rd re m i r ha hd hw hm ht hi hre hop
  have hrip := decodeReg_ne_rip hd
  have hext : extReg i = re ∧ re ≠ .rarth ∧ re ≠ .rip := by
    rcases hre with ⟨rfl, rfl⟩ | ⟨rfl, rfl⟩ | ⟨rfl, rfl⟩ | ⟨rfl, rfl⟩ <;> decide
  obtain ⟨hext, hre1, hre2⟩ := hext
  have hr : exactResult m.op ((s.get rd).toNat : Int) (a.toNat : Int) = r := by
    rcases hop with ⟨h, rfl⟩ | ⟨h, rfl⟩ | ⟨h, rfl⟩ <;> rw [h] <;> rfl
  have hextended := arithmetic_extended (a := a) (d := s.get rd) (rd := rd) (s := s) ht hi
    (hop.imp And.left (.imp And.left And.left))
  rw [aluExtended, hr, hext] at hextended
  refine ⟨_, exec_of_effect (effect_arth_ok ha hd hw hm hextended), ?_, fun hne hrarth => ?_, ?_, ?_, fun k h16 h17 => ?_,
    State.get_set_same .., ?_, fun _ => rfl, rfl⟩
  · rw [State.get_set_ne _ _ hre2, State.setFlags_get_ne _ _ _ hre1, State.get_set_same]
  · rw [State.get_set_ne _ _ hrip, State.setFlags_get_ne _ _ _ hrarth, State.get_set_ne _ _ hne, State.get_set_same]
  · rw [State.overflow_set_rip, State.setFlags_overflow]
  · rw [State.underflow_set_rip, State.setFlags_underflow]
  · rw [State.get_set_ne _ _ (by decide), State.setFlags_rarth _ _ _ h16 h17, State.get_set_ne _ _ hre1.symm, State.get_set]
    simp only [eq_comm]
  · exact ((((SameRegsBut.refl s _).then_set (by simp) _).then_set (by simp) _).then_set (by simp) _).then_set (by simp) _

/-- Settles O25: the truncating quotient and its remainder. -/
theorem divisionTowardZero : Obligations.DivisionTowardZero := by
  intro s op1 a id2 rd m ty ha hd hw hm ht hop hne
  obtain ⟨hsplit, hlt, hsign⟩ := tdiv_tmod_spec (ty.read (s.get rd)) hne
  refine ⟨_, _, hsplit, hlt, hsign, arth_writesRegister ha hd hw hm ?_⟩
  rw [arithmetic_divide ht hop, if_neg hne]
  rcases hop with h | h <;> rw [h] <;> rfl

/-- Settles O26: the divisor is the last check of the operator, in the type for integers and by the pattern for floats. -/
theorem zeroDivisorFaults : Obligations.ZeroDivisorFaults := by
  intro s op1 a id2 rd m ha hd hw hm
  refine ⟨fun ty ht hop h0 => exec_arth_raise ha hd hw hm ?_, fun ht hop h0 => exec_arth_raise ha hd hw hm ?_⟩
  · rw [arithmetic_divide ht hop, if_pos h0]
  · have hzero : m.op = .div ∧ isFloatZero a = true := ⟨hop, by rcases h0 with rfl | rfl <;> decide⟩
    rcases ht with h | h
    · simp only [arithmetic, h, ArithType.shape, fpuSingle, hzero, if_true, and_self]
    · simp only [arithmetic, h, ArithType.shape, fpuDoubleOp, hzero, if_true, and_self, reduceCtorEq, if_false]

end Sys2Proof.Machine
end

section
/-!
SUPPORT. The floating-point arithmetic of `arth` (R170, R171): a NaN result's pattern, whatever its free bits, and what single and
double precision leave.
-/

namespace Sys2Proof.Machine

/-! ## NaN patterns -/

/-- Exponent all ones and a fraction that is not zero (R170). -/
theorem FloatFormat.decode_nan {f : FloatFormat} {bits : Nat}
    (hexp : bits / 2 ^ (f.prec - 1) % 2 ^ f.expBits = 2 ^ f.expBits - 1) (hfrac : bits % 2 ^ (f.prec - 1) ≠ 0) :
    f.decode bits = .nan := by
  simp only [decode, hexp, if_true, hfrac, if_false]

/-- A mask sets the exponent, and a bit of the fraction is set where the fraction has none. -/
theorem nan_fields {n p w : Nat} (v mask : BitVec n) (hp : 0 < p) (hn : 0 < n)
    (hexp : mask.extractLsb' p w = BitVec.allOnes w) (hfrac : mask.setWidth p = 0) :
    ((v ||| mask) ||| (if v.setWidth p = 0 then 1 else 0)).toNat / 2 ^ p % 2 ^ w = 2 ^ w - 1 ∧
    ((v ||| mask) ||| (if v.setWidth p = 0 then 1 else 0)).toNat % 2 ^ p ≠ 0 := by
  constructor
  · rw [← Nat.shiftRight_eq_div_pow, ← BitVec.extractLsb'_toNat, BitVec.extractLsb'_or, BitVec.extractLsb'_or, hexp,
      BitVec.or_allOnes, BitVec.allOnes_or, BitVec.toNat_allOnes]
  · have hone : ((1 : BitVec n).setWidth p).toNat = 1 := by
      rw [BitVec.toNat_setWidth, BitVec.ofNat_eq_ofNat, BitVec.toNat_one hn,
        Nat.mod_eq_of_lt (Nat.one_lt_two_pow hp.ne')]
    rw [← BitVec.toNat_setWidth, BitVec.setWidth_or, BitVec.setWidth_or, hfrac, BitVec.toNat_or, BitVec.toNat_or]
    split
    · next h =>
      rw [h, hone]
      simp
    · next h =>
      refine fun h0 => h (BitVec.eq_of_toNat_eq ?_)
      exact (Nat.or_eq_zero_iff.mp (Nat.or_eq_zero_iff.mp h0).1).1

theorem readFloat_nanPattern (v : Word) : readFloat (nanPattern v) = .nan := by
  obtain ⟨hexp, hfrac⟩ := nan_fields (p := 23) (w := 8) v 0x7F800000 (by decide) (by decide) (by decide) (by decide)
  exact FloatFormat.decode_nan hexp hfrac

theorem decode_nanPatternDouble (v : BitVec 64) : binary64.decode (nanPatternDouble v).toNat = .nan := by
  obtain ⟨hexp, hfrac⟩ :=
    nan_fields (p := 52) (w := 11) v 0x7FF0000000000000 (by decide) (by decide) (by decide) (by decide)
  exact FloatFormat.decode_nan hexp hfrac

/-! ## The divisor -/

theorem isFloatZero_iff (a : Word) : isFloatZero a = true ↔ a = 0x00000000 ∨ a = 0x80000000 := by
  have hlt := a.isLt
  rw [isFloatZero, beq_iff_eq, ← BitVec.toNat_inj, ← BitVec.toNat_inj, ← BitVec.toNat_inj, BitVec.toNat_setWidth]
  change a.toNat % 2 ^ 31 = 0 ↔ a.toNat = 0 ∨ a.toNat = 0x80000000
  omega

section Operators

variable {m : ArithMode} {a d : Word} {rd : Reg} {s : State}

theorem not_zeroDivisor {op : ArithOp} (h : ¬ (op = .div ∧ (a = 0x00000000 ∨ a = 0x80000000))) :
    ¬ (op = .div ∧ isFloatZero a = true) := by
  rwa [isFloatZero_iff]

/-- Single precision writes one register; which NaN it writes is by the count of NaN results drawn (R170). -/
theorem arithmetic_single (ht : m.type = .f32) (h0 : ¬ (m.op = .div ∧ (a = 0x00000000 ∨ a = 0x80000000))) :
    ∃ n v, arithmetic m a d rd s = .ok (({ s with draws := n } : State).set rd v) ∧
      (∀ bits, binary32.compute m.op (readFloat d) (readFloat a) = some bits → v = BitVec.ofNat 32 bits) ∧
      (binary32.compute m.op (readFloat d) (readFloat a) = none → readFloat v = .nan) := by
  have hroute : arithmetic m a d rd s = fpuSingle m.op a d rd s := by
    rw [arithmetic, ht]
    rfl
  rw [hroute, fpuSingle, if_neg (not_zeroDivisor h0)]
  cases binary32.compute m.op (readFloat d) (readFloat a) with
  | some bits => exact ⟨s.draws, _, rfl, fun _ h => by cases h; rfl, nofun⟩
  | none => exact ⟨s.draws + 1, _, rfl, nofun, fun _ => readFloat_nanPattern _⟩

/-- Double precision writes the low half, then the upper half if a register is selected for it (R171). -/
theorem arithmetic_double (ht : m.type = .f64) (h0 : ¬ (m.op = .div ∧ (a = 0x00000000 ∨ a = 0x80000000))) {w : BitVec 64}
    (hw : w = fpuDouble s.cfg.double m.op a d) :
    arithmetic m a d rd s =
      .ok (match m.ext with
        | none => s.set rd (w.extractLsb' 0 32)
        | some i => (s.set rd (w.extractLsb' 0 32)).set (floatReg i) (w.extractLsb' 32 32)) := by
  have hroute : arithmetic m a d rd s = fpuDoubleOp m.op m.ext a d rd s := by
    rw [arithmetic, ht]
    rfl
  rw [hroute, fpuDoubleOp, if_neg (not_zeroDivisor h0), hw]
  cases m.ext <;> rfl

end Operators

/-- R171's default is the rounded result, and some NaN where there is none. -/
theorem widenedDouble_spec (op : ArithOp) (a d : Word) :
    (∀ bits, binary64.compute op (readFloat d) (readFloat a) = some bits → widenedDouble op a d = BitVec.ofNat 64 bits) ∧
    (binary64.compute op (readFloat d) (readFloat a) = none → binary64.decode (widenedDouble op a d).toNat = .nan) := by
  unfold widenedDouble
  refine ⟨fun bits h => by rw [h], fun h => ?_⟩
  rw [h]
  exact decode_nanPatternDouble _

/-- Settles O28: one register besides RIP, whatever the operation gives. -/
theorem singlePrecisionResult : Obligations.SinglePrecisionResult := by
  intro s op1 a id2 rd m ha hd hw hm ht h0
  have hrip := decodeReg_ne_rip hd
  obtain ⟨n, v, hv, hbits, hnan⟩ := arithmetic_single (d := s.get rd) (rd := rd) (s := s) ht h0
  have hrd : ((({ s with draws := n } : State).set rd v).set .rip
      (s.get .rip + (Instr.arth op1 (.reg id2)).size)).get rd = v := by
    rw [State.get_set_ne _ _ hrip, State.get_set_same]
  refine ⟨_, exec_of_effect (effect_arth_ok ha hd hw hm hv), fun bits h => ?_, fun h => ?_, State.get_set_same .., ?_,
    fun _ => rfl, rfl⟩
  · rw [hrd, hbits bits h]
  · rw [hrd, hnan h]
  · exact SameRegsBut.set_rip ({ s with draws := n } : State) rd v _

/-- Settles O32: one or two registers besides RIP, and FPU_DOUBLE's default. -/
theorem doublePrecisionSplit : Obligations.DoublePrecisionSplit := by
  intro s op1 a id2 rd m w ha hd hw hm ht h0 hfpu
  have hrip := decodeReg_ne_rip hd
  have hdouble := arithmetic_double (rd := rd) ht h0 hfpu
  refine ⟨fun hext => ?_, fun i rf hext hrf => ?_, fun hcfg => ?_⟩
  · rw [hext] at hdouble
    exact arth_writesRegister ha hd hw hm hdouble
  · have hreg : floatReg i = rf ∧ rf ≠ .rip := by
      rcases hrf with ⟨rfl, rfl⟩ | ⟨rfl, rfl⟩ | ⟨rfl, rfl⟩ | ⟨rfl, rfl⟩ <;> decide
    obtain ⟨hreg, hne⟩ := hreg
    rw [hext] at hdouble
    simp only [hreg] at hdouble
    refine ⟨_, exec_of_effect (effect_arth_ok ha hd hw hm hdouble), ?_, fun hrd => ?_, State.get_set_same .., ?_,
      fun _ => rfl, rfl⟩
    · rw [State.get_set_ne _ _ hne, State.get_set_same]
    · rw [State.get_set_ne _ _ hrip, State.get_set_ne _ _ hrd, State.get_set_same]
    · exact (((SameRegsBut.refl s _).then_set (by simp) _).then_set (by simp) _).then_set (by simp) _
  · rw [hfpu, hcfg]
    exact widenedDouble_spec ..

end Sys2Proof.Machine
end

section
/-!
SUPPORT. The logic unit (R180 to R183): R181's table by numbers and bits, and what `lgic` writes.
-/

namespace Sys2Proof.Machine

/-! ## Shifts and rotates -/

theorem shl_toNat {n : Nat} (d a : BitVec n) :
    (LogicOp.shl.apply n d a).toNat = if a.toNat < n then d.toNat * 2 ^ a.toNat % 2 ^ n else 0 := by
  simp only [LogicOp.apply]
  split
  · rw [BitVec.toNat_shiftLeft, Nat.shiftLeft_eq]
  · rfl

theorem shr_toNat {n : Nat} (d a : BitVec n) :
    (LogicOp.shr.apply n d a).toNat = if a.toNat < n then d.toNat / 2 ^ a.toNat else 0 := by
  simp only [LogicOp.apply]
  split
  · rw [BitVec.toNat_ushiftRight, Nat.shiftRight_eq_div_pow]
  · rfl

/-- A number below twice the width, modulo the width. -/
theorem add_mod_cases {n j c : Nat} (hj : j < n) (hc : c < n) :
    (j + c < n ∧ (j + c) % n = j + c) ∨ (n ≤ j + c ∧ (j + c) % n = j + c - n) := by
  rcases Nat.lt_or_ge (j + c) n with h | h
  · exact .inl ⟨h, Nat.mod_eq_of_lt h⟩
  · exact .inr ⟨h, by rw [Nat.mod_eq_sub_mod h, Nat.mod_eq_of_lt (by omega)]⟩

/-- A rotate to the left moves bit `j` up, modulo the width. -/
theorem rol_getLsbD {n : Nat} (d a : BitVec n) {j : Nat} (hj : j < n) :
    (LogicOp.rol.apply n d a).getLsbD ((j + a.toNat) % n) = d.getLsbD j := by
  have hc := Nat.mod_lt a.toNat (by omega : 0 < n)
  rw [LogicOp.apply, BitVec.getLsbD_rotateLeft, Nat.mod_mod, Nat.add_mod, Nat.mod_eq_of_lt hj]
  generalize a.toNat % n = c at hc
  rcases add_mod_cases hj hc with ⟨h, hmod⟩ | ⟨h, hmod⟩
  · rw [hmod, decide_eq_false (by omega), decide_eq_true h, cond_false, Bool.true_and, Nat.add_sub_cancel]
  · rw [hmod, decide_eq_true (by omega), cond_true]
    congr 1
    omega

/-- A rotate to the right moves the bit back. -/
theorem ror_getLsbD {n : Nat} (d a : BitVec n) {j : Nat} (hj : j < n) :
    (LogicOp.ror.apply n d a).getLsbD j = d.getLsbD ((j + a.toNat) % n) := by
  have hc := Nat.mod_lt a.toNat (by omega : 0 < n)
  rw [LogicOp.apply, BitVec.getLsbD_rotateRight, Nat.mod_mod, Nat.add_mod, Nat.mod_eq_of_lt hj]
  generalize a.toNat % n = c at hc
  rcases add_mod_cases hj hc with ⟨h, hmod⟩ | ⟨h, hmod⟩
  · rw [hmod, decide_eq_true (by omega), cond_true, Nat.add_comm]
  · rw [hmod, decide_eq_false (by omega), decide_eq_true hj, cond_false, Bool.true_and]
    congr 1
    omega

/-- Settles O34: each row of the table by itself. -/
theorem logicOperationTable : Obligations.LogicOperationTable :=
  fun _ d a _ => ⟨BitVec.toNat_xor .., BitVec.toNat_and .., BitVec.toNat_or .., shl_toNat d a, shr_toNat d a,
    fun _ => rol_getLsbD d a, fun _ => ror_getLsbD d a⟩

/-! ## What `lgic` writes -/

/-- The value `lgic` writes, by the number the operation gives at the width; NOT is the complement within the width (R180). -/
theorem LogicMode.eval_eq (m : LogicMode) (d a : Word) {r : Nat}
    (hr : r = (match m.op with
      | none => a.toNat % 2 ^ m.width.bits
      | some op => (op.apply m.width.bits (d.setWidth m.width.bits) (a.setWidth m.width.bits)).toNat)) :
    m.eval d a = BitVec.ofNat 32 (if m.not then 2 ^ m.width.bits - 1 - r else r) := by
  have hresult : (m.result m.width.bits (d.setWidth m.width.bits) (a.setWidth m.width.bits)).toNat =
      if m.not then 2 ^ m.width.bits - 1 - r else r := by
    rw [LogicMode.result, hr]
    cases m.op with
    | none => cases m.not <;> simp
    | some op => cases m.not <;> simp
  rw [LogicMode.eval, ← BitVec.ofNat_toNat, hresult]

/-- Settles O33: one register besides RIP. -/
theorem logicWritesResult : Obligations.LogicWritesResult := by
  intro s op1 a id2 rd m r ha hd hw hm hr
  refine .of_effect (decodeReg_ne_rip hd) ?_
  rw [effect_lgic ha hd hw hm, m.eval_eq _ _ (hr _ rfl)]
  rfl

end Sys2Proof.Machine
end

section
/-!
SUPPORT. The inline vectors at the elevated level and the ports behind them (R190 to R206, R263 to R265): what each vector
answers as one equation, and the statements that follow from it by the frame of a write of RIP.
-/

namespace Sys2Proof.Machine

/-! ## An inline vector's answer -/

theorem exec_intr_inline {s : State} {v : Word} {f : InlineVector} (hl : s.lowered = false) (hf : inlineOf v = some f) :
    exec (.intr (.lit v)) s = settle (inlineEffect f (s.get .rip + 8) s) := by
  rw [exec_eq_settle_effect, effect_intr_inline hl hf]

/-- A write of one register, where no register has been written before it. -/
theorem SameRegsBut.set_of_regs_eq {s u : State} {r : Reg} {v : Word} (hu : u.regs = s.regs) :
    SameRegsBut s (u.set r v) [r] :=
  .then_set (fun q _ => by rw [State.get, State.get, hu]) (List.mem_singleton_self r) v

/-! ## No-operations, vector-install, halt, display -/

/-- Settles O35: each of the four rules is the one write of RIP. -/
theorem noOperationsOnlyAdvance : Obligations.NoOperationsOnlyAdvance := by
  refine fun s => ⟨.of_effect rfl, .of_effect rfl, fun ht => .of_effect ?_, fun hl => .of_effect ?_⟩
  · simp only [effect, ltskEffect, ht, Bool.false_eq_true, if_false]
    rfl
  · exact effect_intr_inline (f := .invalidate) hl rfl

theorem vectorInstall_installable {s : State} (next : Word) (h : installable (s.get .rgp1).toNat = true) :
    vectorInstall next s =
      .ok ((s.setSlot (s.get .rgp1).toNat ⟨(s.get .rgp3).getLsbD 0, s.get .rgp2⟩).set .rip next) := if_pos h

theorem vectorInstall_not_installable {s : State} (next : Word) (h : ¬ installable (s.get .rgp1).toNat = true) :
    vectorInstall next s = raise .illegalInterrupt s := if_neg h

theorem installable_range {n : Nat} (h : installable n = true) : 1 ≤ n ∧ n ≤ 127 := by
  rw [installable_iff] at h
  omega

/-- Settles O36: the slot RGP1 names is replaced, or the number is refused. -/
theorem vectorInstalls : Obligations.VectorInstall := by
  intro s n hl hn
  subst hn
  rw [exec_intr_inline hl rfl, inlineEffect, ← installable_iff]
  refine ⟨fun h => ?_, fun h => ?_⟩
  · rw [vectorInstall_installable _ h]
    refine ⟨_, rfl, ?_, fun v hv => ?_, State.get_set_same .., .set_of_regs_eq (State.setSlot_regs ..), ?_, ?_⟩
    · rw [State.set_slot, State.slot_setSlot, if_pos ⟨rfl, installable_range h⟩]
    · rw [State.set_slot, State.slot_setSlot, if_neg fun e => hv e.1]
    · exact byteAt_of_mem (State.setSlot_mem ..)
    · rw [State.setSlot_eq]
      rfl
  · rw [vectorInstall_not_installable _ h]
    rfl

/-- Settles O37: RUN or the display is written under the write of RIP. -/
theorem haltAndDisplay : Obligations.HaltAndDisplay := by
  intro s hl
  rw [exec_intr_inline hl rfl, exec_intr_inline hl rfl]
  exact ⟨⟨_, rfl, rfl, State.get_set_same .., .set_of_regs_eq rfl, fun _ => rfl, rfl⟩,
    ⟨_, rfl, rfl, State.get_set_same .., .set_of_regs_eq rfl, fun _ => rfl, rfl⟩⟩

/-! ## The host's own answers -/

/-- The host fails a request where the next of its answers is one that does (log 9). -/
theorem headD_false_iff {answers : List Bool} : answers.headD false = true ↔ answers.head? = some true := by
  cases answers <;> simp

/-! ## Storage -/

section Storage

variable {s : State} {write : Bool} {dev off len : Nat} {p : Word}

theorem storageOffset_eq (s : State) :
    storageOffset s =
      (if (s.get .rgp1).getLsbD 1 then (s.get .rgp6).toNat * 2 ^ 32 else 0) + (s.get .rgp5).toNat := by
  unfold storageOffset
  split <;> simp

theorem storageTransfer_ok (hr : storageInRange s dev off len = true) (he : s.storageErrors.head? ≠ some true) (n : Nat) :
    storageTransfer write dev off len n s =
      .ok (if write then storagePut { s with storageErrors := s.storageErrors.tail } dev off (s.bytesAt n len)
        else ({ s with storageErrors := s.storageErrors.tail } : State).storeBytes n (storageBytesAt s dev off len)) := by
  rw [Ne, ← headD_false_iff, Bool.not_eq_true] at he
  have hport : (storageInRange s dev off len && !s.storageErrors.headD false) = true := by rw [hr, he]; rfl
  cases write with
  | true => exact if_pos hport
  | false => exact if_pos hport

/-- A port that fails the transfer moves no byte; the host's answer is used up (R264, log 9). -/
theorem storageTransfer_fails (h : storageInRange s dev off len = false ∨ s.storageErrors.head? = some true) (n : Nat) :
    storageTransfer write dev off len n s = raise .ioFault { s with storageErrors := s.storageErrors.tail } := by
  rw [← headD_false_iff] at h
  have hport : (storageInRange s dev off len && !s.storageErrors.headD false) = false := by
    rcases h with h | h <;> rw [h]
    · rfl
    · exact Bool.and_false _
  cases write with
  | true => exact if_neg (Bool.eq_false_iff.mp hport)
  | false => exact if_neg (Bool.eq_false_iff.mp hport)

/-- Storage I/O once the buffer is in order (R202). -/
theorem exec_storage (hl : s.lowered = false) (hw : write = (s.get .rgp1).getLsbD 0)
    (hp : translate s (s.get .rgp3) (if write then permR else permW) = .ok p)
    (hz : inZone s.cfg p.toNat (s.get .rgp4).toNat = true) :
    exec (.intr (.lit 0x0B)) s =
      settle (storageTransfer write (s.get .rgp2).toNat (storageOffset s) (s.get .rgp4).toNat p.toNat s >>=
        fun t => .ok (t.set .rip (s.get .rip + 8))) := by
  subst hw
  rw [exec_intr_inline hl rfl, inlineEffect, storageIo, hp, Check.bind_ok, hz, ensure_true, Check.bind_ok]

theorem exec_storage_outside_zone (hl : s.lowered = false)
    (hp : translate s (s.get .rgp3) (if (s.get .rgp1).getLsbD 0 then permR else permW) = .ok p)
    (hz : inZone s.cfg p.toNat (s.get .rgp4).toNat = false) :
    exec (.intr (.lit 0x0B)) s = takeFault .badMemory s := by
  rw [exec_intr_inline hl rfl, inlineEffect, storageIo, hp, Check.bind_ok, hz, ensure_false, Check.bind_raise, settle_raise]

theorem exec_storage_unresolved {u : State} {k : FaultKind} (hl : s.lowered = false)
    (hp : translate s (s.get .rgp3) (if (s.get .rgp1).getLsbD 0 then permR else permW) = .error (.raise k u)) :
    exec (.intr (.lit 0x0B)) s = takeFault k u := by
  rw [exec_intr_inline hl rfl, inlineEffect, storageIo, hp, Check.bind_error, settle_error]

theorem storageBytesAt_length (s : State) (dev off len : Nat) : (storageBytesAt s dev off len).length = len := by
  simp [storageBytesAt]

/-- The bytes read from a device are in memory in device order (R202). -/
theorem byteAt_storeBytes_storageBytesAt (u : State) {n k : Nat} (hk : k < len) :
    (u.storeBytes n (storageBytesAt s dev off len)).byteAt (n + k) = storageByteAt s dev (off + k) := by
  rw [State.byteAt_storeBytes_of_lt u n _ (by rwa [storageBytesAt_length])]
  simp [storageBytesAt]

theorem bytesAt_getElem? (s : State) {n k : Nat} (hk : k < len) : (s.bytesAt n len)[k]? = some (s.byteAt (n + k)) := by
  simp [State.bytesAt, hk]

/-- A transfer to a device leaves every device its size (R264). -/
theorem storagePut_sizes (s : State) (dev off : Nat) (bytes : List Byte) :
    (storagePut s dev off bytes).storage.map Device.size = s.storage.map Device.size := by
  apply List.ext_getElem?
  intro j
  rw [storagePut, List.getElem?_map, List.getElem?_map, List.getElem?_modify]
  cases s.storage[j]? with
  | none => rfl
  | some d => by_cases h : dev = j <;> simp [h]

end Storage

/-- Settles O38: the answer is one store of the device's bytes, and RIP. -/
theorem storageReadFillsMemory : Obligations.StorageReadFillsMemory := by
  rintro s p dev off len d hl hread rfl rfl hoff hp hz hdev hd hsize he
  rw [← storageOffset_eq] at hoff
  subst hoff
  rw [exec_storage hl hread.symm hp hz, storageTransfer_ok (storageInRange_iff.mpr ⟨hdev, d, hd, hsize⟩) he]
  refine ⟨_, rfl, fun k hk => byteAt_storeBytes_storageBytesAt _ hk, State.get_set_same .., .set_of_regs_eq rfl,
    fun a ha => ?_, rfl⟩
  exact State.byteAt_storeBytes_outside _ _ _ (by rwa [storageBytesAt_length])

/-- Settles O39: the answer is one transfer of memory's bytes to the device, and RIP. -/
theorem storageWriteFillsDevice : Obligations.StorageWriteFillsDevice := by
  rintro s p dev off len d hl hwrite rfl rfl hoff hp hz hdev hd hsize he
  rw [← storageOffset_eq] at hoff
  subst hoff
  rw [exec_storage hl hwrite.symm hp hz, storageTransfer_ok (storageInRange_iff.mpr ⟨hdev, d, hd, hsize⟩) he]
  have hput := storageByteAt_storagePut { s with storageErrors := s.storageErrors.tail } (s.get .rgp2).toNat
    (storageOffset s) (s.bytesAt p.toNat (s.get .rgp4).toNat) hd
  rw [State.bytesAt_length] at hput
  refine ⟨_, rfl, fun k hk => (hput _ _).trans ?_, fun dev' k hout => (hput dev' k).trans (if_neg (by omega)),
    storagePut_sizes .., State.get_set_same .., .set_of_regs_eq rfl, fun _ => rfl, rfl⟩
  rw [if_pos ⟨rfl, by omega, by omega⟩, Nat.add_sub_cancel_left, bytesAt_getElem? s hk, Option.getD_some]

/-- Settles O40: the buffer's own faults, and behind them the port's. -/
theorem storageFailureIsIoFault : Obligations.StorageFailureIsIoFault := by
  rintro s perm hl rfl
  refine ⟨?_, fun p hp hz => exec_storage_outside_zone hl hp hz, fun u k hp => exec_storage_unresolved hl hp⟩
  rintro p dev off len rfl rfl hoff hp hz hfail
  rw [← storageOffset_eq] at hoff
  subst hoff
  have hport : storageInRange s (s.get .rgp2).toNat (storageOffset s) (s.get .rgp4).toNat = false ∨
      s.storageErrors.head? = some true := by
    rw [← Bool.not_eq_true, storageInRange_iff]
    rcases hfail with hdev | ⟨d, hd, hsize⟩ | he
    · exact .inl fun ⟨h, _⟩ => absurd h (by omega)
    · refine .inl fun ⟨_, d', hd', h⟩ => ?_
      obtain rfl : d = d' := Option.some.inj (hd.symm.trans hd')
      omega
    · exact .inr he
  rw [exec_storage hl rfl hp hz, storageTransfer_fails hport]
  rfl

/-! ## The timer pool -/

theorem timerArm_ok {s : State} (id : Byte) (delay : Word) (hfree : s.armed.length < s.cfg.timerPool)
    (hr : s.timerRefusals.head? ≠ some true) :
    timerArm id delay s = .ok { s with armed := s.armed ++ [⟨id, delay⟩], timerRefusals := s.timerRefusals.tail } := by
  rw [Ne, ← headD_false_iff, Bool.not_eq_true] at hr
  rw [timerArm, hr, decide_eq_false (by omega)]
  rfl

/-- With no timer to arm the pool is left as it was; the host's answer is used up (R265, log 9). -/
theorem timerArm_fails {s : State} (id : Byte) (delay : Word)
    (h : s.cfg.timerPool ≤ s.armed.length ∨ s.timerRefusals.head? = some true) :
    timerArm id delay s = raise .machineCheck { s with timerRefusals := s.timerRefusals.tail } := by
  rw [← headD_false_iff] at h
  exact if_pos (by simpa using h.symm)

/-- Settles O41: the pool has a timer more under the write of RIP, or the fault taken is a MachineCheck, RIP not advanced. -/
theorem timerArms : Obligations.TimerArm := by
  intro s hl
  rw [exec_intr_inline hl rfl, inlineEffect, timerArmVector]
  refine ⟨fun hfree hr => ?_, fun h => ?_⟩
  · rw [timerArm_ok _ _ hfree hr]
    exact ⟨_, rfl, rfl, State.get_set_same .., .set_of_regs_eq rfl, fun _ => rfl, rfl⟩
  · rw [timerArm_fails _ _ h, Check.bind_raise, settle_raise]
    obtain ⟨t, ht, hrff, hregs, hbytes, heq⟩ := machineCheckTerminates.1 { s with timerRefusals := s.timerRefusals.tail }
    exact ⟨t, ht, by rw [heq], by rw [heq], hrff, hregs, hbytes⟩

end Sys2Proof.Machine
end

section
/-!
SUPPORT. The traps of software and the return from one (R206, R208, R212, R230): what the event vectors, a table vector and `ltsk`
answer as one equation for each of their cases, and the statements that follow.
-/

namespace Sys2Proof.Machine

/-! ## Writes of one register -/

theorem State.set_set (s : State) (r : Reg) (v w : Word) : (s.set r v).set r w = s.set r w := by
  rw [State.set, State.set, State.set, Vector.set_set]

theorem State.set_get_self (s : State) (r : Reg) : s.set r (s.get r) = s := by
  rw [State.set, State.get, Vector.get_eq_getElem, Vector.set_getElem_self]

/-! ## Event vectors -/

section Events

variable {s : State}

theorem keyboard_empty_onlyMovesTo (hl : s.lowered = false) (hk : s.kbd = []) :
    OnlyMovesTo (.intr (.lit 0x09)) s (s.get .rip + 8) := by
  refine .of_effect ?_
  rw [effect_intr_inline (f := .keyboard) hl rfl, inlineEffect, keyboardVector, hk]

theorem timerExpired_empty_onlyMovesTo (hl : s.lowered = false) (ht : s.tmr = []) :
    OnlyMovesTo (.intr (.lit 0x10)) s (s.get .rip + 8) := by
  refine .of_effect ?_
  rw [effect_intr_inline (f := .timerExpired) hl rfl, inlineEffect, timerVector, ht]

theorem exec_keyboard_pending {c : Word} {rest : List Word} (hl : s.lowered = false) (hk : s.kbd = c :: rest) :
    exec (.intr (.lit 0x09)) s = settle (deliver 0x09 c (({ s with kbd := rest } : State).set .rip (s.get .rip + 8))) := by
  rw [exec_intr_inline (f := .keyboard) hl rfl, inlineEffect, keyboardVector, hk]

theorem exec_timerExpired_pending {c : Byte} {rest : List Byte} (hl : s.lowered = false) (ht : s.tmr = c :: rest) :
    exec (.intr (.lit 0x10)) s =
      settle (deliver 0x10 (c.setWidth 32) (({ s with tmr := rest } : State).set .rip (s.get .rip + 8))) := by
  rw [exec_intr_inline (f := .timerExpired) hl rfl, inlineEffect, timerVector, ht]

/-- A delivery that switches no task writes RGP1, then RIP if there is a handler to go to (R251). -/
theorem deliver_without_switch {v : Nat} (c : Word) (h : (s.slot v).handler = 0 ∨ s.taskRegs = false) :
    deliver v c s =
      .ok ((s.set .rgp1 c).set .rip (if (s.slot v).handler = 0 then s.get .rip else (s.slot v).handler)) := by
  by_cases h0 : (s.slot v).handler = 0
  · have hrip : (s.set .rgp1 c).get .rip = s.get .rip := State.get_set_ne _ _ (by decide)
    rw [deliver_uninstalled h0, if_pos h0, ← hrip, State.set_get_self]
  · have ht : (s.set .rgp1 c).taskRegs = false :=
      (taskRegs_of_rst (State.get_set_ne s c (by decide))).trans (h.resolve_left h0)
    rw [deliver_installed h0, enter_taskRegs_off ht, if_neg h0]

/-- What the delivery of an event vector leaves, RIP moved past the instruction in a state `u` that has taken an element off
a queue of `s`. -/
theorem deliver_after_rip {u : State} {v : Nat} (c next : Word) (hregs : u.regs = s.regs) (hivt : u.ivt = s.ivt)
    (h : (s.slot v).handler = 0 ∨ s.taskRegs = false) :
    ∃ t, deliver v c (u.set .rip next) = .ok t ∧ t.get .rgp1 = c ∧
      t.get .rip = (if (s.slot v).handler = 0 then next else (s.slot v).handler) ∧
      SameRegsBut s t [.rgp1, .rip] ∧ t = { u with regs := t.regs } := by
  have hslot : (u.set .rip next).slot v = s.slot v := by rw [State.set_slot, State.slot, State.slot, hivt]
  have hrst : (u.set .rip next).get .rst = s.get .rst := by
    rw [State.get_set_ne _ _ (by decide), State.get, State.get, hregs]
  have hsame : SameRegsBut s u [.rgp1, .rip] := fun q _ => by rw [State.get, State.get, hregs]
  rw [deliver_without_switch c (by rwa [hslot, taskRegs_of_rst hrst]), hslot, State.get_set_same]
  exact ⟨_, rfl, by simp, State.get_set_same ..,
    ((hsame.then_set (by decide) _).then_set (by decide) _).then_set (by decide) _, rfl⟩

/-- A delivery to an installed handler with task registers on (R233, R251). -/
theorem TaskTrap.of_deliver {v : Nat} (c : Word) (h : (s.slot v).handler ≠ 0) (ht : s.taskRegs = true) :
    TaskTrap (s.set .rgp1 c) (s.slot v).handler (settle (deliver v c s)) := by
  rw [deliver_installed h]
  exact .of_enter ((taskRegs_of_rst (State.get_set_ne s c (by decide))).trans ht)

end Events

/-- Settles O42: an empty queue moves RIP alone, a pending element is delivered from the state with RIP moved. -/
theorem eventVectorsBySoftware : Obligations.EventVectorsBySoftware := by
  refine fun s hl => ⟨keyboard_empty_onlyMovesTo hl, timerExpired_empty_onlyMovesTo hl, fun c rest hk h => ?_,
    fun c rest ht h => ?_, fun c rest hk h htr => ?_, fun c rest ht h htr => ?_⟩
  · obtain ⟨t, hdeliver, hrgp1, hrip, hregs, heq⟩ :=
      deliver_after_rip (u := { s with kbd := rest }) (v := 0x09) c (s.get .rip + 8) rfl rfl h
    rw [exec_keyboard_pending hl hk, hdeliver]
    exact ⟨t, rfl, hrgp1, by rw [heq], hrip, hregs, byteAt_of_mem (by rw [heq]), by rw [heq]⟩
  · obtain ⟨t, hdeliver, hrgp1, hrip, hregs, heq⟩ :=
      deliver_after_rip (u := { s with tmr := rest }) (v := 0x10) (c.setWidth 32) (s.get .rip + 8) rfl rfl h
    rw [exec_timerExpired_pending hl ht, hdeliver]
    exact ⟨t, rfl, by rw [hrgp1, BitVec.toNat_setWidth_of_le (by decide)], by rw [heq], hrip, hregs,
      byteAt_of_mem (by rw [heq]), by rw [heq]⟩
  · rw [exec_keyboard_pending hl hk]
    exact .of_deliver c h ((taskRegs_of_rst (State.get_set_ne _ _ (by decide))).trans htr)
  · rw [exec_timerExpired_pending hl ht, BitVec.ofNat_toNat]
    exact .of_deliver _ h ((taskRegs_of_rst (State.get_set_ne _ _ (by decide))).trans htr)

/-! ## Table vectors -/

section Table

variable {s : State} {v : Word}

theorem slot_outside {n : Nat} (h : n = 0 ∨ 127 < n) : s.slot n = ⟨false, 0⟩ := dif_neg (by omega)

/-- An installed vector that the level may use enters its handler, RIP past the instruction (R230, R233). -/
theorem dispatchVectored_installed (next : Word) (hh : (s.slot v.toNat).handler ≠ 0)
    (hp : s.lowered = false ∨ (s.slot v.toNat).priv = true) :
    dispatchVectored v next s = enter (s.slot v.toNat).handler (s.set .rip next) := by
  have hallowed : (s.lowered && !(s.slot v.toNat).priv) = false := by
    rcases hp with h | h <;> simp [h]
  rw [dispatchVectored, if_neg hh, if_neg (Bool.eq_false_iff.mp hallowed)]

theorem dispatchVectored_not_installed (next : Word) (hh : (s.slot v.toNat).handler = 0) :
    dispatchVectored v next s = raise .illegalInterrupt s := if_pos hh

end Table

/-- Settles O43: the handler's address is the last write of RIP; a number without a slot reads as not installed. -/
theorem tableVectors : Obligations.TableVectors := by
  refine fun s v hv => ⟨fun _ _ hh hp ht => .of_effect ?_, fun h => exec_of_raise ?_⟩
  · have ht' : (s.set .rip (s.get .rip + 8)).taskRegs = false :=
      (taskRegs_of_rst (State.get_set_ne s _ (by decide))).trans ht
    rw [effect_intr_table hv, dispatchVectored_installed _ hh hp, enter_taskRegs_off ht', State.set_set]
  · have hh : (s.slot v.toNat).handler = 0 := by
      rcases h with h | h | h
      · rw [slot_outside (.inl h)]
      · rw [slot_outside (.inr h)]
      · exact h
    rw [effect_intr_table hv, dispatchVectored_not_installed _ hh]

/-! ## The return from a trap -/

section Return

variable {s : State} {p : Nat}

theorem exec_ltsk (ht : s.taskRegs = true) (hl : s.lowered = false) : exec .ltsk s = settle (trapReturn s) := by
  rw [exec_eq_settle_effect, effect, ltskEffect, if_pos ht, if_neg (Bool.eq_false_iff.mp hl)]

theorem trapReturn_base_error {e : Trap} (hp : taskAddr s (s.get .rbt) = .error e) : trapReturn s = .error e := by
  rw [trapReturn_eq_bind, saveBase_eq_bind, hp]
  rfl

/-- Once the 9 words of the base set are saved, what is left is the load of the current task (R212). -/
theorem trapReturn_saved (hp : taskAddr s (s.get .rbt) = .ok p) :
    trapReturn s = taskAddr (saveRegs Reg.baseSet p s) (s.get .rct) >>=
      fun q => .ok (loadRegs Reg.all q (saveRegs Reg.baseSet p s)) := by
  rw [trapReturn_eq_bind, saveBase_eq_bind, hp, Check.bind_ok, Check.bind_ok, loadCurrent_eq_bind, saveRegs_get]

/-- A MachineCheck from a state that has the registers of `s` terminates with its bit added to them (R223). -/
theorem takeFault_machineCheck_leaves {w : State} (hw : ∀ r, w.get r = s.get r) :
    ∃ t, takeFault .machineCheck w = .next t ∧ t.run = .terminated .machineCheck ∧ t.get .rff = s.get .rff ||| 1 ∧
      SameRegsBut s t [.rff] ∧ ∀ a, t.byteAt a = w.byteAt a := by
  obtain ⟨t, ht, hrff, hregs, hbytes, heq⟩ := machineCheckTerminates.1 w
  exact ⟨t, ht, by rw [heq], by rw [hrff, hw], fun q hq => by rw [hregs q hq, hw], hbytes⟩

end Return

/-- Settles O45: the save of 9 words, then the load of 28 from the memory it left; a pointer that does not resolve stops at a
MachineCheck before the save or between the two. -/
theorem loadTask : Obligations.LoadTask := by
  intro s ht hl
  rw [exec_ltsk ht hl]
  refine ⟨fun p q hp hq => ?_, fun j u hp => ?_, fun p j u hp hq => ?_⟩
  · rw [trapReturn_saved hp, hq]
    refine ⟨_, rfl, fun r => ?_, fun r => ?_, fun a ha => ?_, (SameElse.saveRegs ..).trans (SameElse.loadRegs ..)⟩
    · rw [loadRegs_get, if_pos (Reg.mem_all r), wordAt_of_mem (loadRegs_mem ..)]
    · rw [wordAt_of_mem (loadRegs_mem ..), saveRegs_wordAt]
    · rw [loadRegs_byteAt, saveRegs_byteAt_outside _ _ _ ha]
  · obtain ⟨rfl, hlatch⟩ := taskAddr_error hp
    obtain ⟨t, hexec, hrun, hrff, hregs, hbytes⟩ := takeFault_machineCheck_leaves (s := s) hlatch.get
    rw [trapReturn_base_error hp]
    exact ⟨t, hexec, hrun, hrff, hregs, fun a => (hbytes a).trans (hlatch.byteAt a)⟩
  · obtain ⟨rfl, hlatch⟩ := taskAddr_error hq
    have hsaved (a : Nat) : u.byteAt a = (saveRegs Reg.baseSet p s).byteAt a := hlatch.byteAt a
    obtain ⟨t, hexec, hrun, hrff, hregs, hbytes⟩ :=
      takeFault_machineCheck_leaves (s := s) fun r => (hlatch.get r).trans (saveRegs_get ..)
    rw [trapReturn_saved hp, hq]
    refine ⟨t, hexec, hrun, hrff, hregs, fun r hr => ?_, fun a ha => ?_⟩
    · rw [State.wordAt_congr fun k _ => (hbytes _).trans (hsaved _), saveRegs_wordAt, if_pos hr]
    · rw [hbytes, hsaved, saveRegs_byteAt_outside _ _ _ ha]

end Sys2Proof.Machine
end

section
/-!
SUPPORT. What the lowered level is refused (R247): with operand kinds and ids in order, an operation of R247's table raises
NoPrivilege there and nothing else does.
-/

namespace Sys2Proof.Machine

section Refused

variable {s : State}

/-- A control register as destination, at the lowered level (R23, R108 check 6). -/
theorem destOf_refused {id : Byte} (hl : s.lowered = true) (hc : Operand.isControl (.reg id) = true) :
    destOf s id = raise .noPrivilege s := by
  rw [destOf_eq]
  cases hd : decodeReg id with
  | none => simp [Operand.isControl, hd] at hc
  | some r =>
    have hr : r.offset < 0x20 := by simpa [Operand.isControl, hd] using hc
    exact if_neg (Bool.eq_false_iff.mp (canWrite_eq_false.mpr ⟨hl, hr⟩))

theorem copyTo_refused {op2 : Operand} (hl : s.lowered = true) (hc : Operand.isControl op2 = true) (v next : Word) :
    copyTo v op2 next s = raise .noPrivilege s := by
  cases op2 with
  | reg id2 => rw [copyTo, destOf_refused hl hc, Check.bind_raise]
  | lit a => cases hc

theorem names_of_registersNamed {i : Instr} {op : Operand} (h : registersNamed i = true) (hm : op ∈ i.operands) :
    Operand.names op = true :=
  List.all_eq_true.mp h op hm

/-- An installed vector whose slot is closed to the lowered level (R230). -/
theorem dispatchVectored_refused {v : Word} (next : Word) (hl : s.lowered = true) (hh : (s.slot v.toNat).handler ≠ 0)
    (hp : (s.slot v.toNat).priv = false) : dispatchVectored v next s = raise .noPrivilege s := by
  rw [dispatchVectored, if_neg hh, if_pos (by rw [hl, hp]; rfl)]

theorem isRefusedVector_lit {v : Word} :
    Operand.isRefusedVector (.lit v) s = true ↔
      inlineNumber v = true ∨ (s.slot v.toNat).handler ≠ 0 ∧ (s.slot v.toNat).priv = false := by
  simp [Operand.isRefusedVector]

theorem intrEffect_refused {v : Word} (hl : s.lowered = true) (hp : Operand.isRefusedVector (.lit v) s = true) :
    effect (.intr (.lit v)) s = raise .noPrivilege s := by
  cases hv : inlineNumber v with
  | true =>
    have hf : inlineOf v ≠ none := fun h => by simp [inlineOf_eq_none.mp h] at hv
    obtain ⟨f, hf⟩ := Option.ne_none_iff_exists'.mp hf
    simp only [effect, intrEffect, needLit, Check.bind_ok, hf, if_pos hl]
  | false =>
    obtain ⟨hh, hpriv⟩ := (isRefusedVector_lit.mp hp).resolve_left (Bool.eq_false_iff.mp hv)
    rw [effect_intr_table hv, dispatchVectored_refused _ hl hh hpriv]

/-- Where R247's table refuses an instruction, the checks before the privilege are passed and those after it are not reached. -/
theorem effect_noPrivilege {i : Instr} (hk : kindsAccepted i = true) (hn : registersNamed i = true)
    (hl : s.lowered = true) (hp : privilegeRefused i s = true) : effect i s = raise .noPrivilege s := by
  cases i with
  | cpr op1 op2 =>
    cases op1 with
    | lit v => cases hk
    | reg id1 =>
      obtain ⟨r, hr⟩ := Option.isSome_iff_exists.mp (names_of_registersNamed hn List.mem_cons_self)
      simp only [effect, cprEffect, needReg, regOf_some hr, Check.bind_ok, copyTo_refused hl hp]
  | cpl op1 op2 =>
    cases op1 with
    | reg id1 => cases hk
    | lit v => simp only [effect, cplEffect, needLit, Check.bind_ok, copyTo_refused hl hp]
  | cpf op1 op2 =>
    obtain ⟨sa, hsa⟩ := valueOf_of_names (names_of_registersNamed hn List.mem_cons_self) s
    cases op2 with
    | reg id2 => simp only [effect, cpfEffect, hsa, Check.bind_ok, destOf_refused hl hp, Check.bind_raise]
    | lit a2 => cases hp
  | arth op1 op2 =>
    obtain ⟨a, ha⟩ := valueOf_of_names (names_of_registersNamed hn List.mem_cons_self) s
    cases op2 with
    | reg id2 => simp only [effect, arthEffect, needReg, ha, Check.bind_ok, destOf_refused hl hp, Check.bind_raise]
    | lit a2 => cases hk
  | lgic op1 op2 =>
    obtain ⟨a, ha⟩ := valueOf_of_names (names_of_registersNamed hn List.mem_cons_self) s
    cases op2 with
    | reg id2 => simp only [effect, lgicEffect, needReg, ha, Check.bind_ok, destOf_refused hl hp, Check.bind_raise]
    | lit a2 => cases hk
  | intr op1 =>
    cases op1 with
    | reg id1 => cases hk
    | lit v => exact intrEffect_refused hl hp
  | ltsk => exact (if_pos hp).trans (if_pos hl)
  | cpx op1 op2 => cases hp
  | cmp op1 op2 => cases hp
  | jmp op1 => cases hp
  | call op1 => cases hp
  | ret => cases hp
  | rsv => cases hp
  | nop => cases hp

end Refused

/-- Settles O14: R247's refusals are raised once kinds and ids are in order, and of a rule's faults only they are NoPrivilege. -/
theorem noPrivilegeExactly : Obligations.NoPrivilegeExactly := by
  refine fun i s hk hn => ⟨fun hl hp => exec_of_raise (effect_noPrivilege hk hn hl hp), fun hallowed t h => ?_⟩
  cases (effect_ruleFault i s).fault _ _ h with
  | privilege hl hp =>
    rcases hallowed with hl' | hp'
    · exact absurd (hl.symm.trans hl') (by decide)
    · exact absurd (hp.symm.trans hp') (by decide)
  | address hk _ => simp at hk
  | divisor hk => simp at hk

end Sys2Proof.Machine
end

section
/-!
SUPPORT. Entry to a trap: a table vector with task registers on, the delivery of an event, and a context saved and loaded back
(R230, R233, R241, R244, R251).
-/

namespace Sys2Proof.Machine

/-- Settles O44: an allowed table vector is the entry to its handler from the state with RIP advanced. -/
theorem tableVectorSwitchesTasks : Obligations.TableVectorSwitchesTasks := by
  intro s v hv _ _ hh hp ht
  rw [exec_eq_settle_effect, effect_intr_table hv, dispatchVectored_installed _ hh hp]
  exact .of_enter ((taskRegs_of_rst (State.get_set_ne s _ (by decide))).trans ht)

/-- Settles O50: RGP1, then RIP if a handler is installed; with task registers on the entry to that handler. -/
theorem deliverEvent : Obligations.DeliverEvent := by
  refine fun v c s => ⟨fun h => deliver_uninstalled h c, fun hh ht => ?_, .of_deliver c⟩
  refine ⟨_, deliver_without_switch c (.inr ht), by simp, by rw [State.get_set_same, if_neg hh], fun q hq => ?_,
    fun _ => rfl, rfl⟩
  exact (((SameRegsBut.refl s _).then_set (by decide) c).then_set (by decide) _) q hq

/-- Settles O49: each of the 28 words loaded is the word the save put there. -/
theorem savedContextIsRestored : Obligations.SavedContextIsRestored := by
  intro s p hp
  refine ⟨saveRegs Reg.all p s, by rw [saveCurrent_eq_bind, hp, Check.bind_ok], fun u hmem hu => ?_⟩
  refine ⟨loadRegs Reg.all p u, by rw [loadCurrent_eq_bind, hu, Check.bind_ok], fun r => ?_⟩
  rw [loadRegs_get, if_pos (Reg.mem_all r), wordAt_of_mem hmem, saveRegs_wordAt, if_pos (Reg.mem_all r)]

end Sys2Proof.Machine
end

section
/-!
SUPPORT. The poll (R250): what a delivery leaves of the queues, the poll as a sequence of deliveries, and the arrival of events
(R7, R44, R205).
-/

namespace Sys2Proof.Machine

/-! ## A delivery leaves the queues -/

/-- Both event queues are the same in both states. -/
structure SameQueues (s t : State) : Prop where
  kbd : t.kbd = s.kbd
  tmr : t.tmr = s.tmr

namespace SameQueues

variable {s t u : State}

theorem trans (h1 : SameQueues s t) (h2 : SameQueues t u) : SameQueues s u :=
  ⟨h2.kbd.trans h1.kbd, h2.tmr.trans h1.tmr⟩

theorem of_sameElse (h : SameElse s t) : SameQueues s t := ⟨by rw [h], by rw [h]⟩

theorem of_sameButLatches (h : SameButLatches s t) : SameQueues s t := ⟨by rw [h], by rw [h]⟩

theorem set (s : State) (r : Reg) (v : Word) : SameQueues s (s.set r v) := ⟨rfl, rfl⟩

theorem machineCheck (s : State) : SameQueues s (machineCheck s) := ⟨rfl, rfl⟩

end SameQueues

theorem trapSwitch_sameQueues (s : State) : Ends (SameQueues s) (trapSwitch s) := by
  refine ⟨⟨fun t h => ?_⟩, ⟨fun k t h => ?_⟩⟩
  · obtain ⟨hkbd, htmr, -⟩ := trapSwitch_queues h
    exact ⟨hkbd, htmr⟩
  · have hsaved (p : Nat) := SameQueues.of_sameElse (.saveRegs Reg.all p s)
    obtain ⟨-, -, hl | ⟨p, -, hl | ⟨q, -, rfl⟩⟩⟩ := trapSwitch_error h
    · exact .of_sameButLatches hl
    · exact (hsaved p).trans (.of_sameButLatches hl)
    · exact (hsaved p).trans (.of_sameElse (.loadRegs ..))

theorem deliver_sameQueues (v : Nat) (c : Word) (s : State) : Ends (SameQueues s) (deliver v c s) := by
  by_cases h : (s.slot v).handler = 0
  · rw [deliver_uninstalled h]
    exact .of_ok (.set ..)
  · rw [deliver_installed h]
    have hswitch := trapSwitch_sameQueues (s.set .rgp1 c)
    have hset := SameQueues.set s .rgp1 c
    refine ⟨⟨fun t ht => ?_⟩, ⟨fun k t ht => hset.trans (hswitch.raises.fault k t (enter_error ht))⟩⟩
    obtain ⟨u, hu, rfl⟩ := enter_ok ht
    exact hset.trans ((hswitch.leaves.state u hu).trans (.set ..))

/-- A delivery that raises a fault ends in MachineCheck, which leaves the queues as well (R223). -/
theorem settle_deliver_sameQueues {v : Nat} {c : Word} {s t : State} (h : settle (deliver v c s) = .next t) :
    SameQueues s t := by
  rcases settle_next h with hok | ⟨k, u, hraise, hfault⟩
  · exact (deliver_sameQueues v c s).leaves.state t hok
  · obtain rfl := deliver_error hraise
    cases (takeFault_machineCheck u).symm.trans hfault
    exact ((deliver_sameQueues v c s).raises.fault _ u hraise).trans (.machineCheck u)

/-! ## The poll as a sequence of deliveries -/

section Poll

variable {s t : State}

/-- Once the keyboard half is done, the poll is its timer half. -/
theorem poll_of_drainKeys {u : State} (h : drainKeys s.kbd s = .next u) : poll s = drainTimers u.tmr u := by
  rw [poll, h]

theorem poll_no_keys (hk : s.kbd = []) : poll s = drainTimers s.tmr s := poll_of_drainKeys (by rw [hk, drainKeys])

theorem poll_key {c : Word} {rest : List Word} (hr : s.run = .running) (hk : s.kbd = c :: rest) :
    poll s = thenPoll (settle (deliver 0x09 c { s with kbd := rest })) := by
  rw [poll, hk, drainKeys, if_pos hr]
  cases hu : settle (deliver 0x09 c { s with kbd := rest }) with
  | next u => rw [thenPoll, poll, (settle_deliver_sameQueues hu).kbd]
  | fault e => rfl
  | refused e => rfl

theorem poll_timer {c : Byte} {rest : List Byte} (hr : s.run = .running) (hk : s.kbd = []) (ht : s.tmr = c :: rest) :
    poll s = thenPoll (settle (deliver 0x10 (c.setWidth 32) { s with tmr := rest })) := by
  rw [poll_no_keys hk, ht, drainTimers, if_pos hr]
  cases hu : settle (deliver 0x10 (c.setWidth 32) { s with tmr := rest }) with
  | next u =>
    have hqueues := settle_deliver_sameQueues hu
    rw [thenPoll, poll_no_keys (hqueues.kbd.trans hk), hqueues.tmr]
  | fault e => rfl
  | refused e => rfl

theorem poll_not_running (hr : s.run ≠ .running) : poll s = .next s := by
  have hkeys (codes : List Word) : drainKeys codes s = .next s := by
    cases codes with
    | nil => rfl
    | cons c rest => exact if_neg hr
  have htimers (ids : List Byte) : drainTimers ids s = .next s := by
    cases ids with
    | nil => rfl
    | cons c rest => exact if_neg hr
  exact (poll_of_drainKeys (hkeys _)).trans (htimers _)

/-- The poll takes the oldest element off a queue of `s`, and its delivery leaves `u` (R250). -/
inductive Delivers (s u : State) : Prop
  | key {c : Word} {rest : List Word} (hk : s.kbd = c :: rest)
      (hu : settle (deliver 0x09 c { s with kbd := rest }) = .next u) : Delivers s u
  | timer {c : Byte} {rest : List Byte} (ht : s.tmr = c :: rest)
      (hu : settle (deliver 0x10 (c.setWidth 32) { s with tmr := rest }) = .next u) : Delivers s u

/-- How many events are pending. -/
def State.pending (s : State) : Nat := s.kbd.length + s.tmr.length

theorem Delivers.pending {u : State} (h : Delivers s u) : u.pending < s.pending := by
  cases h with
  | key hk hu =>
    obtain ⟨hkbd, htmr⟩ := settle_deliver_sameQueues hu
    simp [State.pending, hkbd, htmr, hk]
  | timer ht hu =>
    obtain ⟨hkbd, htmr⟩ := settle_deliver_sameQueues hu
    simp [State.pending, hkbd, htmr, ht]

theorem thenPoll_next {r : Result} (h : thenPoll r = .next t) : ∃ u, r = .next u ∧ poll u = .next t := by
  cases r with
  | next u => exact ⟨u, rfl, h⟩
  | fault e => cases h
  | refused e => cases h

/-- One turn of the poll: it ends here, with the queues drained or the machine stopped, or goes on after a delivery. -/
theorem poll_turn (h : poll s = .next t) :
    (t = s ∧ (s.run = .running → s.kbd = [] ∧ s.tmr = [])) ∨ ∃ u, Delivers s u ∧ poll u = .next t := by
  by_cases hr : s.run = .running
  · match hk : s.kbd, ht : s.tmr with
    | c :: rest, _ =>
      rw [poll_key hr hk] at h
      obtain ⟨u, hu, hp⟩ := thenPoll_next h
      exact .inr ⟨u, .key hk hu, hp⟩
    | [], c :: rest =>
      rw [poll_timer hr hk ht] at h
      obtain ⟨u, hu, hp⟩ := thenPoll_next h
      exact .inr ⟨u, .timer ht hu, hp⟩
    | [], [] =>
      cases (poll_quiet hk ht).symm.trans h
      exact .inl ⟨rfl, fun _ => ⟨rfl, rfl⟩⟩
  · cases (poll_not_running hr).symm.trans h
    exact .inl ⟨rfl, fun h => absurd h hr⟩

/-- A poll that answers has made finitely many deliveries, and has drained both queues unless the machine stopped. -/
theorem poll_next (h : poll s = .next t) :
    Relation.ReflTransGen Delivers s t ∧ (t.run = .running → t.kbd = [] ∧ t.tmr = []) := by
  induction hn : s.pending using Nat.strong_induction_on generalizing s with
  | _ n ih =>
    rcases poll_turn h with ⟨rfl, hdrained⟩ | ⟨u, hu, hp⟩
    · exact ⟨.refl, hdrained⟩
    · obtain ⟨hrest, hdrained⟩ := ih u.pending (hn ▸ hu.pending) hp rfl
      exact ⟨.head hu hrest, hdrained⟩

end Poll

/-! ## The arrival of events -/

/-- What the arrival of events with the keyboard codes `codes` among them leaves: the codes at the back of KBD, the timers that
fired, which were armed, at the back of TMR, and everything else as it was. -/
structure Arrived (codes : List Word) (s t : State) : Prop where
  kbd : t.kbd = s.kbd ++ codes
  tmr : ∃ fired, t.tmr = s.tmr ++ fired.map Timer.id ∧ (fired ++ t.armed).Perm s.armed
  eq : t = { s with kbd := t.kbd, tmr := t.tmr, armed := t.armed }

theorem Arrived.refl (s : State) : Arrived [] s s := ⟨by simp, ⟨[], by simp⟩, rfl⟩

theorem Arrived.trans {codes codes' : List Word} {s t u : State} (h1 : Arrived codes s t) (h2 : Arrived codes' t u) :
    Arrived (codes ++ codes') s u := by
  obtain ⟨fired, htmr, hperm⟩ := h1.tmr
  obtain ⟨fired', htmr', hperm'⟩ := h2.tmr
  refine ⟨by rw [h2.kbd, h1.kbd, List.append_assoc], ⟨fired ++ fired', ?_, ?_⟩, h2.eq.trans (by rw [h1.eq])⟩
  · rw [htmr', htmr, List.map_append, List.append_assoc]
  · rw [List.append_assoc]
    exact (hperm'.append_left fired).trans hperm

theorem arrive_fire {s : State} {n : Nat} {x : Timer} (h : s.armed[n]? = some x) :
    arrive s (.fire n) = { s with tmr := s.tmr ++ [x.id], armed := s.armed.eraseIdx n } := by
  simp only [arrive, h]

theorem arrive_arrived (s : State) (e : Event) : Arrived (keyCodes [e]) s (arrive s e) := by
  cases e with
  | key c => exact ⟨rfl, ⟨[], by simp [arrive]⟩, rfl⟩
  | fire n =>
    cases hx : s.armed[n]? with
    | none =>
      have hnone : arrive s (.fire n) = s := by simp only [arrive, hx]
      rw [hnone]
      exact .refl s
    | some x =>
      obtain ⟨hlt, rfl⟩ := List.getElem?_eq_some_iff.mp hx
      rw [arrive_fire hx]
      exact ⟨(List.append_nil _).symm, ⟨[s.armed[n]], rfl, List.getElem_cons_eraseIdx_perm hlt⟩, rfl⟩

theorem keyCodes_cons (e : Event) (evs : List Event) : keyCodes (e :: evs) = keyCodes [e] ++ keyCodes evs :=
  List.filterMap_append (l := [e])

theorem foldl_arrive_arrived (evs : List Event) (s : State) : Arrived (keyCodes evs) s (evs.foldl arrive s) := by
  induction evs generalizing s with
  | nil => exact .refl s
  | cons e rest ih =>
    rw [keyCodes_cons]
    exact (arrive_arrived s e).trans (ih _)

/-- Settles O51: the poll turn by turn, and the arrival of events one by one. -/
theorem pollDeliversInOrder : Obligations.PollDeliversInOrder := by
  refine ⟨fun s => ⟨fun c rest => poll_key, fun c rest hr hk ht => ?_, poll_quiet, poll_not_running⟩,
    fun s t h => (poll_next h).2, ?_, fun s n x hx => ?_⟩
  · rw [poll_timer hr hk ht, BitVec.ofNat_toNat]
  · rintro s t evs rfl
    obtain ⟨hkbd, htmr, heq⟩ := foldl_arrive_arrived evs s
    exact ⟨hkbd, htmr, heq⟩
  · rw [arrive_fire hx]
    exact ⟨rfl, rfl⟩

end Sys2Proof.Machine
end

section
/-!
SUPPORT. RST, and with it the level (R243, R246, R248): at the lowered level an instruction, a fault and an event leave it alone
but by a task switch, which loads the base task's.
-/

namespace Sys2Proof.Machine

/-! ## The base task's RST -/

/-- `TaskSwitched` but for the level that is entered: the old RST is in the current task's structure and the new one is the base
task's word. -/
def BaseRstLoaded (s t : State) : Prop :=
  s.taskRegs = true ∧ ∃ p q : Nat, taskAddr s (s.get .rct) = .ok p ∧ taskAddr { s with mem := t.mem } (s.get .rbt) = .ok q ∧
    t.wordAt (p + Reg.offset .rst) = s.get .rst ∧ t.get .rst = t.wordAt (q + Reg.offset .rst)

/-- RST as it was, or a task switch made. -/
def RstKeptOrSwitched (s t : State) : Prop := t.get .rst = s.get .rst ∨ TaskSwitched s t

section Switch

variable {s t u w : State}

theorem BaseRstLoaded.taskSwitched (h : BaseRstLoaded s t) (hl : t.lowered = false ∨ t.run = .terminated .machineCheck) :
    TaskSwitched s t := by
  obtain ⟨ht, p, q, hp, hq, hold, hnew⟩ := h
  exact ⟨ht, p, q, hp, hq, hold, hnew, hl⟩

/-- Nothing but memory and RST is spoken of in the state after the switch. -/
theorem BaseRstLoaded.of_same (h : BaseRstLoaded s w) (hm : t.mem = w.mem) (hr : t.get .rst = w.get .rst) :
    BaseRstLoaded s t := by
  obtain ⟨ht, p, q, hp, hq, hold, hnew⟩ := h
  exact ⟨ht, p, q, hp, by rw [hm, hq], by rw [wordAt_of_mem hm, hold], by rw [hr, hnew, wordAt_of_mem hm]⟩

/-- A state that has the registers of `s` means the same addresses as `s` with its memory. -/
theorem SameAddresses.with_mem {m : Memory} (hc : w.cfg = s.cfg) (hr : SameRegsBut s w [.rip, .rgp1]) (hm : w.mem = m) :
    SameAddresses { s with mem := m } w :=
  ⟨hc, fun a => byteAt_of_mem (s := { s with mem := m }) hm a, hr⟩

/-- The context switched to in a state where addresses mean the same as in `s` (R241, R243). -/
theorem BaseRstLoaded.switched {p q : Nat} (hu : SameAddresses s u) (ht : u.taskRegs = true)
    (hp : taskAddr u (u.get .rct) = .ok p) (hq : taskAddr (saveRegs Reg.all p u) (u.get .rbt) = .ok q) :
    BaseRstLoaded s (switched u p q) := by
  have hmem : (Machine.switched u p q).mem = (saveRegs Reg.all p u).mem := loadRegs_mem ..
  have hsaved : SameAddresses { s with mem := (Machine.switched u p q).mem } (saveRegs Reg.all p u) :=
    .with_mem ((saveRegs_cfg ..).trans hu.cfg) (fun r hr => (saveRegs_get ..).trans (hu.regs r hr)) hmem.symm
  rw [hu.get .rct] at hp
  rw [hu.get .rbt] at hq
  refine ⟨hu.taskRegs.symm.trans ht, p, q, hu.taskAddr_ok hp, hsaved.taskAddr_ok hq, ?_, ?_⟩
  · rw [(switched_savedAt u p q).1 .rst, hu.get .rst]
  · rw [switched_get_base u p q (by decide), baseWord, wordAt_of_mem hmem]

/-- What the context switch of a trap does to RST where it completes: it enters the elevated level if it loads any (R243). -/
theorem trapSwitch_ok_rst (hu : SameAddresses s u) (h : trapSwitch u = .ok w) :
    w.get .rst = s.get .rst ∨ BaseRstLoaded s w ∧ w.lowered = false := by
  rcases trapSwitch_ok h with ⟨-, rfl⟩ | ⟨ht, hl, p, q, hp, hq, rfl⟩
  · exact .inl (hu.get .rst)
  · exact .inr ⟨.switched hu ht hp hq, hl⟩

theorem trapSwitch_error_rst {k : FaultKind} (hu : SameAddresses s u) (h : trapSwitch u = .error (.raise k w)) :
    w.get .rst = s.get .rst ∨ BaseRstLoaded s w := by
  obtain ⟨-, ht, hl | ⟨p, hp, hl | ⟨q, hq, rfl⟩⟩⟩ := trapSwitch_error h
  · exact .inl ((hl.get .rst).trans (hu.get .rst))
  · exact .inl ((hl.get .rst).trans ((saveRegs_get ..).trans (hu.get .rst)))
  · exact .inr (.switched hu ht hp hq)

/-! ## Faults and handler entry -/

@[simp] theorem machineCheck_run (s : State) : (machineCheck s).run = .terminated .machineCheck := rfl

/-- What follows a switch that completed writes neither memory nor RST. -/
theorem RstKeptOrSwitched.after_switch (h : w.get .rst = s.get .rst ∨ BaseRstLoaded s w ∧ w.lowered = false)
    (hm : t.mem = w.mem) (hr : t.get .rst = w.get .rst) : RstKeptOrSwitched s t := by
  rcases h with hkept | ⟨hloaded, hl⟩
  · exact .inl (hr.trans hkept)
  · exact .inr ((hloaded.of_same hm hr).taskSwitched (.inl ((lowered_of_rst hr).trans hl)))

theorem RstKeptOrSwitched.machineCheck (h : w.get .rst = s.get .rst ∨ BaseRstLoaded s w) :
    RstKeptOrSwitched s (machineCheck w) := by
  have hr : (Machine.machineCheck w).get .rst = w.get .rst := machineCheck_get (by decide)
  rcases h with hkept | hloaded
  · exact .inl (hr.trans hkept)
  · exact .inr ((hloaded.of_same (machineCheck_mem w) hr).taskSwitched (.inr (machineCheck_run w)))

theorem takeFault_rst {k : FaultKind} (hu : SameAddresses s u) (h : takeFault k u = .next t) : RstKeptOrSwitched s t := by
  rcases takeFault_next h with ⟨-, rfl⟩ | ⟨-, w, hw, rfl⟩ | ⟨-, w, hw, rfl⟩
  · exact .machineCheck (.inl (hu.get .rst))
  · exact .after_switch (trapSwitch_ok_rst hu hw) (redirect_flagFault_mem k w)
      (redirect_flagFault_get k w (by decide) (by decide))
  · exact .machineCheck (trapSwitch_error_rst hu hw)

theorem settle_enter_rst {a : Word} (hu : SameAddresses s u) (h : settle (enter a u) = .next t) :
    RstKeptOrSwitched s t := by
  rcases settle_next h with hok | ⟨k, w, hraise, hfault⟩
  · obtain ⟨w, hw, rfl⟩ := enter_ok hok
    exact .after_switch (trapSwitch_ok_rst hu hw) rfl (State.get_set_ne _ _ (by decide))
  · have hstop := enter_error hraise
    obtain ⟨rfl, -⟩ := trapSwitch_error hstop
    cases (takeFault_machineCheck w).symm.trans hfault
    exact .machineCheck (trapSwitch_error_rst hu hstop)

theorem settle_deliver_rst {v : Nat} {c : Word} (h : settle (deliver v c s) = .next t) : RstKeptOrSwitched s t := by
  by_cases hh : (s.slot v).handler = 0
  · rw [deliver_uninstalled hh] at h
    cases h
    exact .inl (State.get_set_ne _ _ (by decide))
  · rw [deliver_installed hh] at h
    exact settle_enter_rst ((SameAddresses.refl s).then_set (by decide) c) h

/-- A task switch takes task registers (R222, R233). -/
theorem RstKeptOrSwitched.kept (h : RstKeptOrSwitched s t) (ht : s.taskRegs = false) : t.get .rst = s.get .rst := by
  refine h.resolve_right fun ⟨hon, _⟩ => ?_
  exact absurd (hon.symm.trans ht) (by decide)

end Switch

/-! ## Instructions -/

section Lowered

variable {s t : State}

/-- The instructions but `intr` and `ltsk` switch no task, so that their rules keep RST at the lowered level with task registers
on as well (R23, R246). -/
theorem effect_leaves_of_no_trap (hl : s.lowered = true) {i : Instr} (hintr : ∀ op, i ≠ .intr op) (hltsk : i ≠ .ltsk) :
    Leaves (ControlKept (ownControl i) s) (effect i s) := by
  cases i with
  | cpr op1 op2 => exact .bind fun _ _ => .bind fun _ _ => copyTo_leaves hl ..
  | cpl op1 op2 => exact .bind fun _ _ => copyTo_leaves hl ..
  | cpf op1 op2 => exact cpfEffect_leaves hl ..
  | cpx op1 op2 =>
    exact .bind fun _ _ => .bind fun _ _ => .bind fun _ _ => .bind fun _ _ => .bind fun _ _ =>
      .of_ok (.storeWord_set_rip ..)
  | cmp op1 op2 => exact cmpEffect_leaves ..
  | jmp op1 => exact .bind fun _ _ => .of_ok (.set_rip _)
  | call op1 => exact callEffect_leaves op1
  | ret => exact retEffect_leaves
  | arth op1 op2 => exact arthEffect_leaves hl ..
  | lgic op1 op2 =>
    exact .bind fun _ _ => .bind fun _ _ => .bind fun _ hd => .bind fun _ _ =>
      .of_ok (.set_set_rip (destOf_offset hl hd) ..)
  | rsv => exact .of_ok (.set_rip _)
  | nop => exact .of_ok (.set_rip _)
  | intr op1 => exact absurd rfl (hintr op1)
  | ltsk => exact absurd rfl hltsk

/-- A table vector that the lowered level may use, or that is not installed (R230). -/
theorem exec_intr_table_rst {v : Word} (hv : inlineNumber v = false)
    (hp : (s.slot v.toNat).handler = 0 ∨ (s.slot v.toNat).priv = true)
    (h : exec (.intr (.lit v)) s = .next t) : RstKeptOrSwitched s t := by
  rw [exec_eq_settle_effect, effect_intr_table hv] at h
  by_cases hh : (s.slot v.toNat).handler = 0
  · rw [dispatchVectored_not_installed _ hh] at h
    exact takeFault_rst (.refl s) h
  · rw [dispatchVectored_installed _ hh (.inr (hp.resolve_left hh))] at h
    exact settle_enter_rst ((SameAddresses.refl s).then_set (by decide) _) h

theorem exec_intr_rst {op1 : Operand} (hl : s.lowered = true) (h : exec (.intr op1) s = .next t) :
    RstKeptOrSwitched s t := by
  cases op1 with
  | reg id =>
    rw [exec_of_raise (effect_badOperandValue s rfl)] at h
    exact takeFault_rst (.refl s) h
  | lit v =>
    cases hr : Operand.isRefusedVector (.lit v) s with
    | true =>
      rw [exec_of_raise (intrEffect_refused hl hr)] at h
      exact takeFault_rst (.refl s) h
    | false =>
      obtain ⟨hv, hp⟩ : inlineNumber v = false ∧ ((s.slot v.toNat).handler = 0 ∨ (s.slot v.toNat).priv = true) := by
        simpa [isRefusedVector_lit, or_iff_not_imp_left] using Bool.eq_false_iff.mp hr
      exact exec_intr_table_rst hv hp h

/-- `ltsk` is refused with task registers on, and with them off moves RIP alone (R212). -/
theorem exec_ltsk_rst (hl : s.lowered = true) (h : exec .ltsk s = .next t) : RstKeptOrSwitched s t := by
  cases ht : s.taskRegs with
  | true =>
    rw [exec_of_raise (effect_noPrivilege (i := .ltsk) rfl rfl hl ht)] at h
    exact takeFault_rst (.refl s) h
  | false =>
    have hkept := exec_controlKept hl ht h
    exact .inl (hkept.regs .rst (by decide) (by decide))

theorem exec_rst {i : Instr} (hl : s.lowered = true) (h : exec i s = .next t) : RstKeptOrSwitched s t := by
  by_cases hintr : ∃ op, i = .intr op
  · obtain ⟨op, rfl⟩ := hintr
    exact exec_intr_rst hl h
  by_cases hltsk : i = .ltsk
  · subst hltsk
    exact exec_ltsk_rst hl h
  rw [not_exists] at hintr
  rw [exec_eq_settle_effect] at h
  rcases settle_next h with hok | ⟨k, u, hraise, hfault⟩
  · have hkept := (effect_leaves_of_no_trap hl hintr hltsk).state t hok
    exact .inl (hkept.regs .rst (by decide) (not_mem_ownControl (by decide) nofun))
  · have hrule := (effect_ruleFault i s).fault k u hraise
    refine takeFault_rst (hrule.sameAddresses ?_) hfault
    rintro rfl
    rcases hrule.of_machineCheck with hi | ⟨v, hi⟩
    · exact hltsk hi
    · exact hintr _ hi

/-- A fault of the fetch is raised with nothing but the latches changed (R100). -/
theorem fetchAndExecute_rst (hl : s.lowered = true) (h : fetchAndExecute s = .next t) : RstKeptOrSwitched s t := by
  match hf : fetch s with
  | .ok i =>
    rw [fetchAndExecute_of_fetch hf] at h
    exact exec_rst hl h
  | .error (.raise k u) =>
    rw [fetchAndExecute_of_raise hf] at h
    exact takeFault_rst (.of_sameButLatches (fetch_error hf)) h
  | .error .hang =>
    rw [fetchAndExecute, hf] at h
    cases h

end Lowered

/-! ## The step with task registers off -/

section Step

variable {s t : State}

theorem State.get_of_regs (h : t.regs = s.regs) (r : Reg) : t.get r = s.get r := by rw [State.get, State.get, h]

theorem foldl_arrive_regs (evs : List Event) (s : State) : (evs.foldl arrive s).regs = s.regs := by
  rw [(foldl_arrive_arrived evs s).eq]

theorem arriveBefore_regs (s : State) : (arriveBefore s).regs = s.regs := by
  unfold arriveBefore
  split
  · rfl
  · exact foldl_arrive_regs ..

theorem arriveBeforePoll_regs (s : State) : (arriveBeforePoll s).regs = s.regs := by
  unfold arriveBeforePoll
  split
  · rfl
  · exact foldl_arrive_regs ..

theorem Delivers.rst (h : Delivers s t) (ht : s.taskRegs = false) : t.get .rst = s.get .rst := by
  cases h with
  | key _ hu => exact (settle_deliver_rst hu).kept ht
  | timer _ hu => exact (settle_deliver_rst hu).kept ht

theorem poll_rst (ht : s.taskRegs = false) (h : poll s = .next t) : t.get .rst = s.get .rst := by
  have hdeliveries := (poll_next h).1
  clear h
  induction hdeliveries with
  | refl => rfl
  | tail _ hlast ih => exact (hlast.rst ((taskRegs_of_rst ih).trans ht)).trans ih

/-- Events arrive, an instruction is fetched and executed, events arrive, the poll delivers: none of it switches tasks. -/
theorem step_rst (hl : s.lowered = true) (ht : s.taskRegs = false) (h : step s = .next t) : t.get .rst = s.get .rst := by
  by_cases hr : s.run = .running
  · rw [step_running hr] at h
    obtain ⟨u, hu, hpoll⟩ := afterInstr_next h
    have hbefore : (arriveBefore s).get .rst = s.get .rst := State.get_of_regs (arriveBefore_regs s) .rst
    have hexec : u.get .rst = (arriveBefore s).get .rst :=
      (fetchAndExecute_rst ((lowered_of_rst hbefore).trans hl) hu).kept ((taskRegs_of_rst hbefore).trans ht)
    have hafter : (arriveBeforePoll u).get .rst = s.get .rst :=
      (State.get_of_regs (arriveBeforePoll_regs u) .rst).trans (hexec.trans hbefore)
    exact (poll_rst ((taskRegs_of_rst hafter).trans ht) hpoll).trans hafter
  · cases (step_not_running hr).symm.trans h
    rfl

end Step

/-- Settles O58: with task registers off no part of a step loads RST, with them on only a completed or failed task switch does. -/
theorem levelRisesOnlyByTaskSwitch : Obligations.LevelRisesOnlyByTaskSwitch := by
  refine ⟨fun s t => step_rst, fun s t hl h helevated => ?_, fun i s t => exec_rst, fun s t => fetchAndExecute_rst,
    fun v c s t _ => settle_deliver_rst⟩
  by_contra hoff
  have hlowered := lowered_of_rst (step_rst hl (Bool.eq_false_iff.mpr hoff) h)
  exact absurd (helevated.symm.trans (hlowered.trans hl)) (by decide)

end Sys2Proof.Machine
end
